-- ==== Sys2Proof/Word.lean ====
section
/-! DEFINITION. The two word sizes of the hardware (spec 00_scope.md R12). -/

namespace Sys2Proof

/-- A channel, an opacity, a mask value, one byte of memory (R12, R20). -/
abbrev Byte := BitVec 8

/-- A register, the command word (R20, R90). -/
abbrev Word := BitVec 32

end Sys2Proof
end

