-- ==== Sys2Proof/Config.lean ====
section
/-! DEFINITION. The open parameters of the hardware (spec 00_scope.md R7 to R13) as one record of plain data.
State holds one (`State.cfg`), no step changes it, and a statement over every state is a statement over every
choice of the parameters (assumption log 1). -/

namespace Sys2Proof

/-- A range of addresses of the engine's memory port that is no ordinary memory (20_memory.md R72). -/
structure Region where
  base : Nat
  size : Nat
  deriving DecidableEq, Repr

/-- `a` lies in the region. -/
def Region.holds (r : Region) (a : Nat) : Bool :=
  decide (r.base ≤ a) && decide (a < r.base + r.size)

/-- The parameters, each under the name the spec gives it. -/
structure Config where
  /-- OPA_MAX (R7): the smallest weight and the smallest opacity that count as fully opaque. -/
  opaMax : Byte
  /-- FILL_PAD (R8): byte 3 of a 4-byte pixel written by the unmasked full-opacity fill. -/
  fillPad : Byte
  /-- NONNORMAL_SWAP (R9). -/
  nonnormalSwap : Bool
  /-- ADDR_W (R10): the width in bits of every address of the memory port. -/
  addrW : Nat
  /-- REG_BASE (R11): the host address of the register block. -/
  regBase : Nat
  /-- BUS_ERR_POSSIBLE (R13). -/
  busErrPossible : Bool
  /-- The platform's map (20_memory.md R62, R72): addresses that hold devices or nothing. -/
  devices : List Region
  deriving DecidableEq, Repr

/-- Bytes of the register block (R11: size 0x100 bytes, 64 word slots). -/
def blockSize : Nat := 0x100

/-- The ranges R7 and R10 give the parameters: OPA_MAX 1 to 255, ADDR_W 16 to 32. -/
def Config.wf (c : Config) : Bool :=
  decide (c.opaMax ≠ 0) && decide (16 ≤ c.addrW) && decide (c.addrW ≤ 32)

/-- The reference configuration of R7 to R10. The spec gives REG_BASE, BUS_ERR_POSSIBLE and the platform's map no
reference value: those three are DESIGN CHOICE (assumption log 2). -/
def Config.reference : Config where
  opaMax := 0xFF
  fillPad := 0xFF
  nonnormalSwap := false
  addrW := 32
  regBase := 0x40000000
  busErrPossible := true
  devices := []

end Sys2Proof
end

