-- ==== Sys2Proof/Syntax.lean ====
section
/-! DEFINITION. The instruction set as syntax: one constructor of `Instr` per row of spec/opcode_table.json (30_encoding.md
R107 and the mmio rows), the enumerations of 30_encoding.md R95 and R96, and the two forms in which an instruction
reaches the engine: a command word in CMD, and a host access to the register block. -/

namespace Sys2Proof

/-- The four source encodings (R96). -/
inductive SrcFmt
  | rgb565
  | rgb888
  | xrgb8888
  | argb8888
  deriving DecidableEq, Repr

/-- The three combination rules of the blend_mode_combinator (40_datapath.md R126 to R128). -/
inductive Combine
  | additive
  | subtractive
  | multiply
  deriving DecidableEq, Repr

/-- The four blend modes (R95): normal is never passed to the combinator (40_datapath.md R129). -/
inductive BlendMode
  | normal
  | combine (c : Combine)
  deriving DecidableEq, Repr

/-- The instructions. A command carries the fields of its word that its row does not fix: DPX, MASK_EN, and, where the
row fixes neither, BLEND and SRC_FMT, which the command ignores or which name the unsupported encoding (R99, R107). A
register write carries the 32-bit value written; a reserved offset is an operand (10_state.md R21). -/
inductive Instr
  | fill (dpx maskEn : Bool) (blend : BitVec 2) (srcFmt : Byte)
  | imageRgb565Normal (dpx maskEn : Bool)
  | imageRgb565Add (dpx maskEn : Bool)
  | imageRgb565Sub (dpx maskEn : Bool)
  | imageRgb565Mul (dpx maskEn : Bool)
  | imageRgb888Normal (dpx maskEn : Bool)
  | imageRgb888Add (dpx maskEn : Bool)
  | imageRgb888Sub (dpx maskEn : Bool)
  | imageRgb888Mul (dpx maskEn : Bool)
  | imageXrgb8888Normal (dpx maskEn : Bool)
  | imageXrgb8888Add (dpx maskEn : Bool)
  | imageXrgb8888Sub (dpx maskEn : Bool)
  | imageXrgb8888Mul (dpx maskEn : Bool)
  | imageArgb8888Normal (dpx maskEn : Bool)
  | imageArgb8888Add (dpx maskEn : Bool)
  | imageArgb8888Sub (dpx maskEn : Bool)
  | imageArgb8888Mul (dpx maskEn : Bool)
  | imageUnsupported (dpx maskEn : Bool) (blend : BitVec 2) (srcFmt : Byte)
  | illegalOp0 (dpx maskEn : Bool) (blend : BitVec 2) (srcFmt : Byte)
  | illegalOp3 (dpx maskEn : Bool) (blend : BitVec 2) (srcFmt : Byte)
  | rdConfig
  | rdCtrl
  | rdStatus
  | rdCmd
  | rdDestAddr
  | rdDestSize
  | rdDestStride
  | rdColor
  | rdOpa
  | rdMaskAddr
  | rdMaskStride
  | rdSrcAddr
  | rdSrcStride
  | wrConfig (v : Word)
  | wrCtrl (v : Word)
  | wrStatus (v : Word)
  | wrCmd (v : Word)
  | wrDestAddr (v : Word)
  | wrDestSize (v : Word)
  | wrDestStride (v : Word)
  | wrColor (v : Word)
  | wrOpa (v : Word)
  | wrMaskAddr (v : Word)
  | wrMaskStride (v : Word)
  | wrSrcAddr (v : Word)
  | wrSrcStride (v : Word)
  | rdReserved (offset : Byte)
  | wrReserved (offset : Byte) (v : Word)
  deriving DecidableEq, Repr

/-- The rows of the opcode map of command words, in the map's order (R107). -/
inductive CommandRow
  | fill
  | imageRgb565Normal
  | imageRgb565Add
  | imageRgb565Sub
  | imageRgb565Mul
  | imageRgb888Normal
  | imageRgb888Add
  | imageRgb888Sub
  | imageRgb888Mul
  | imageXrgb8888Normal
  | imageXrgb8888Add
  | imageXrgb8888Sub
  | imageXrgb8888Mul
  | imageArgb8888Normal
  | imageArgb8888Add
  | imageArgb8888Sub
  | imageArgb8888Mul
  | imageUnsupported
  | illegalOp0
  | illegalOp3
  deriving DecidableEq, Repr

/-- The direction of a host access to the register block (43_command_control.md R200, R201). -/
inductive Direction
  | read
  | write
  deriving DecidableEq, Repr

/-- A host access as the host issues it: a host address, a width in bytes, a direction, and the data of a write (the
data of a read is ignored). R86 of 20_memory.md says which of them the hardware defines. -/
structure Access where
  addr : Nat
  width : Nat
  dir : Direction
  data : Word
  deriving DecidableEq, Repr

/-- What carries an instruction to the engine: the command word (R90) or a host access (43_command_control.md). -/
inductive Packet
  | command (w : Word)
  | access (a : Access)
  deriving DecidableEq, Repr

end Sys2Proof
end

