-- ==== Sys2Proof/WellFormed.lean ====
section
/-! DEFINITION. Which terms of `Instr` stand for an instruction the encodings give: an unsupported image command names
an encoding that is not one of the four (30_encoding.md R96), and a reserved access names a reserved word slot
(10_state.md R21). Every other term is well formed. -/

namespace Sys2Proof

/-- R96: the SRC_FMT values that name a supported encoding are 0x12, 0x0F, 0x11 and 0x10; the other 252 are unsupported. -/
def unsupportedFormat (v : Byte) : Bool :=
  decide (v ≠ 0x12 ∧ v ≠ 0x0F ∧ v ≠ 0x11 ∧ v ≠ 0x10)

/-- Offsets 0x34 to 0xFC that are multiples of 4 (10_state.md R21, 20_memory.md R86). -/
def reservedOffset (offset : Byte) : Bool :=
  decide (0x34 ≤ offset.toNat) && decide (offset.toNat % 4 = 0)

/-- The instruction is one the encodings give. -/
def Instr.wellFormed : Instr → Bool
  | .fill _ _ _ _ => true
  | .imageRgb565Normal _ _ => true
  | .imageRgb565Add _ _ => true
  | .imageRgb565Sub _ _ => true
  | .imageRgb565Mul _ _ => true
  | .imageRgb888Normal _ _ => true
  | .imageRgb888Add _ _ => true
  | .imageRgb888Sub _ _ => true
  | .imageRgb888Mul _ _ => true
  | .imageXrgb8888Normal _ _ => true
  | .imageXrgb8888Add _ _ => true
  | .imageXrgb8888Sub _ _ => true
  | .imageXrgb8888Mul _ _ => true
  | .imageArgb8888Normal _ _ => true
  | .imageArgb8888Add _ _ => true
  | .imageArgb8888Sub _ _ => true
  | .imageArgb8888Mul _ _ => true
  | .imageUnsupported _ _ _ srcFmt => unsupportedFormat srcFmt
  | .illegalOp0 _ _ _ _ => true
  | .illegalOp3 _ _ _ _ => true
  | .rdConfig => true
  | .rdCtrl => true
  | .rdStatus => true
  | .rdCmd => true
  | .rdDestAddr => true
  | .rdDestSize => true
  | .rdDestStride => true
  | .rdColor => true
  | .rdOpa => true
  | .rdMaskAddr => true
  | .rdMaskStride => true
  | .rdSrcAddr => true
  | .rdSrcStride => true
  | .wrConfig _ => true
  | .wrCtrl _ => true
  | .wrStatus _ => true
  | .wrCmd _ => true
  | .wrDestAddr _ => true
  | .wrDestSize _ => true
  | .wrDestStride _ => true
  | .wrColor _ => true
  | .wrOpa _ => true
  | .wrMaskAddr _ => true
  | .wrMaskStride _ => true
  | .wrSrcAddr _ => true
  | .wrSrcStride _ => true
  | .rdReserved offset => reservedOffset offset
  | .wrReserved offset _ => reservedOffset offset

end Sys2Proof
end

