-- ==== Sys2Proof/Decode.lean ====
section
/-! DEFINITION. The decoder and, after it, the encoder. A command word is matched against the rows of 30_encoding.md
R107 from top to bottom; a host access is decoded by its offset in the register block and its direction (10_state.md
R20, R21; 20_memory.md R86), and an access the hardware does not define is rejected by name. -/

namespace Sys2Proof

/-! ## Fields of the command word (R91) -/

/-- OP, bits 1:0. -/
def cmdOp (w : Word) : BitVec 2 := w.extractLsb' 0 2

/-- DPX, bit 2. -/
def cmdDpx (w : Word) : Bool := w.getLsbD 2

/-- MASK_EN, bit 3. -/
def cmdMaskEn (w : Word) : Bool := w.getLsbD 3

/-- BLEND, bits 5:4. -/
def cmdBlend (w : Word) : BitVec 2 := w.extractLsb' 4 2

/-- SRC_FMT, bits 15:8. -/
def cmdSrcFmt (w : Word) : Byte := w.extractLsb' 8 8

/-- The bits of CMD that are fields; the others are reserved and always 0 (R97, 10_state.md R26). -/
def cmdFieldMask : Word := 0x0000FF3F

/-- SRC_FMT values of the four supported encodings (R96). -/
def SrcFmt.code : SrcFmt → Byte
  | .rgb565 => 0x12
  | .rgb888 => 0x0F
  | .xrgb8888 => 0x11
  | .argb8888 => 0x10

/-- The encoding a SRC_FMT value names, none where it is unsupported (R96, 42_image.md R170). -/
def SrcFmt.ofCode (v : Byte) : Option SrcFmt :=
  if v = 0x12 then some .rgb565
  else if v = 0x0F then some .rgb888
  else if v = 0x11 then some .xrgb8888
  else if v = 0x10 then some .argb8888
  else none

/-! ## The opcode map (R107) -/

/-- The `match` column of R107. -/
def CommandRow.pattern : CommandRow → Word
  | .fill => 0x00000001
  | .imageRgb565Normal => 0x00001202
  | .imageRgb565Add => 0x00001212
  | .imageRgb565Sub => 0x00001222
  | .imageRgb565Mul => 0x00001232
  | .imageRgb888Normal => 0x00000F02
  | .imageRgb888Add => 0x00000F12
  | .imageRgb888Sub => 0x00000F22
  | .imageRgb888Mul => 0x00000F32
  | .imageXrgb8888Normal => 0x00001102
  | .imageXrgb8888Add => 0x00001112
  | .imageXrgb8888Sub => 0x00001122
  | .imageXrgb8888Mul => 0x00001132
  | .imageArgb8888Normal => 0x00001002
  | .imageArgb8888Add => 0x00001012
  | .imageArgb8888Sub => 0x00001022
  | .imageArgb8888Mul => 0x00001032
  | .imageUnsupported => 0x00000002
  | .illegalOp0 => 0x00000000
  | .illegalOp3 => 0x00000003

/-- The `mask` column of R107. -/
def CommandRow.mask : CommandRow → Word
  | .fill => 0x00000003
  | .imageRgb565Normal => 0x0000FF33
  | .imageRgb565Add => 0x0000FF33
  | .imageRgb565Sub => 0x0000FF33
  | .imageRgb565Mul => 0x0000FF33
  | .imageRgb888Normal => 0x0000FF33
  | .imageRgb888Add => 0x0000FF33
  | .imageRgb888Sub => 0x0000FF33
  | .imageRgb888Mul => 0x0000FF33
  | .imageXrgb8888Normal => 0x0000FF33
  | .imageXrgb8888Add => 0x0000FF33
  | .imageXrgb8888Sub => 0x0000FF33
  | .imageXrgb8888Mul => 0x0000FF33
  | .imageArgb8888Normal => 0x0000FF33
  | .imageArgb8888Add => 0x0000FF33
  | .imageArgb8888Sub => 0x0000FF33
  | .imageArgb8888Mul => 0x0000FF33
  | .imageUnsupported => 0x00000003
  | .illegalOp0 => 0x00000003
  | .illegalOp3 => 0x00000003

/-- R107: "a command word matching a row when `(L.CMD AND mask) = match`". -/
def CommandRow.fits (r : CommandRow) (w : Word) : Bool := decide (w &&& r.mask = r.pattern)

/-- The rows of R107, top to bottom. -/
def commandRows : List CommandRow :=
  [.fill,
    .imageRgb565Normal, .imageRgb565Add, .imageRgb565Sub, .imageRgb565Mul,
    .imageRgb888Normal, .imageRgb888Add, .imageRgb888Sub, .imageRgb888Mul,
    .imageXrgb8888Normal, .imageXrgb8888Add, .imageXrgb8888Sub, .imageXrgb8888Mul,
    .imageArgb8888Normal, .imageArgb8888Add, .imageArgb8888Sub, .imageArgb8888Mul,
    .imageUnsupported, .illegalOp0, .illegalOp3]

/-- R107: "Rows are tried top to bottom and the first match wins". R108: every command word is one row, so the last
row, ILLEGAL.OP3, is what remains where no earlier one fits (`commandRow_fits` in Laws shows that the row found
always fits the word). -/
def commandRow (w : Word) : CommandRow :=
  (commandRows.find? (fun r => r.fits w)).getD .illegalOp3

/-- The instruction of a row, with the fields the row leaves open taken from the word. -/
def CommandRow.instr (r : CommandRow) (w : Word) : Instr :=
  match r with
  | .fill => .fill (cmdDpx w) (cmdMaskEn w) (cmdBlend w) (cmdSrcFmt w)
  | .imageRgb565Normal => .imageRgb565Normal (cmdDpx w) (cmdMaskEn w)
  | .imageRgb565Add => .imageRgb565Add (cmdDpx w) (cmdMaskEn w)
  | .imageRgb565Sub => .imageRgb565Sub (cmdDpx w) (cmdMaskEn w)
  | .imageRgb565Mul => .imageRgb565Mul (cmdDpx w) (cmdMaskEn w)
  | .imageRgb888Normal => .imageRgb888Normal (cmdDpx w) (cmdMaskEn w)
  | .imageRgb888Add => .imageRgb888Add (cmdDpx w) (cmdMaskEn w)
  | .imageRgb888Sub => .imageRgb888Sub (cmdDpx w) (cmdMaskEn w)
  | .imageRgb888Mul => .imageRgb888Mul (cmdDpx w) (cmdMaskEn w)
  | .imageXrgb8888Normal => .imageXrgb8888Normal (cmdDpx w) (cmdMaskEn w)
  | .imageXrgb8888Add => .imageXrgb8888Add (cmdDpx w) (cmdMaskEn w)
  | .imageXrgb8888Sub => .imageXrgb8888Sub (cmdDpx w) (cmdMaskEn w)
  | .imageXrgb8888Mul => .imageXrgb8888Mul (cmdDpx w) (cmdMaskEn w)
  | .imageArgb8888Normal => .imageArgb8888Normal (cmdDpx w) (cmdMaskEn w)
  | .imageArgb8888Add => .imageArgb8888Add (cmdDpx w) (cmdMaskEn w)
  | .imageArgb8888Sub => .imageArgb8888Sub (cmdDpx w) (cmdMaskEn w)
  | .imageArgb8888Mul => .imageArgb8888Mul (cmdDpx w) (cmdMaskEn w)
  | .imageUnsupported => .imageUnsupported (cmdDpx w) (cmdMaskEn w) (cmdBlend w) (cmdSrcFmt w)
  | .illegalOp0 => .illegalOp0 (cmdDpx w) (cmdMaskEn w) (cmdBlend w) (cmdSrcFmt w)
  | .illegalOp3 => .illegalOp3 (cmdDpx w) (cmdMaskEn w) (cmdBlend w) (cmdSrcFmt w)

/-- The instruction a command word stands for: total, no word is rejected (R108). -/
def decodeCommand (w : Word) : Instr := (commandRow w).instr w

/-! ## Register accesses -/

/-- Why a host access is no instruction of this hardware: each is a rejection by name. -/
inductive Reject
  /-- The address lies outside the 0x100 bytes at REG_BASE (00_scope.md R11). -/
  | outsideBlock
  /-- The access is not 32 bits wide (20_memory.md R86). -/
  | wrongWidth
  /-- The offset is not a multiple of 4 (20_memory.md R86). -/
  | misaligned
  deriving DecidableEq, Repr

/-- The read at a word offset of the block (43_command_control.md R201, offsets of 10_state.md R20 and R21). -/
def decodeRead (offset : Nat) : Instr :=
  match offset with
  | 0x00 => .rdConfig
  | 0x04 => .rdCtrl
  | 0x08 => .rdStatus
  | 0x0C => .rdCmd
  | 0x10 => .rdDestAddr
  | 0x14 => .rdDestSize
  | 0x18 => .rdDestStride
  | 0x1C => .rdColor
  | 0x20 => .rdOpa
  | 0x24 => .rdMaskAddr
  | 0x28 => .rdMaskStride
  | 0x2C => .rdSrcAddr
  | 0x30 => .rdSrcStride
  | k => .rdReserved (BitVec.ofNat 8 k)

/-- The write at a word offset of the block (43_command_control.md R200, offsets of 10_state.md R20 and R21). -/
def decodeWrite (offset : Nat) (v : Word) : Instr :=
  match offset with
  | 0x00 => .wrConfig v
  | 0x04 => .wrCtrl v
  | 0x08 => .wrStatus v
  | 0x0C => .wrCmd v
  | 0x10 => .wrDestAddr v
  | 0x14 => .wrDestSize v
  | 0x18 => .wrDestStride v
  | 0x1C => .wrColor v
  | 0x20 => .wrOpa v
  | 0x24 => .wrMaskAddr v
  | 0x28 => .wrMaskStride v
  | 0x2C => .wrSrcAddr v
  | 0x30 => .wrSrcStride v
  | k => .wrReserved (BitVec.ofNat 8 k) v

/-- The register operation a host access stands for, the block being at `regBase` (43_command_control.md R200, R201;
20_memory.md R86). -/
def decodeAccess (regBase : Nat) (a : Access) : Except Reject Instr :=
  if a.addr < regBase ∨ regBase + blockSize ≤ a.addr then .error .outsideBlock
  else if a.width ≠ 4 then .error .wrongWidth
  else if (a.addr - regBase) % 4 ≠ 0 then .error .misaligned
  else match a.dir with
    | .read => .ok (decodeRead (a.addr - regBase))
    | .write => .ok (decodeWrite (a.addr - regBase) a.data)

/-- The decoder: total, an access the hardware does not define is rejected by name. -/
def decode (regBase : Nat) : Packet → Except Reject Instr
  | .command w => .ok (decodeCommand w)
  | .access a => decodeAccess regBase a

/-! ## The encoder -/

/-- A field put at its lowest bit, in a word whose other bits are 0 (00_scope.md R14). -/
def placeField {k : Nat} (lo : Nat) (v : BitVec k) : Word := v.setWidth 32 <<< lo

/-- The command word assembled from its fields, reserved bits 0 (R91, R97). -/
def encodeFields (op : BitVec 2) (dpx maskEn : Bool) (blend : BitVec 2) (srcFmt : Byte) : Word :=
  placeField 0 op ||| placeField 2 (BitVec.ofBool dpx) ||| placeField 3 (BitVec.ofBool maskEn)
    ||| placeField 4 blend ||| placeField 8 srcFmt

/-- BLEND values (R95). -/
def BlendMode.code : BlendMode → BitVec 2
  | .normal => 0
  | .combine .additive => 1
  | .combine .subtractive => 2
  | .combine .multiply => 3

/-- The word of a supported image command (R92, R95, R96). -/
def encodeImage (fmt : SrcFmt) (mode : BlendMode) (dpx maskEn : Bool) : Word :=
  encodeFields 2 dpx maskEn mode.code fmt.code

/-- The aligned 32-bit access at an offset of the block (43_command_control.md R200, R201). -/
def encodeAccess (regBase offset : Nat) (dir : Direction) (v : Word) : Packet :=
  .access { addr := regBase + offset, width := 4, dir := dir, data := v }

/-- The words of an instruction: the command word, or the host access at REG_BASE + offset. -/
def encode (regBase : Nat) : Instr → Packet
  | .fill dpx maskEn blend srcFmt => .command (encodeFields 1 dpx maskEn blend srcFmt)
  | .imageRgb565Normal dpx maskEn => .command (encodeImage .rgb565 .normal dpx maskEn)
  | .imageRgb565Add dpx maskEn => .command (encodeImage .rgb565 (.combine .additive) dpx maskEn)
  | .imageRgb565Sub dpx maskEn => .command (encodeImage .rgb565 (.combine .subtractive) dpx maskEn)
  | .imageRgb565Mul dpx maskEn => .command (encodeImage .rgb565 (.combine .multiply) dpx maskEn)
  | .imageRgb888Normal dpx maskEn => .command (encodeImage .rgb888 .normal dpx maskEn)
  | .imageRgb888Add dpx maskEn => .command (encodeImage .rgb888 (.combine .additive) dpx maskEn)
  | .imageRgb888Sub dpx maskEn => .command (encodeImage .rgb888 (.combine .subtractive) dpx maskEn)
  | .imageRgb888Mul dpx maskEn => .command (encodeImage .rgb888 (.combine .multiply) dpx maskEn)
  | .imageXrgb8888Normal dpx maskEn => .command (encodeImage .xrgb8888 .normal dpx maskEn)
  | .imageXrgb8888Add dpx maskEn => .command (encodeImage .xrgb8888 (.combine .additive) dpx maskEn)
  | .imageXrgb8888Sub dpx maskEn => .command (encodeImage .xrgb8888 (.combine .subtractive) dpx maskEn)
  | .imageXrgb8888Mul dpx maskEn => .command (encodeImage .xrgb8888 (.combine .multiply) dpx maskEn)
  | .imageArgb8888Normal dpx maskEn => .command (encodeImage .argb8888 .normal dpx maskEn)
  | .imageArgb8888Add dpx maskEn => .command (encodeImage .argb8888 (.combine .additive) dpx maskEn)
  | .imageArgb8888Sub dpx maskEn => .command (encodeImage .argb8888 (.combine .subtractive) dpx maskEn)
  | .imageArgb8888Mul dpx maskEn => .command (encodeImage .argb8888 (.combine .multiply) dpx maskEn)
  | .imageUnsupported dpx maskEn blend srcFmt => .command (encodeFields 2 dpx maskEn blend srcFmt)
  | .illegalOp0 dpx maskEn blend srcFmt => .command (encodeFields 0 dpx maskEn blend srcFmt)
  | .illegalOp3 dpx maskEn blend srcFmt => .command (encodeFields 3 dpx maskEn blend srcFmt)
  | .rdConfig => encodeAccess regBase 0x00 .read 0
  | .rdCtrl => encodeAccess regBase 0x04 .read 0
  | .rdStatus => encodeAccess regBase 0x08 .read 0
  | .rdCmd => encodeAccess regBase 0x0C .read 0
  | .rdDestAddr => encodeAccess regBase 0x10 .read 0
  | .rdDestSize => encodeAccess regBase 0x14 .read 0
  | .rdDestStride => encodeAccess regBase 0x18 .read 0
  | .rdColor => encodeAccess regBase 0x1C .read 0
  | .rdOpa => encodeAccess regBase 0x20 .read 0
  | .rdMaskAddr => encodeAccess regBase 0x24 .read 0
  | .rdMaskStride => encodeAccess regBase 0x28 .read 0
  | .rdSrcAddr => encodeAccess regBase 0x2C .read 0
  | .rdSrcStride => encodeAccess regBase 0x30 .read 0
  | .wrConfig v => encodeAccess regBase 0x00 .write v
  | .wrCtrl v => encodeAccess regBase 0x04 .write v
  | .wrStatus v => encodeAccess regBase 0x08 .write v
  | .wrCmd v => encodeAccess regBase 0x0C .write v
  | .wrDestAddr v => encodeAccess regBase 0x10 .write v
  | .wrDestSize v => encodeAccess regBase 0x14 .write v
  | .wrDestStride v => encodeAccess regBase 0x18 .write v
  | .wrColor v => encodeAccess regBase 0x1C .write v
  | .wrOpa v => encodeAccess regBase 0x20 .write v
  | .wrMaskAddr v => encodeAccess regBase 0x24 .write v
  | .wrMaskStride v => encodeAccess regBase 0x28 .write v
  | .wrSrcAddr v => encodeAccess regBase 0x2C .write v
  | .wrSrcStride v => encodeAccess regBase 0x30 .write v
  | .rdReserved offset => encodeAccess regBase offset.toNat .read 0
  | .wrReserved offset v => encodeAccess regBase offset.toNat .write v

/-! ## Words as the opcode table numbers them -/

/-- A register access as one number: the table numbers its data bits 31:0; above them this model puts the offset in
bits 39:32 and the direction in bit 40, 1 for a write (DESIGN CHOICE, assumption log 8). `regBase` places it. -/
def packetOfTableWord (regBase nbits w : Nat) : Packet :=
  if nbits ≤ 32 then .command (BitVec.ofNat 32 w)
  else .access
    { addr := regBase + w / 2 ^ 32 % 2 ^ 8
      width := 4
      dir := if w / 2 ^ 40 % 2 = 1 then .write else .read
      data := BitVec.ofNat 32 w }

/-- The instruction the decoder reads from a word of the opcode table: up to 32 bits it is a command word (30_encoding.md
R90), longer it is a register access (`packetOfTableWord`). -/
def decodeTableWord (nbits w : Nat) : Option Instr :=
  match decode 0 (packetOfTableWord 0 nbits w) with
  | .ok i => some i
  | .error _ => none

end Sys2Proof
end

