-- ==== Sys2Proof/Machine/State.lean ====
section
/-! DEFINITION. The state of the machine as plain data (spec 10_state.md), the reasons a step can stop, and the state
right after reset (R41). -/

namespace Sys2Proof.Machine

/-- Memory (20_memory.md R60): address and byte pairs, addresses strictly rising, no pair equal to what an unlisted
address reads as (`Memory.wf` in Ops). -/
abbrev Memory := List Host.Cell

/-- The four error codes of STATUS.ERR (60_exceptions.md R220): values 4 to 15 are never produced, so they have no
constructor. -/
inductive ErrCode
  | ok
  | unsupportedFormat
  | illegalOp
  | busError
  deriving DecidableEq, Repr

/-- The ten registers a command latches (R37), each with its bits at the positions of R26 to R35. -/
structure Descriptor where
  cmd : Word
  destAddr : Word
  destSize : Word
  destStride : Word
  color : Word
  opa : Word
  maskAddr : Word
  maskStride : Word
  srcAddr : Word
  srcStride : Word
  deriving DecidableEq, Repr

/-- All ten registers 0: their value after reset (R41). -/
def Descriptor.zero : Descriptor := ⟨0, 0, 0, 0, 0, 0, 0, 0, 0, 0⟩

/-- The names of the ten registers. -/
inductive DescReg
  | cmd
  | destAddr
  | destSize
  | destStride
  | color
  | opa
  | maskAddr
  | maskStride
  | srcAddr
  | srcStride
  deriving DecidableEq, Repr

/-- A running command: M0, the memory at acceptance (20_memory.md R77); WS, its write set (43_command_control.md
R204); and the pairs of WS still to be written, its position (10_state.md R39). -/
structure Job where
  m0 : Memory
  ws : List Host.Cell
  pending : List Host.Cell
  deriving DecidableEq, Repr

/-- IDLE or RUNNING (R38). -/
inductive Phase
  | idle
  | running (job : Job)
  deriving DecidableEq, Repr

/-- What happens next outside the engine's own arithmetic: the host's and the platform's actions, and which of the
engine's possible steps is taken. An event carries the free values of spec/93 section 2 as data (assumption log 5). -/
inductive Event
  /-- The host accesses the register block (43_command_control.md R200, R201). -/
  | reg (a : Access)
  /-- The host reads a byte of memory; `sawFinal` says which of the two values R81 admits a racing read returns. -/
  | load (addr : Nat) (sawFinal : Bool)
  /-- The host writes a byte of memory (20_memory.md R80). -/
  | store (addr : Nat) (v : Byte)
  /-- The engine takes a step; `pick` says which pending pair it writes (43_command_control.md R204: any order). -/
  | engine (pick : Nat)
  /-- The memory answers the engine's next access with an error (60_exceptions.md R223). -/
  | busError
  /-- The platform resets the engine; `latched` is what L holds afterwards, which is unspecified (70 R240). -/
  | reset (latched : Descriptor)
  deriving DecidableEq, Repr

/-- The state. -/
structure State where
  /-- The parameters and CONFIG (R23), never changed. -/
  cfg : Config
  /-- CTRL.IRQ_EN (R24). -/
  irqEn : Bool
  /-- STATUS.DONE (R25). -/
  done : Bool
  /-- STATUS.ERR (R25). STATUS.BUSY is the phase (R38). -/
  err : ErrCode
  /-- The registers CMD to SRC_STRIDE (R26 to R35). -/
  desc : Descriptor
  /-- L, the latched descriptor (R37). -/
  latched : Descriptor
  /-- The phase and the running command (R38, R39). -/
  phase : Phase
  /-- Memory (20_memory.md R60). -/
  mem : Memory
  /-- What the host's last read returned: the model's own field (assumption log 6). -/
  hostData : Word
  /-- What happens next, oldest first: the model's own field (assumption log 5). -/
  agenda : List Event
  deriving DecidableEq, Repr

/-- A fault: the one access the spec gives no place to go. -/
inductive Fault
  /-- A host load or store at an address of 2^ADDR_W or above, where the memory of 20_memory.md R60 has no byte. Raised
  by hostLoad and hostStore. Safe: the model stops. -/
  | noSuchAddress
  deriving DecidableEq, Repr

/-- A refusal: the model gives the case no meaning. All of them are safe: the model stops. -/
inductive Refusal
  /-- An instruction whose meaning is not written yet. Raised by exec alone. -/
  | notModelled (mnemonic : String)
  /-- The accepted command violates NOWRAP (20_memory.md R69). Raised by acceptance. -/
  | noWrap
  /-- The accepted command violates ROWS (20_memory.md R70). Raised by acceptance. -/
  | rows
  /-- The accepted command violates DISJOINT (20_memory.md R71). Raised by acceptance. -/
  | disjoint
  /-- The accepted command violates MEMORY (20_memory.md R72). Raised by acceptance. -/
  | memory
  /-- The host writes a footprint byte of the running command (20_memory.md R80). Raised by hostStore. -/
  | footprintWritten
  /-- A register access that is not 32 bits wide (20_memory.md R86). Raised by decoding. -/
  | registerWidth
  /-- A register access at an offset that is no multiple of 4 (20_memory.md R86). Raised by decoding. -/
  | registerAlignment
  /-- An access that does not reach the register block (00_scope.md R11). Raised by decoding. -/
  | outsideBlock
  /-- A host load or store of an address that is no ordinary memory (20_memory.md R72): what a device does there is
  not in the spec. Raised by hostLoad and hostStore. -/
  | hostAccessNotMemory
  deriving DecidableEq, Repr

/-- The machine right after reset (R41): every register 0, IDLE, memory with nothing listed, and the reference
configuration. L is unspecified: zero here (assumption log 4). -/
def State.reset : State where
  cfg := Config.reference
  irqEn := false
  done := false
  err := .ok
  desc := Descriptor.zero
  latched := Descriptor.zero
  phase := .idle
  mem := []
  hostData := 0
  agenda := []

end Sys2Proof.Machine
end

