-- ==== Sys2Proof/Machine/Ops.lean ====
section
/-! DEFINITION. The named operations over memory, registers and the command state, and the end of a command: the shared
operation `State.terminate` (60_exceptions.md R226), which is this hardware's one exception entry, and the return from
it, `State.clearDone` (43_command_control.md R207, 60_exceptions.md R230). -/

namespace Sys2Proof

/-- The number of bytes of the port's address space (20_memory.md R60). -/
def Config.space (c : Config) : Nat := 2 ^ c.addrW

/-- An address as the port issues it: `a mod 2^ADDR_W` (00_scope.md R16). -/
def Config.port (c : Config) (a : Nat) : Nat := a % c.space

/-- The address is ordinary memory: no device of the platform's map and no byte of the engine's own register block
(20_memory.md R72, assumption log 9). -/
def Config.ordinary (c : Config) (a : Nat) : Bool :=
  !(Region.holds ⟨c.regBase, blockSize⟩ a) && c.devices.all (fun r => !(r.holds a))

/-- Bits ADDR_W-1:0 (10_state.md R27, R32, R34). -/
def Config.addrMask (c : Config) : Word := BitVec.ofNat 32 (c.space - 1)

end Sys2Proof

namespace Sys2Proof.Machine

/-! ## Memory -/

/-- What an address that memory does not list reads as: DESIGN CHOICE, the spec gives memory no contents after
power-on (assumption log 3). -/
def unlistedByte : Byte := 0

/-- The byte at an address. -/
def Memory.read : Memory → Nat → Byte
  | [], _ => unlistedByte
  | (b, v) :: m, a => if a = b then v else Memory.read m a

/-- Put `(a, v)` at its place in a rising list, or take `a` out where `v` is what an unlisted address reads as. -/
def Memory.write : Memory → Nat → Byte → Memory
  | [], a, v => if v = unlistedByte then [] else [(a, v)]
  | (b, u) :: m, a, v =>
    if a < b then (if v = unlistedByte then (b, u) :: m else (a, v) :: (b, u) :: m)
    else if a = b then (if v = unlistedByte then m else (a, v) :: m)
    else (b, u) :: Memory.write m a v

/-- The addresses of a rising list exceed `lo`, and no entry is what an unlisted address reads as. -/
def Memory.wfFrom : Option Nat → Memory → Bool
  | _, [] => true
  | lo, (b, v) :: m =>
    (match lo with
      | none => true
      | some k => decide (k < b))
    && decide (v ≠ unlistedByte) && Memory.wfFrom (some b) m

/-- The canonical form: addresses strictly rising, no entry equal to what an unlisted address reads as. -/
def Memory.wf (m : Memory) : Bool := Memory.wfFrom none m

/-- MemRead8 (00_scope.md R16). -/
def memRead8 (c : Config) (m : Memory) (a : Nat) : Byte := m.read (c.port a)

/-! ## The descriptor registers -/

/-- The register of a name. -/
def Descriptor.get (d : Descriptor) : DescReg → Word
  | .cmd => d.cmd
  | .destAddr => d.destAddr
  | .destSize => d.destSize
  | .destStride => d.destStride
  | .color => d.color
  | .opa => d.opa
  | .maskAddr => d.maskAddr
  | .maskStride => d.maskStride
  | .srcAddr => d.srcAddr
  | .srcStride => d.srcStride

/-- The registers with one of them replaced. -/
def Descriptor.set (d : Descriptor) (r : DescReg) (v : Word) : Descriptor :=
  match r with
  | .cmd => { d with cmd := v }
  | .destAddr => { d with destAddr := v }
  | .destSize => { d with destSize := v }
  | .destStride => { d with destStride := v }
  | .color => { d with color := v }
  | .opa => { d with opa := v }
  | .maskAddr => { d with maskAddr := v }
  | .maskStride => { d with maskStride := v }
  | .srcAddr => { d with srcAddr := v }
  | .srcStride => { d with srcStride := v }

/-- The bits of a register that are fields; the others are reserved (10_state.md R22, R26 to R35). -/
def DescReg.fieldMask (c : Config) : DescReg → Word
  | .cmd => cmdFieldMask
  | .destAddr => c.addrMask
  | .destSize => 0xFFFFFFFF
  | .destStride => 0x0000FFFF
  | .color => 0x00FFFFFF
  | .opa => 0x000000FF
  | .maskAddr => c.addrMask
  | .maskStride => 0x0000FFFF
  | .srcAddr => c.addrMask
  | .srcStride => 0x0000FFFF

/-! ## Updates of the state -/

/-- Store the field bits of `v` in a register and drop the reserved bits (43_command_control.md R200). -/
def State.setReg (s : State) (r : DescReg) (v : Word) : State :=
  { s with desc := s.desc.set r (v &&& r.fieldMask s.cfg) }

/-- The register's fields at their positions, reserved bits 0 (43_command_control.md R201). -/
def State.readReg (s : State) (r : DescReg) : Word := s.desc.get r &&& r.fieldMask s.cfg

/-- The value a host read returns. -/
def State.setHostData (s : State) (v : Word) : State := { s with hostData := v }

/-- CTRL.IRQ_EN (43_command_control.md R202). -/
def State.setIrqEn (s : State) (b : Bool) : State := { s with irqEn := b }

/-- STATUS.DONE cleared (43_command_control.md R207). -/
def State.clearDone (s : State) : State := { s with done := false }

/-- The latch of an acceptance: L is a copy of the registers with `w` as its command word, and DONE and ERR are 0
(43_command_control.md R202). -/
def State.latch (s : State) (w : Word) : State :=
  { s with latched := { s.desc with cmd := w }, done := false, err := .ok }

/-- RUNNING, with the write set `ws` computed from the memory now (43_command_control.md R202). -/
def State.begin (s : State) (ws : List Host.Cell) : State :=
  { s with phase := .running { m0 := s.mem, ws := ws, pending := ws } }

/-- terminate(code) (60_exceptions.md R226): IDLE, so BUSY 0; ERR the code; DONE 1; nothing else. -/
def State.terminate (s : State) (code : ErrCode) : State :=
  { s with phase := .idle, err := code, done := true }

/-- One byte write of the running command: MemWrite8 (00_scope.md R16) of one pair, which is pending no more. -/
def State.commit (s : State) (job : Job) (cell : Host.Cell) (rest : List Host.Cell) : State :=
  { s with
    mem := s.mem.write (s.cfg.port cell.1) cell.2
    phase := .running { job with pending := rest } }

/-- A byte written by the host. -/
def State.storeByte (s : State) (a : Nat) (v : Byte) : State := { s with mem := s.mem.write a v }

/-- Reset (70_reset_and_hazards.md R240 to R242): every register as R41 gives it, IDLE, L as the event says (it is
unspecified), memory and the parameters as they were. A running command is abandoned. What the host read last and
what happens next are not the engine's. -/
def State.platformReset (s : State) (latched : Descriptor) : State :=
  { s with
    irqEn := false
    done := false
    err := .ok
    desc := Descriptor.zero
    latched := latched
    phase := .idle }

/-- The rest of the agenda. -/
def State.setAgenda (s : State) (es : List Event) : State := { s with agenda := es }

end Sys2Proof.Machine
end

