-- ==== Sys2Proof/Machine/Datapath.lean ====
section
/-! DEFINITION. The pure functions of spec 40_datapath.md: the rgb_channel_mixer, the RGB565 expansion, the
blend_mode_combinator, the coverage regimes and the effective weights. All arithmetic is on naturals (00_scope.md R15)
and is narrowed to 8 bits at its end. -/

namespace Sys2Proof.Machine

/-- A colour: the values of pixel bytes 0, 1 and 2 (00_scope.md R17). -/
structure Triple where
  c0 : Byte
  c1 : Byte
  c2 : Byte
  deriving DecidableEq, Repr

/-- An operation on each of the three channels (R17). -/
def Triple.zipWith (f : Byte → Byte → Byte) (s d : Triple) : Triple :=
  ⟨f s.c0 d.c0, f s.c1 d.c1, f s.c2 d.c2⟩

/-- A weight or an opacity counts as fully opaque (R120, FULL of R131). -/
def full (c : Config) (w : Byte) : Bool := decide (c.opaMax.toNat ≤ w.toNat)

/-- One channel of a partial mix (R120): `(s*w + d*(255-w)) >> 8`. -/
def mixChannel (w s d : Byte) : Byte :=
  BitVec.ofNat 8 ((s.toNat * w.toNat + d.toNat * (255 - w.toNat)) >>> 8)

/-- MIX3 (R120). -/
def mix3 (c : Config) (s d : Triple) (w : Byte) : Triple :=
  if w = 0 then d
  else if full c w then s
  else Triple.zipWith (mixChannel w) s d

/-- E5 (R123). -/
def e5 (v : BitVec 5) : Byte := BitVec.ofNat 8 ((v.toNat * 2106) >>> 8)

/-- E6 (R124). -/
def e6 (v : BitVec 6) : Byte := BitVec.ofNat 8 ((v.toNat * 1037) >>> 8)

/-- EXPAND565 (R125). -/
def expand565 (v : BitVec 16) : Triple :=
  ⟨e5 (v.extractLsb' 0 5), e6 (v.extractLsb' 5 6), e5 (v.extractLsb' 11 5)⟩

/-- COMB on one channel, destination first (R126 to R128). -/
def comb (k : Combine) (d s : Byte) : Byte :=
  match k with
  | .additive => BitVec.ofNat 8 (min (d.toNat + s.toNat) 255)
  | .subtractive => BitVec.ofNat 8 (d.toNat - s.toNat)
  | .multiply => BitVec.ofNat 8 ((d.toNat * s.toNat) >>> 8)

/-- NONNORMAL (R129): the combined colour mixed against the original destination. -/
def nonnormal (c : Config) (k : Combine) (d s : Triple) (w : Byte) : Triple :=
  mix3 c (Triple.zipWith (comb k) d s) d w

/-- Channel pairing (R130): with NONNORMAL_SWAP = 1 an RGB888 or XRGB8888 source is passed reversed. -/
def pairChannels (c : Config) (fmt : SrcFmt) (s : Triple) : Triple :=
  match fmt with
  | .rgb565 => s
  | .rgb888 => if c.nonnormalSwap then ⟨s.c2, s.c1, s.c0⟩ else s
  | .xrgb8888 => if c.nonnormalSwap then ⟨s.c2, s.c1, s.c0⟩ else s
  | .argb8888 => s

/-- The four coverage regimes (R131). -/
inductive Regime
  | nmFull
  | nmPart
  | mFull
  | mPart
  deriving DecidableEq, Repr

/-- REGIME (R131). -/
def regimeOf (maskEn isFull : Bool) : Regime :=
  match maskEn, isFull with
  | false, true => .nmFull
  | false, false => .nmPart
  | true, true => .mFull
  | true, false => .mPart

/-- `(a * b) >> 8`, one floor of the product (R132 to R134). -/
def scale (a b : Byte) : Byte := BitVec.ofNat 8 ((a.toNat * b.toNat) >>> 8)

/-- W_RGB (R132). -/
def wRgb (r : Regime) (opa m : Byte) : Byte :=
  match r with
  | .nmFull => 255
  | .nmPart => opa
  | .mFull => m
  | .mPart => scale opa m

/-- W_ARGB (R133): the M_PART weight is one floor of the triple product. -/
def wArgb (r : Regime) (a opa m : Byte) : Byte :=
  match r with
  | .nmFull => a
  | .nmPart => scale a opa
  | .mFull => scale a m
  | .mPart => BitVec.ofNat 8 ((a.toNat * m.toNat * opa.toNat) >>> 16)

/-- W_NN (R134): whatever FULL(opa) is. -/
def wNn (maskEn : Bool) (opa m : Byte) : Byte :=
  if maskEn then scale opa m else opa

end Sys2Proof.Machine
end

