-- ==== Sys2Proof/Machine/Operands.lean ====
section
/-! DEFINITION. The operands of a command, assembled from the latched descriptor (30_encoding.md R100); pixel addresses
and footprints (20_memory.md R65 to R68); the preconditions on buffers (R69 to R72); and what is read at a pixel:
destination triple, source triple and alpha (42_image.md R172, 30_encoding.md R101 to R104), mask value (R105). -/

namespace Sys2Proof.Machine

/-! ## Scalar operands (R100) -/

/-- P (30_encoding.md R93). -/
def Descriptor.pixelSize (l : Descriptor) : Nat := if cmdDpx l.cmd then 4 else 3

/-- MASK_EN (30_encoding.md R94). -/
def Descriptor.maskEn (l : Descriptor) : Bool := cmdMaskEn l.cmd

/-- W. -/
def Descriptor.width (l : Descriptor) : Nat := (l.destSize.extractLsb' 0 16).toNat

/-- H. -/
def Descriptor.height (l : Descriptor) : Nat := (l.destSize.extractLsb' 16 16).toNat

/-- DS, in destination pixels. -/
def Descriptor.destStep (l : Descriptor) : Nat := (l.destStride.extractLsb' 0 16).toNat

/-- SS, in source pixels. -/
def Descriptor.srcStep (l : Descriptor) : Nat := (l.srcStride.extractLsb' 0 16).toNat

/-- MS, in mask values, which are bytes. -/
def Descriptor.maskStep (l : Descriptor) : Nat := (l.maskStride.extractLsb' 0 16).toNat

/-- opa. -/
def Descriptor.opacity (l : Descriptor) : Byte := l.opa.extractLsb' 0 8

/-- col (10_state.md R30). -/
def Descriptor.colour (l : Descriptor) : Triple :=
  ⟨l.color.extractLsb' 0 8, l.color.extractLsb' 8 8, l.color.extractLsb' 16 8⟩

/-- A base address: bits ADDR_W-1:0 of its register. -/
def baseAddress (c : Config) (w : Word) : Nat := c.port w.toNat

/-- Q (30_encoding.md R96). -/
def srcPixelSize : SrcFmt → Nat
  | .rgb565 => 2
  | .rgb888 => 3
  | .xrgb8888 => 4
  | .argb8888 => 4

/-- The source encoding of an image command, none for a fill, which has no source buffer (20_memory.md R61). -/
def Descriptor.source (l : Descriptor) : Option SrcFmt :=
  if cmdOp l.cmd = 2 then SrcFmt.ofCode (cmdSrcFmt l.cmd) else none

/-- The coverage regime of the command (40_datapath.md R131). -/
def Descriptor.regime (c : Config) (l : Descriptor) : Regime := regimeOf l.maskEn (full c l.opacity)

/-! ## Addresses (20_memory.md R65 to R67) -/

/-- DA(x, y). -/
def destAddress (c : Config) (l : Descriptor) (x y : Nat) : Nat :=
  c.port (baseAddress c l.destAddr + (y * l.destStep + x) * l.pixelSize)

/-- SA(x, y), for source pixels of `q` bytes. -/
def srcAddress (c : Config) (l : Descriptor) (q x y : Nat) : Nat :=
  c.port (baseAddress c l.srcAddr + (y * l.srcStep + x) * q)

/-- MA(x, y). -/
def maskAddress (c : Config) (l : Descriptor) (x y : Nat) : Nat :=
  c.port (baseAddress c l.maskAddr + y * l.maskStep + x)

/-! ## Footprints (20_memory.md R68) -/

/-- For every pixel of the region, row by row (43_command_control.md R210: the row-major loop nest). -/
def overRegion {α : Type} (l : Descriptor) (f : Nat → Nat → List α) : List α :=
  (List.range l.height).flatMap fun y => (List.range l.width).flatMap fun x => f x y

/-- DestFP. -/
def destFootprint (c : Config) (l : Descriptor) : List Nat :=
  overRegion l fun x y => (List.range l.pixelSize).map fun k => c.port (destAddress c l x y + k)

/-- SrcFP. -/
def srcFootprint (c : Config) (l : Descriptor) : List Nat :=
  match l.source with
  | none => []
  | some fmt =>
    overRegion l fun x y =>
      (List.range (srcPixelSize fmt)).map fun k => c.port (srcAddress c l (srcPixelSize fmt) x y + k)

/-- MaskFP. -/
def maskFootprint (c : Config) (l : Descriptor) : List Nat :=
  if l.maskEn then overRegion l fun x y => [maskAddress c l x y] else []

/-! ## Preconditions (20_memory.md R69 to R72) -/

/-- The unreduced address of the last byte of a buffer (R69). -/
def lastByte (l : Descriptor) (base stride size : Nat) : Nat :=
  base + ((l.height - 1) * stride + (l.width - 1)) * size + (size - 1)

/-- The unreduced last bytes of the buffers the command has. -/
def lastBytes (c : Config) (l : Descriptor) : List Nat :=
  [lastByte l (baseAddress c l.destAddr) l.destStep l.pixelSize]
    ++ (match l.source with
      | none => []
      | some fmt => [lastByte l (baseAddress c l.srcAddr) l.srcStep (srcPixelSize fmt)])
    ++ (if l.maskEn then [lastByte l (baseAddress c l.maskAddr) l.maskStep 1] else [])

/-- NOWRAP (R69); an empty region has no footprint that could wrap (R68, assumption log 10). -/
def noWrapOk (c : Config) (l : Descriptor) : Bool :=
  decide (l.width = 0) || decide (l.height = 0) || (lastBytes c l).all fun a => decide (a < c.space)

/-- ROWS (R70). -/
def rowsOk (l : Descriptor) : Bool := decide (l.height < 2) || decide (l.width ≤ l.destStep)

/-- DISJOINT (R71). -/
def disjointOk (c : Config) (l : Descriptor) : Bool :=
  (destFootprint c l).all fun a => !(srcFootprint c l).contains a && !(maskFootprint c l).contains a

/-- MEMORY (R72). -/
def memoryOk (c : Config) (l : Descriptor) : Bool :=
  (destFootprint c l ++ srcFootprint c l ++ maskFootprint c l).all c.ordinary

/-- The first precondition the command violates, by name (60_exceptions.md R224; the order among them is the model's,
assumption log 10). -/
def violation (c : Config) (l : Descriptor) : Option Refusal :=
  if !noWrapOk c l then some .noWrap
  else if !rowsOk l then some .rows
  else if !disjointOk c l then some .disjoint
  else if !memoryOk c l then some .memory
  else none

/-! ## What is read at a pixel -/

/-- DestPx(x, y) from M0 (00_scope.md R16, 20_memory.md R77). -/
def destPixel (c : Config) (l : Descriptor) (m0 : Memory) (x y : Nat) : Triple :=
  let a := destAddress c l x y
  ⟨memRead8 c m0 a, memRead8 c m0 (a + 1), memRead8 c m0 (a + 2)⟩

/-- The three bytes at a source address (30_encoding.md R102 to R104). -/
def srcTriple (c : Config) (m0 : Memory) (a : Nat) : Triple :=
  ⟨memRead8 c m0 a, memRead8 c m0 (a + 1), memRead8 c m0 (a + 2)⟩

/-- The source colour of SRCPX (42_image.md R172); RGB565 is read little-endian (30_encoding.md R101). -/
def srcColour (c : Config) (l : Descriptor) (m0 : Memory) (fmt : SrcFmt) (x y : Nat) : Triple :=
  let a := srcAddress c l (srcPixelSize fmt) x y
  match fmt with
  | .rgb565 => expand565 (memRead8 c m0 (a + 1) ++ memRead8 c m0 a)
  | .rgb888 => srcTriple c m0 a
  | .xrgb8888 => srcTriple c m0 a
  | .argb8888 => srcTriple c m0 a

/-- The alpha of an ARGB8888 source pixel (30_encoding.md R104, 42_image.md R172). -/
def srcAlpha (c : Config) (l : Descriptor) (m0 : Memory) (x y : Nat) : Byte :=
  memRead8 c m0 (srcAddress c l (srcPixelSize .argb8888) x y + 3)

/-- The mask value of a pixel, 0 where no mask is present (41_fill.md R150, 42_image.md R171). -/
def maskValue (c : Config) (l : Descriptor) (m0 : Memory) (x y : Nat) : Byte :=
  if l.maskEn then memRead8 c m0 (maskAddress c l x y) else 0

end Sys2Proof.Machine
end

