-- ==== Sys2Proof/Machine/Command.lean ====
section
/-! DEFINITION. The shared operations of every command: acceptance (43_command_control.md R202, R203), the two ways an
acceptance goes on, and the engine's steps while RUNNING (R204 to R206, 60_exceptions.md R223). -/

namespace Sys2Proof.Machine

/-- A START of the command word `w` (R202): while RUNNING it is dropped (R203); while IDLE the descriptor is latched,
DONE and ERR are cleared, and `body` is what the command does in the same step. -/
def accept (w : Word) (s : State) (body : State → Host.Outcome State Fault Refusal) :
    Host.Outcome State Fault Refusal :=
  match s.phase with
  | .running _ => .next s
  | .idle => body (s.latch w)

/-- The acceptance of a command that ends at once with an error (R202, 60_exceptions.md R221, R222): no precondition is
looked at and no memory is accessed. -/
def rejectWith (code : ErrCode) (s : State) : Host.Outcome State Fault Refusal :=
  .next (s.terminate code)

/-- The acceptance of a command that runs (R202): M0 is the memory now, the write set is computed from L and M0, a
violated precondition is refused, and the phase becomes RUNNING. -/
def launch (writeSet : Config → Descriptor → Memory → List Host.Cell) (s : State) :
    Host.Outcome State Fault Refusal :=
  match violation s.cfg s.latched with
  | some r => .refused r
  | none => .next (s.begin (writeSet s.cfg s.latched s.mem))

/-- The three byte writes of a mixed pixel: none where the weight is 0 (40_datapath.md R136). -/
def mixedPixel (c : Config) (a : Nat) (w : Byte) (r : Triple) : List Host.Cell :=
  if w = 0 then [] else [(c.port a, r.c0), (c.port (a + 1), r.c1), (c.port (a + 2), r.c2)]

/-- One step of the engine (R204, R206): nothing while IDLE; while RUNNING it writes one pending pair, which one being
`pick` reduced to the number of them, and ends the command with OK when none is left. -/
def engineStep (pick : Nat) (s : State) : State :=
  match s.phase with
  | .idle => s
  | .running job =>
    match job.pending[pick % job.pending.length]? with
    | none => s.terminate .ok
    | some cell => s.commit job cell (job.pending.eraseIdx (pick % job.pending.length))

/-- A fill that mixes nothing: without a mask, at opacity 0, partial. Its weight is 0 at every pixel, and 41_fill.md R150
reads a destination pixel and writes it only where the weight is not 0. -/
def fillsNothing (c : Config) (l : Descriptor) : Bool :=
  decide (cmdOp l.cmd = 1) && decide (l.regime c = .nmPart) && decide (l.opacity = 0)

/-- The command makes accesses that the memory can answer with an error: its region is not empty (20_memory.md R68) and
it is no fill that mixes nothing. Every other command reads its mask or its source or writes at every pixel (41_fill.md
R150, 42_image.md R171). Every moment of RUNNING counts, so that every subset of the write set is admitted (assumption
log 11). -/
def makesAccesses (c : Config) (l : Descriptor) : Bool :=
  decide (l.width ≠ 0) && decide (l.height ≠ 0) && !fillsNothing c l

/-- The memory answers an access with an error (60_exceptions.md R223): the command ends with BUS_ERROR and what was
written stays. Where BUS_ERR_POSSIBLE is false, or the command makes no access, it cannot happen and changes nothing. -/
def busErrorStep (s : State) : State :=
  match s.phase with
  | .idle => s
  | .running _ => if s.cfg.busErrPossible && makesAccesses s.cfg s.latched then s.terminate .busError else s

end Sys2Proof.Machine
end

