-- ==== Sys2Proof/Machine/Fill.lean ====
section
/-! DEFINITION. BLEND_FILL (spec 41_fill.md). -/

namespace Sys2Proof.Machine

/-- The pixel of the unmasked full-opacity fill (R151): the colour, and FILL_PAD in byte 3 of a 4-byte pixel. -/
def fillOverwrite (c : Config) (l : Descriptor) (a : Nat) : List Host.Cell :=
  [(c.port a, l.colour.c0), (c.port (a + 1), l.colour.c1), (c.port (a + 2), l.colour.c2)]
    ++ (if l.pixelSize = 4 then [(c.port (a + 3), c.fillPad)] else [])

/-- What the fill writes at a pixel (R150 to R154). -/
def fillPixel (c : Config) (l : Descriptor) (m0 : Memory) (x y : Nat) : List Host.Cell :=
  let a := destAddress c l x y
  let mixed :=
    let w := wRgb (l.regime c) l.opacity (maskValue c l m0 x y)
    mixedPixel c a w (mix3 c l.colour (destPixel c l m0 x y) w)
  match l.regime c with
  | .nmFull => fillOverwrite c l a
  | .nmPart => mixed
  | .mFull => mixed
  | .mPart => mixed

/-- The write set of a fill (R150, 43_command_control.md R204). -/
def fillWriteSet (c : Config) (l : Descriptor) (m0 : Memory) : List Host.Cell :=
  overRegion l (fillPixel c l m0)

/-- FILL (R150): BLEND and SRC_FMT are latched with the word and ignored (30_encoding.md R99). -/
def execFill (dpx maskEn : Bool) (blend : BitVec 2) (srcFmt : Byte) (s : State) : Host.Outcome State Fault Refusal :=
  accept (encodeFields 1 dpx maskEn blend srcFmt) s (launch fillWriteSet)

end Sys2Proof.Machine
end

