-- ==== Sys2Proof/Machine/Illegal.lean ====
section
/-! DEFINITION. The illegal command words (spec 30_encoding.md R98, 60_exceptions.md R222). -/

namespace Sys2Proof.Machine

/-- ILLEGAL.OP0 (60_exceptions.md R222): ILLEGAL_OP at acceptance. -/
def execIllegalOp0 (dpx maskEn : Bool) (blend : BitVec 2) (srcFmt : Byte) (s : State) :
    Host.Outcome State Fault Refusal :=
  accept (encodeFields 0 dpx maskEn blend srcFmt) s (rejectWith .illegalOp)

/-- ILLEGAL.OP3 (60_exceptions.md R222): ILLEGAL_OP at acceptance. -/
def execIllegalOp3 (dpx maskEn : Bool) (blend : BitVec 2) (srcFmt : Byte) (s : State) :
    Host.Outcome State Fault Refusal :=
  accept (encodeFields 3 dpx maskEn blend srcFmt) s (rejectWith .illegalOp)

end Sys2Proof.Machine
end

