-- ==== Sys2Proof/Machine/Image.lean ====
section
/-! DEFINITION. BLEND_IMAGE (spec 42_image.md): the shared loop of R171, the copy paths, and one meaning per row. -/

namespace Sys2Proof.Machine

/-- The effective weight of a pixel (R171; 40_datapath.md R132 to R134). -/
def imageWeight (c : Config) (l : Descriptor) (m0 : Memory) (fmt : SrcFmt) (mode : BlendMode) (x y : Nat) : Byte :=
  let m := maskValue c l m0 x y
  let rgb :=
    match mode with
    | .normal => wRgb (l.regime c) l.opacity m
    | .combine _ => wNn l.maskEn l.opacity m
  match fmt with
  | .rgb565 => rgb
  | .rgb888 => rgb
  | .xrgb8888 => rgb
  | .argb8888 => wArgb (l.regime c) (srcAlpha c l m0 x y) l.opacity m

/-- The colour of a pixel at a weight (R171): the mix, or the combinator over the paired channels. -/
def imageColour (c : Config) (l : Descriptor) (m0 : Memory) (fmt : SrcFmt) (mode : BlendMode) (x y : Nat) (w : Byte) :
    Triple :=
  let s := srcColour c l m0 fmt x y
  let d := destPixel c l m0 x y
  match mode with
  | .normal => mix3 c s d w
  | .combine k => nonnormal c k d (pairChannels c fmt s) w

/-- What the general path writes at a pixel (R171). -/
def imagePixel (c : Config) (l : Descriptor) (m0 : Memory) (fmt : SrcFmt) (mode : BlendMode) (x y : Nat) :
    List Host.Cell :=
  let w := imageWeight c l m0 fmt mode x y
  mixedPixel c (destAddress c l x y) w (imageColour c l m0 fmt mode x y w)

/-- The per-pixel 3-channel copy (R183). -/
def copyPixel (c : Config) (l : Descriptor) (m0 : Memory) (q x y : Nat) : List Host.Cell :=
  (List.range 3).map fun k =>
    (c.port (destAddress c l x y + k), memRead8 c m0 (srcAddress c l q x y + k))

/-- The raw row copy (R184): `W * P` bytes from SA(0, y) to DA(0, y). -/
def copyRow (c : Config) (l : Descriptor) (m0 : Memory) (q y : Nat) : List Host.Cell :=
  (List.range (l.width * l.pixelSize)).map fun k =>
    (c.port (destAddress c l 0 y + k), memRead8 c m0 (srcAddress c l q 0 y + k))

/-- COPYPX over the region (R182): the raw row copy where the pixel sizes match, else the 3-channel copy. -/
def copyWriteSet (c : Config) (l : Descriptor) (m0 : Memory) (q : Nat) : List Host.Cell :=
  if q = l.pixelSize then (List.range l.height).flatMap fun y => copyRow c l m0 q y
  else overRegion l (copyPixel c l m0 q)

/-- The command takes the copy path (R171, R182): NORMAL mode, RGB888 or XRGB8888, regime NM_FULL. -/
def takesCopyPath (c : Config) (l : Descriptor) (fmt : SrcFmt) (mode : BlendMode) : Bool :=
  match mode, fmt with
  | .normal, .rgb888 => decide (l.regime c = .nmFull)
  | .normal, .xrgb8888 => decide (l.regime c = .nmFull)
  | .normal, .rgb565 => false
  | .normal, .argb8888 => false
  | .combine _, _ => false

/-- The write set of a supported image command (R171, 43_command_control.md R204). -/
def imageWriteSet (fmt : SrcFmt) (mode : BlendMode) (c : Config) (l : Descriptor) (m0 : Memory) : List Host.Cell :=
  if takesCopyPath c l fmt mode then copyWriteSet c l m0 (srcPixelSize fmt)
  else overRegion l (imagePixel c l m0 fmt mode)

/-- A supported image command: its word, its source encoding, its mode. -/
def runImage (fmt : SrcFmt) (mode : BlendMode) (dpx maskEn : Bool) (s : State) : Host.Outcome State Fault Refusal :=
  accept (encodeImage fmt mode dpx maskEn) s (launch (imageWriteSet fmt mode))

/-- IMAGE.RGB565.NORMAL (R173). -/
def execImageRgb565Normal (dpx maskEn : Bool) (s : State) : Host.Outcome State Fault Refusal :=
  runImage .rgb565 .normal dpx maskEn s

/-- IMAGE.RGB565.ADD (R174). -/
def execImageRgb565Add (dpx maskEn : Bool) (s : State) : Host.Outcome State Fault Refusal :=
  runImage .rgb565 (.combine .additive) dpx maskEn s

/-- IMAGE.RGB565.SUB (R174). -/
def execImageRgb565Sub (dpx maskEn : Bool) (s : State) : Host.Outcome State Fault Refusal :=
  runImage .rgb565 (.combine .subtractive) dpx maskEn s

/-- IMAGE.RGB565.MUL (R174). -/
def execImageRgb565Mul (dpx maskEn : Bool) (s : State) : Host.Outcome State Fault Refusal :=
  runImage .rgb565 (.combine .multiply) dpx maskEn s

/-- IMAGE.RGB888.NORMAL (R175). -/
def execImageRgb888Normal (dpx maskEn : Bool) (s : State) : Host.Outcome State Fault Refusal :=
  runImage .rgb888 .normal dpx maskEn s

/-- IMAGE.RGB888.ADD (R176). -/
def execImageRgb888Add (dpx maskEn : Bool) (s : State) : Host.Outcome State Fault Refusal :=
  runImage .rgb888 (.combine .additive) dpx maskEn s

/-- IMAGE.RGB888.SUB (R176). -/
def execImageRgb888Sub (dpx maskEn : Bool) (s : State) : Host.Outcome State Fault Refusal :=
  runImage .rgb888 (.combine .subtractive) dpx maskEn s

/-- IMAGE.RGB888.MUL (R176). -/
def execImageRgb888Mul (dpx maskEn : Bool) (s : State) : Host.Outcome State Fault Refusal :=
  runImage .rgb888 (.combine .multiply) dpx maskEn s

/-- IMAGE.XRGB8888.NORMAL (R177). -/
def execImageXrgb8888Normal (dpx maskEn : Bool) (s : State) : Host.Outcome State Fault Refusal :=
  runImage .xrgb8888 .normal dpx maskEn s

/-- IMAGE.XRGB8888.ADD (R178). -/
def execImageXrgb8888Add (dpx maskEn : Bool) (s : State) : Host.Outcome State Fault Refusal :=
  runImage .xrgb8888 (.combine .additive) dpx maskEn s

/-- IMAGE.XRGB8888.SUB (R178). -/
def execImageXrgb8888Sub (dpx maskEn : Bool) (s : State) : Host.Outcome State Fault Refusal :=
  runImage .xrgb8888 (.combine .subtractive) dpx maskEn s

/-- IMAGE.XRGB8888.MUL (R178). -/
def execImageXrgb8888Mul (dpx maskEn : Bool) (s : State) : Host.Outcome State Fault Refusal :=
  runImage .xrgb8888 (.combine .multiply) dpx maskEn s

/-- IMAGE.ARGB8888.NORMAL (R179). -/
def execImageArgb8888Normal (dpx maskEn : Bool) (s : State) : Host.Outcome State Fault Refusal :=
  runImage .argb8888 .normal dpx maskEn s

/-- IMAGE.ARGB8888.ADD (R180). -/
def execImageArgb8888Add (dpx maskEn : Bool) (s : State) : Host.Outcome State Fault Refusal :=
  runImage .argb8888 (.combine .additive) dpx maskEn s

/-- IMAGE.ARGB8888.SUB (R180). -/
def execImageArgb8888Sub (dpx maskEn : Bool) (s : State) : Host.Outcome State Fault Refusal :=
  runImage .argb8888 (.combine .subtractive) dpx maskEn s

/-- IMAGE.ARGB8888.MUL (R180). -/
def execImageArgb8888Mul (dpx maskEn : Bool) (s : State) : Host.Outcome State Fault Refusal :=
  runImage .argb8888 (.combine .multiply) dpx maskEn s

/-- IMAGE.UNSUPPORTED (R181): UNSUPPORTED_FORMAT at acceptance, before any precondition. -/
def execImageUnsupported (dpx maskEn : Bool) (blend : BitVec 2) (srcFmt : Byte) (s : State) :
    Host.Outcome State Fault Refusal :=
  accept (encodeFields 2 dpx maskEn blend srcFmt) s (rejectWith .unsupportedFormat)

end Sys2Proof.Machine
end

