-- ==== Sys2Proof/Machine/Control.lean ====
section
/-! DEFINITION. The CTRL write and the START it may carry (spec 43_command_control.md R202, R203). -/

namespace Sys2Proof.Machine

/-- The meaning of the row a command word matches (30_encoding.md R107), run on that word. -/
def runRow (r : CommandRow) (w : Word) (s : State) : Host.Outcome State Fault Refusal :=
  match r with
  | .fill => execFill (cmdDpx w) (cmdMaskEn w) (cmdBlend w) (cmdSrcFmt w) s
  | .imageRgb565Normal => execImageRgb565Normal (cmdDpx w) (cmdMaskEn w) s
  | .imageRgb565Add => execImageRgb565Add (cmdDpx w) (cmdMaskEn w) s
  | .imageRgb565Sub => execImageRgb565Sub (cmdDpx w) (cmdMaskEn w) s
  | .imageRgb565Mul => execImageRgb565Mul (cmdDpx w) (cmdMaskEn w) s
  | .imageRgb888Normal => execImageRgb888Normal (cmdDpx w) (cmdMaskEn w) s
  | .imageRgb888Add => execImageRgb888Add (cmdDpx w) (cmdMaskEn w) s
  | .imageRgb888Sub => execImageRgb888Sub (cmdDpx w) (cmdMaskEn w) s
  | .imageRgb888Mul => execImageRgb888Mul (cmdDpx w) (cmdMaskEn w) s
  | .imageXrgb8888Normal => execImageXrgb8888Normal (cmdDpx w) (cmdMaskEn w) s
  | .imageXrgb8888Add => execImageXrgb8888Add (cmdDpx w) (cmdMaskEn w) s
  | .imageXrgb8888Sub => execImageXrgb8888Sub (cmdDpx w) (cmdMaskEn w) s
  | .imageXrgb8888Mul => execImageXrgb8888Mul (cmdDpx w) (cmdMaskEn w) s
  | .imageArgb8888Normal => execImageArgb8888Normal (cmdDpx w) (cmdMaskEn w) s
  | .imageArgb8888Add => execImageArgb8888Add (cmdDpx w) (cmdMaskEn w) s
  | .imageArgb8888Sub => execImageArgb8888Sub (cmdDpx w) (cmdMaskEn w) s
  | .imageArgb8888Mul => execImageArgb8888Mul (cmdDpx w) (cmdMaskEn w) s
  | .imageUnsupported => execImageUnsupported (cmdDpx w) (cmdMaskEn w) (cmdBlend w) (cmdSrcFmt w) s
  | .illegalOp0 => execIllegalOp0 (cmdDpx w) (cmdMaskEn w) (cmdBlend w) (cmdSrcFmt w) s
  | .illegalOp3 => execIllegalOp3 (cmdDpx w) (cmdMaskEn w) (cmdBlend w) (cmdSrcFmt w) s

/-- START: the command in CMD (R202). -/
def start (s : State) : Host.Outcome State Fault Refusal := runRow (commandRow s.desc.cmd) s.desc.cmd s

/-- WR.CTRL (R202): bit 1 is stored in IRQ_EN; then bit 0, if 1, starts the command in CMD in the same step, which a
running engine drops (R203, `accept`). -/
def execWrCtrl (v : Word) (s : State) : Host.Outcome State Fault Refusal :=
  if v.getLsbD 0 then start (s.setIrqEn (v.getLsbD 1)) else .next (s.setIrqEn (v.getLsbD 1))

end Sys2Proof.Machine
end

