-- ==== Sys2Proof/Machine/Flags.lean ====
section
/-! DEFINITION. The status bits and the words CONFIG, CTRL and STATUS as the host reads them (10_state.md R23 to R25),
and the interrupt output (R36). -/

namespace Sys2Proof.Machine

/-- The value of STATUS.ERR (60_exceptions.md R220). -/
def ErrCode.code : ErrCode → BitVec 4
  | .ok => 0
  | .unsupportedFormat => 1
  | .illegalOp => 2
  | .busError => 3

/-- STATUS.BUSY (10_state.md R38): 1 exactly when the phase is RUNNING. -/
def State.busy (s : State) : Bool :=
  match s.phase with
  | .idle => false
  | .running _ => true

/-- CONFIG (10_state.md R23). -/
def State.configWord (s : State) : Word :=
  placeField 0 s.cfg.opaMax ||| placeField 8 s.cfg.fillPad ||| placeField 16 (BitVec.ofNat 6 s.cfg.addrW)
    ||| placeField 24 (BitVec.ofBool s.cfg.nonnormalSwap)

/-- CTRL (10_state.md R24): START reads 0. -/
def State.ctrlWord (s : State) : Word :=
  placeField 1 (BitVec.ofBool s.irqEn)

/-- STATUS (10_state.md R25). -/
def State.statusWord (s : State) : Word :=
  placeField 0 (BitVec.ofBool s.busy) ||| placeField 1 (BitVec.ofBool s.done) ||| placeField 4 s.err.code

/-- IRQ (10_state.md R36): DONE AND IRQ_EN, at every instant. -/
def State.irq (s : State) : Bool := s.done && s.irqEn

end Sys2Proof.Machine
end

