-- ==== Sys2Proof/Machine/Registers.lean ====
section
/-! DEFINITION. The host's register operations but the CTRL write (spec 43_command_control.md R200, R201, R207; the
registers of 10_state.md R21 to R35). -/

namespace Sys2Proof.Machine

/-- A read returns its value to the host and has no side effect (R201, 20_memory.md R87). -/
def returnToHost (s : State) (v : Word) : Host.Outcome State Fault Refusal := .next (s.setHostData v)

/-- RD.CONFIG (R201, 10_state.md R23). -/
def execRdConfig (s : State) : Host.Outcome State Fault Refusal := returnToHost s s.configWord

/-- RD.CTRL (R201, 10_state.md R24). -/
def execRdCtrl (s : State) : Host.Outcome State Fault Refusal := returnToHost s s.ctrlWord

/-- RD.STATUS (R201, 10_state.md R25). -/
def execRdStatus (s : State) : Host.Outcome State Fault Refusal := returnToHost s s.statusWord

/-- RD.CMD (R201, 10_state.md R26). -/
def execRdCmd (s : State) : Host.Outcome State Fault Refusal := returnToHost s (s.readReg .cmd)

/-- RD.DEST_ADDR (R201, 10_state.md R27). -/
def execRdDestAddr (s : State) : Host.Outcome State Fault Refusal := returnToHost s (s.readReg .destAddr)

/-- RD.DEST_SIZE (R201, 10_state.md R28). -/
def execRdDestSize (s : State) : Host.Outcome State Fault Refusal := returnToHost s (s.readReg .destSize)

/-- RD.DEST_STRIDE (R201, 10_state.md R29). -/
def execRdDestStride (s : State) : Host.Outcome State Fault Refusal := returnToHost s (s.readReg .destStride)

/-- RD.COLOR (R201, 10_state.md R30). -/
def execRdColor (s : State) : Host.Outcome State Fault Refusal := returnToHost s (s.readReg .color)

/-- RD.OPA (R201, 10_state.md R31). -/
def execRdOpa (s : State) : Host.Outcome State Fault Refusal := returnToHost s (s.readReg .opa)

/-- RD.MASK_ADDR (R201, 10_state.md R32). -/
def execRdMaskAddr (s : State) : Host.Outcome State Fault Refusal := returnToHost s (s.readReg .maskAddr)

/-- RD.MASK_STRIDE (R201, 10_state.md R33). -/
def execRdMaskStride (s : State) : Host.Outcome State Fault Refusal := returnToHost s (s.readReg .maskStride)

/-- RD.SRC_ADDR (R201, 10_state.md R34). -/
def execRdSrcAddr (s : State) : Host.Outcome State Fault Refusal := returnToHost s (s.readReg .srcAddr)

/-- RD.SRC_STRIDE (R201, 10_state.md R35). -/
def execRdSrcStride (s : State) : Host.Outcome State Fault Refusal := returnToHost s (s.readReg .srcStride)

/-- RD.RESERVED (10_state.md R21): every reserved offset reads 0. -/
def execRdReserved (_offset : Byte) (s : State) : Host.Outcome State Fault Refusal := returnToHost s 0

/-- WR.CONFIG (10_state.md R23): read-only, the write is ignored. -/
def execWrConfig (_v : Word) (s : State) : Host.Outcome State Fault Refusal := .next s

/-- WR.STATUS (R207): bit 1 of the value clears DONE, BUSY and ERR are read-only. -/
def execWrStatus (v : Word) (s : State) : Host.Outcome State Fault Refusal :=
  .next (if v.getLsbD 1 then s.clearDone else s)

/-- WR.CMD (R200, 10_state.md R26). -/
def execWrCmd (v : Word) (s : State) : Host.Outcome State Fault Refusal := .next (s.setReg .cmd v)

/-- WR.DEST_ADDR (R200, 10_state.md R27). -/
def execWrDestAddr (v : Word) (s : State) : Host.Outcome State Fault Refusal := .next (s.setReg .destAddr v)

/-- WR.DEST_SIZE (R200, 10_state.md R28). -/
def execWrDestSize (v : Word) (s : State) : Host.Outcome State Fault Refusal := .next (s.setReg .destSize v)

/-- WR.DEST_STRIDE (R200, 10_state.md R29). -/
def execWrDestStride (v : Word) (s : State) : Host.Outcome State Fault Refusal := .next (s.setReg .destStride v)

/-- WR.COLOR (R200, 10_state.md R30). -/
def execWrColor (v : Word) (s : State) : Host.Outcome State Fault Refusal := .next (s.setReg .color v)

/-- WR.OPA (R200, 10_state.md R31). -/
def execWrOpa (v : Word) (s : State) : Host.Outcome State Fault Refusal := .next (s.setReg .opa v)

/-- WR.MASK_ADDR (R200, 10_state.md R32). -/
def execWrMaskAddr (v : Word) (s : State) : Host.Outcome State Fault Refusal := .next (s.setReg .maskAddr v)

/-- WR.MASK_STRIDE (R200, 10_state.md R33). -/
def execWrMaskStride (v : Word) (s : State) : Host.Outcome State Fault Refusal := .next (s.setReg .maskStride v)

/-- WR.SRC_ADDR (R200, 10_state.md R34). -/
def execWrSrcAddr (v : Word) (s : State) : Host.Outcome State Fault Refusal := .next (s.setReg .srcAddr v)

/-- WR.SRC_STRIDE (R200, 10_state.md R35). -/
def execWrSrcStride (v : Word) (s : State) : Host.Outcome State Fault Refusal := .next (s.setReg .srcStride v)

/-- WR.RESERVED (10_state.md R21): no effect. -/
def execWrReserved (_offset : Byte) (_v : Word) (s : State) : Host.Outcome State Fault Refusal := .next s

end Sys2Proof.Machine
end

