-- ==== Sys2Proof/Machine/Dispatch.lean ====
section
/-! DEFINITION. One arm per instruction. -/

namespace Sys2Proof.Machine

def exec (i : Instr) (s : State) : Host.Outcome State Fault Refusal :=
  match i with
  | .fill dpx maskEn blend srcFmt => Sys2Proof.Machine.execFill dpx maskEn blend srcFmt s
  | .imageRgb565Normal dpx maskEn => Sys2Proof.Machine.execImageRgb565Normal dpx maskEn s
  | .imageRgb565Add dpx maskEn => Sys2Proof.Machine.execImageRgb565Add dpx maskEn s
  | .imageRgb565Sub dpx maskEn => Sys2Proof.Machine.execImageRgb565Sub dpx maskEn s
  | .imageRgb565Mul dpx maskEn => Sys2Proof.Machine.execImageRgb565Mul dpx maskEn s
  | .imageRgb888Normal dpx maskEn => Sys2Proof.Machine.execImageRgb888Normal dpx maskEn s
  | .imageRgb888Add dpx maskEn => Sys2Proof.Machine.execImageRgb888Add dpx maskEn s
  | .imageRgb888Sub dpx maskEn => Sys2Proof.Machine.execImageRgb888Sub dpx maskEn s
  | .imageRgb888Mul dpx maskEn => Sys2Proof.Machine.execImageRgb888Mul dpx maskEn s
  | .imageXrgb8888Normal dpx maskEn => Sys2Proof.Machine.execImageXrgb8888Normal dpx maskEn s
  | .imageXrgb8888Add dpx maskEn => Sys2Proof.Machine.execImageXrgb8888Add dpx maskEn s
  | .imageXrgb8888Sub dpx maskEn => Sys2Proof.Machine.execImageXrgb8888Sub dpx maskEn s
  | .imageXrgb8888Mul dpx maskEn => Sys2Proof.Machine.execImageXrgb8888Mul dpx maskEn s
  | .imageArgb8888Normal dpx maskEn => Sys2Proof.Machine.execImageArgb8888Normal dpx maskEn s
  | .imageArgb8888Add dpx maskEn => Sys2Proof.Machine.execImageArgb8888Add dpx maskEn s
  | .imageArgb8888Sub dpx maskEn => Sys2Proof.Machine.execImageArgb8888Sub dpx maskEn s
  | .imageArgb8888Mul dpx maskEn => Sys2Proof.Machine.execImageArgb8888Mul dpx maskEn s
  | .imageUnsupported dpx maskEn blend srcFmt => Sys2Proof.Machine.execImageUnsupported dpx maskEn blend srcFmt s
  | .illegalOp0 dpx maskEn blend srcFmt => Sys2Proof.Machine.execIllegalOp0 dpx maskEn blend srcFmt s
  | .illegalOp3 dpx maskEn blend srcFmt => Sys2Proof.Machine.execIllegalOp3 dpx maskEn blend srcFmt s
  | .rdConfig => Sys2Proof.Machine.execRdConfig s
  | .rdCtrl => Sys2Proof.Machine.execRdCtrl s
  | .rdStatus => Sys2Proof.Machine.execRdStatus s
  | .rdCmd => Sys2Proof.Machine.execRdCmd s
  | .rdDestAddr => Sys2Proof.Machine.execRdDestAddr s
  | .rdDestSize => Sys2Proof.Machine.execRdDestSize s
  | .rdDestStride => Sys2Proof.Machine.execRdDestStride s
  | .rdColor => Sys2Proof.Machine.execRdColor s
  | .rdOpa => Sys2Proof.Machine.execRdOpa s
  | .rdMaskAddr => Sys2Proof.Machine.execRdMaskAddr s
  | .rdMaskStride => Sys2Proof.Machine.execRdMaskStride s
  | .rdSrcAddr => Sys2Proof.Machine.execRdSrcAddr s
  | .rdSrcStride => Sys2Proof.Machine.execRdSrcStride s
  | .wrConfig v => Sys2Proof.Machine.execWrConfig v s
  | .wrCtrl v => Sys2Proof.Machine.execWrCtrl v s
  | .wrStatus v => Sys2Proof.Machine.execWrStatus v s
  | .wrCmd v => Sys2Proof.Machine.execWrCmd v s
  | .wrDestAddr v => Sys2Proof.Machine.execWrDestAddr v s
  | .wrDestSize v => Sys2Proof.Machine.execWrDestSize v s
  | .wrDestStride v => Sys2Proof.Machine.execWrDestStride v s
  | .wrColor v => Sys2Proof.Machine.execWrColor v s
  | .wrOpa v => Sys2Proof.Machine.execWrOpa v s
  | .wrMaskAddr v => Sys2Proof.Machine.execWrMaskAddr v s
  | .wrMaskStride v => Sys2Proof.Machine.execWrMaskStride v s
  | .wrSrcAddr v => Sys2Proof.Machine.execWrSrcAddr v s
  | .wrSrcStride v => Sys2Proof.Machine.execWrSrcStride v s
  | .rdReserved offset => Sys2Proof.Machine.execRdReserved offset s
  | .wrReserved offset v => Sys2Proof.Machine.execWrReserved offset v s

end Sys2Proof.Machine
end

