-- ==== Sys2Proof/Machine/Agenda.lean ====
section
/-! DEFINITION. What each event of the agenda does: the host's register accesses, its loads and stores of memory
(20_memory.md R80, R81), the engine's steps, bus errors and reset. -/

namespace Sys2Proof.Machine

/-- The name under which an access that is no instruction is refused (20_memory.md R86, 00_scope.md R11). -/
def refusalOf : Reject → Refusal
  | .outsideBlock => .outsideBlock
  | .wrongWidth => .registerWidth
  | .misaligned => .registerAlignment

/-- A host access to the register block: the instruction it decodes to, or a refusal by name. -/
def hostAccess (a : Access) (s : State) : Host.Outcome State Fault Refusal :=
  match decode s.cfg.regBase (.access a) with
  | .ok i => exec i s
  | .error r => .refused (refusalOf r)

/-- The value a pair of a write set gives an address, if it has one. -/
def finalValue (ws : List Host.Cell) (a : Nat) : Option Byte :=
  (ws.find? fun cell => decide (cell.1 = a)).map fun cell => cell.2

/-- What a host load returns (20_memory.md R81): while a command runs, a byte it writes is seen with its value in M0
or with its final value, as `sawFinal` says; every other byte is what memory holds. -/
def loadValue (a : Nat) (sawFinal : Bool) (s : State) : Byte :=
  match s.phase with
  | .idle => s.mem.read a
  | .running job =>
    match finalValue job.ws a with
    | none => s.mem.read a
    | some v => if sawFinal then v else job.m0.read a

/-- The address is a byte of memory that the host may load or store: otherwise there is no such byte, or the address is
a device's (20_memory.md R60, R72; assumption log 13). -/
def hostMemory (a : Nat) (s : State) (k : Host.Outcome State Fault Refusal) : Host.Outcome State Fault Refusal :=
  if s.cfg.space ≤ a then .fault .noSuchAddress
  else if s.cfg.ordinary a then k
  else .refused .hostAccessNotMemory

/-- The host reads a byte of memory; it returns zero-extended. -/
def hostLoad (a : Nat) (sawFinal : Bool) (s : State) : Host.Outcome State Fault Refusal :=
  hostMemory a s (.next (s.setHostData ((loadValue a sawFinal s).setWidth 32)))

/-- The byte lies in a footprint of the command that runs (20_memory.md R68, R80). -/
def inRunningFootprint (a : Nat) (s : State) : Bool :=
  s.busy &&
    (destFootprint s.cfg s.latched ++ srcFootprint s.cfg s.latched ++ maskFootprint s.cfg s.latched).contains a

/-- The host writes a byte of memory: refused on a footprint byte of the running command, ordinary elsewhere (R80). -/
def hostStore (a : Nat) (v : Byte) (s : State) : Host.Outcome State Fault Refusal :=
  hostMemory a s (if inRunningFootprint a s then .refused .footprintWritten else .next (s.storeByte a v))

/-- What an event does. -/
def handle (e : Event) (s : State) : Host.Outcome State Fault Refusal :=
  match e with
  | .reg a => hostAccess a s
  | .load a sawFinal => hostLoad a sawFinal s
  | .store a v => hostStore a v s
  | .engine pick => .next (engineStep pick s)
  | .busError => .next (busErrorStep s)
  | .reset latched => .next (s.platformReset latched)

/-- A START of the word `w` from outside: CMD holds it, the engine is IDLE, and the host's next access is the CTRL
write that starts it, with IRQ_EN as it is (assumption log 8). -/
def placeCommand (s : State) (w : Word) : State :=
  { s with
    desc := s.desc.set .cmd (w &&& DescReg.fieldMask s.cfg .cmd)
    phase := .idle
    agenda :=
      .reg { addr := s.cfg.regBase + 0x04, width := 4, dir := .write,
             data := 1 ||| placeField 1 (BitVec.ofBool s.irqEn) } :: s.agenda }

/-- The packet stands where the next step finds it: a command word as a START, an access as the host's next access. -/
def placePacket (s : State) : Packet → State
  | .command w => placeCommand s w
  | .access a => { s with agenda := .reg a :: s.agenda }

end Sys2Proof.Machine
end

