-- ==== Sys2Proof/Machine/Step.lean ====
section
/-! DEFINITION. One step of the machine: the next event of the agenda, or, where nothing else is to happen, a step of
the engine (spec 00_scope.md R6, 43_command_control.md R204 to R206). -/

namespace Sys2Proof.Machine

/-- One step. With an empty agenda the engine goes on, so every accepted command completes (R206), and an IDLE engine
stays as it is (70_reset_and_hazards.md R240: it runs nothing until a START). -/
def step (s : State) : Host.Outcome State Fault Refusal :=
  match s.agenda with
  | [] => .next (engineStep 0 s)
  | e :: rest => handle e (s.setAgenda rest)

/-- The word of an opcode-table row, where the next step runs it (assumption log 8). -/
def State.withFetchWord (s : State) (nbits w : Nat) : State :=
  placePacket s (packetOfTableWord s.cfg.regBase nbits w)

end Sys2Proof.Machine
end

