-- ==== Sys2Proof/Safety.lean ====
section
/-! DEFINITION. What the claims about runs are stated in: the write set a latched descriptor stands for, what holds of a
running command, the invariant of the machine, a step that does not stop, and a run of several steps. -/

namespace Sys2Proof.Machine

/-- The write set of the command a descriptor holds, none where its word starts no running command (43 R204, 41 R150,
42 R171). -/
def commandWriteSet (c : Config) (l : Descriptor) (m0 : Memory) : List Host.Cell :=
  match commandRow l.cmd with
  | .fill => fillWriteSet c l m0
  | .imageRgb565Normal => imageWriteSet .rgb565 .normal c l m0
  | .imageRgb565Add => imageWriteSet .rgb565 (.combine .additive) c l m0
  | .imageRgb565Sub => imageWriteSet .rgb565 (.combine .subtractive) c l m0
  | .imageRgb565Mul => imageWriteSet .rgb565 (.combine .multiply) c l m0
  | .imageRgb888Normal => imageWriteSet .rgb888 .normal c l m0
  | .imageRgb888Add => imageWriteSet .rgb888 (.combine .additive) c l m0
  | .imageRgb888Sub => imageWriteSet .rgb888 (.combine .subtractive) c l m0
  | .imageRgb888Mul => imageWriteSet .rgb888 (.combine .multiply) c l m0
  | .imageXrgb8888Normal => imageWriteSet .xrgb8888 .normal c l m0
  | .imageXrgb8888Add => imageWriteSet .xrgb8888 (.combine .additive) c l m0
  | .imageXrgb8888Sub => imageWriteSet .xrgb8888 (.combine .subtractive) c l m0
  | .imageXrgb8888Mul => imageWriteSet .xrgb8888 (.combine .multiply) c l m0
  | .imageArgb8888Normal => imageWriteSet .argb8888 .normal c l m0
  | .imageArgb8888Add => imageWriteSet .argb8888 (.combine .additive) c l m0
  | .imageArgb8888Sub => imageWriteSet .argb8888 (.combine .subtractive) c l m0
  | .imageArgb8888Mul => imageWriteSet .argb8888 (.combine .multiply) c l m0
  | .imageUnsupported => []
  | .illegalOp0 => []
  | .illegalOp3 => []

/-- The reserved bits of a descriptor's registers are 0 (10_state.md R22). -/
def Descriptor.fieldsOnly (c : Config) (d : Descriptor) : Prop :=
  ∀ r : DescReg, d.get r &&& ~~~(r.fieldMask c) = 0

/-- What holds of a running command: it was accepted with its preconditions met; its write set is the one of L and M0,
lies in the destination footprint and holds each address once (20_memory.md R73, R74); a pending byte still has its
value in M0 and every other byte of the write set its final value (60_exceptions.md R223, 70 R241); the rest of the
footprints is as in M0 (20_memory.md R80). -/
structure JobOk (c : Config) (l : Descriptor) (mem : Memory) (job : Job) : Prop where
  accepted : violation c l = none
  writeSet : job.ws = commandWriteSet c l job.m0
  inDest : ∀ cell ∈ job.ws, cell.1 ∈ destFootprint c l
  once : (job.ws.map fun cell => cell.1).Nodup
  position : job.pending.Sublist job.ws
  oldValue : ∀ cell ∈ job.pending, mem.read cell.1 = job.m0.read cell.1
  newValue : ∀ cell ∈ job.ws, cell ∉ job.pending → mem.read cell.1 = cell.2
  restKept : ∀ a ∈ destFootprint c l ++ srcFootprint c l ++ maskFootprint c l,
    a ∉ (job.ws.map fun cell => cell.1) → mem.read a = job.m0.read a

/-- The invariant of the machine. -/
structure State.Inv (s : State) : Prop where
  config : s.cfg.wf = true
  memoryForm : s.mem.wf = true
  memoryRange : ∀ cell ∈ s.mem, cell.1 < s.cfg.space
  registers : s.desc.fieldsOnly s.cfg
  running : ∀ job, s.phase = .running job →
    s.done = false ∧ s.err = .ok ∧ s.latched.fieldsOnly s.cfg ∧ JobOk s.cfg s.latched s.mem job

/-- The step goes on: no fault, no refusal. -/
def SafeStep (s : State) : Prop := ∃ s', step s = .next s'

/-- `k` steps, stopping at the first fault or refusal. -/
def runSteps : Nat → State → Host.Outcome State Fault Refusal
  | 0, s => .next s
  | k + 1, s =>
    match step s with
    | .next s' => runSteps k s'
    | .fault r => .fault r
    | .refused r => .refused r

/-! ## Names the statements use -/

/-- The image instruction of an encoding and a mode. -/
def imageInstr (fmt : SrcFmt) (mode : BlendMode) (dpx maskEn : Bool) : Instr :=
  match fmt, mode with
  | .rgb565, .normal => .imageRgb565Normal dpx maskEn
  | .rgb565, .combine .additive => .imageRgb565Add dpx maskEn
  | .rgb565, .combine .subtractive => .imageRgb565Sub dpx maskEn
  | .rgb565, .combine .multiply => .imageRgb565Mul dpx maskEn
  | .rgb888, .normal => .imageRgb888Normal dpx maskEn
  | .rgb888, .combine .additive => .imageRgb888Add dpx maskEn
  | .rgb888, .combine .subtractive => .imageRgb888Sub dpx maskEn
  | .rgb888, .combine .multiply => .imageRgb888Mul dpx maskEn
  | .xrgb8888, .normal => .imageXrgb8888Normal dpx maskEn
  | .xrgb8888, .combine .additive => .imageXrgb8888Add dpx maskEn
  | .xrgb8888, .combine .subtractive => .imageXrgb8888Sub dpx maskEn
  | .xrgb8888, .combine .multiply => .imageXrgb8888Mul dpx maskEn
  | .argb8888, .normal => .imageArgb8888Normal dpx maskEn
  | .argb8888, .combine .additive => .imageArgb8888Add dpx maskEn
  | .argb8888, .combine .subtractive => .imageArgb8888Sub dpx maskEn
  | .argb8888, .combine .multiply => .imageArgb8888Mul dpx maskEn

/-- The read of a descriptor register. -/
def DescReg.readInstr : DescReg → Instr
  | .cmd => .rdCmd
  | .destAddr => .rdDestAddr
  | .destSize => .rdDestSize
  | .destStride => .rdDestStride
  | .color => .rdColor
  | .opa => .rdOpa
  | .maskAddr => .rdMaskAddr
  | .maskStride => .rdMaskStride
  | .srcAddr => .rdSrcAddr
  | .srcStride => .rdSrcStride

/-- The write of a descriptor register. -/
def DescReg.writeInstr (r : DescReg) (v : Word) : Instr :=
  match r with
  | .cmd => .wrCmd v
  | .destAddr => .wrDestAddr v
  | .destSize => .wrDestSize v
  | .destStride => .wrDestStride v
  | .color => .wrColor v
  | .opa => .wrOpa v
  | .maskAddr => .wrMaskAddr v
  | .maskStride => .wrMaskStride v
  | .srcAddr => .wrSrcAddr v
  | .srcStride => .wrSrcStride v

/-- What an instruction is for: a command word, a register read, a write of a descriptor register, of CTRL, of STATUS, or
a write that has no effect. -/
inductive InstrKind
  | command
  | read
  | descriptorWrite
  | ctrlWrite
  | statusWrite
  | ignoredWrite
  deriving DecidableEq, Repr

/-- The kind of an instruction. -/
def instrKind : Instr → InstrKind
  | .fill _ _ _ _ => .command
  | .imageRgb565Normal _ _ => .command
  | .imageRgb565Add _ _ => .command
  | .imageRgb565Sub _ _ => .command
  | .imageRgb565Mul _ _ => .command
  | .imageRgb888Normal _ _ => .command
  | .imageRgb888Add _ _ => .command
  | .imageRgb888Sub _ _ => .command
  | .imageRgb888Mul _ _ => .command
  | .imageXrgb8888Normal _ _ => .command
  | .imageXrgb8888Add _ _ => .command
  | .imageXrgb8888Sub _ _ => .command
  | .imageXrgb8888Mul _ _ => .command
  | .imageArgb8888Normal _ _ => .command
  | .imageArgb8888Add _ _ => .command
  | .imageArgb8888Sub _ _ => .command
  | .imageArgb8888Mul _ _ => .command
  | .imageUnsupported _ _ _ _ => .command
  | .illegalOp0 _ _ _ _ => .command
  | .illegalOp3 _ _ _ _ => .command
  | .rdConfig => .read
  | .rdCtrl => .read
  | .rdStatus => .read
  | .rdCmd => .read
  | .rdDestAddr => .read
  | .rdDestSize => .read
  | .rdDestStride => .read
  | .rdColor => .read
  | .rdOpa => .read
  | .rdMaskAddr => .read
  | .rdMaskStride => .read
  | .rdSrcAddr => .read
  | .rdSrcStride => .read
  | .wrConfig _ => .ignoredWrite
  | .wrCtrl _ => .ctrlWrite
  | .wrStatus _ => .statusWrite
  | .wrCmd _ => .descriptorWrite
  | .wrDestAddr _ => .descriptorWrite
  | .wrDestSize _ => .descriptorWrite
  | .wrDestStride _ => .descriptorWrite
  | .wrColor _ => .descriptorWrite
  | .wrOpa _ => .descriptorWrite
  | .wrMaskAddr _ => .descriptorWrite
  | .wrMaskStride _ => .descriptorWrite
  | .wrSrcAddr _ => .descriptorWrite
  | .wrSrcStride _ => .descriptorWrite
  | .rdReserved _ => .read
  | .wrReserved _ _ => .ignoredWrite

/-- A byte after a command over memory `m0` has written all of `ws`. -/
def afterCommand (ws : List Host.Cell) (m0 : Memory) (a : Nat) : Byte := (finalValue ws a).getD (m0.read a)

/-- The colour bytes of destination pixel `(x, y)` after the command. -/
def pixelAfter (c : Config) (l : Descriptor) (m0 : Memory) (x y : Nat) : Triple :=
  let ws := commandWriteSet c l m0
  let a := destAddress c l x y
  ⟨afterCommand ws m0 a, afterCommand ws m0 (a + 1), afterCommand ws m0 (a + 2)⟩

/-- The command writes no byte 3 of a 4-byte destination pixel `(x, y)`. -/
def padUntouched (c : Config) (l : Descriptor) (m0 : Memory) (x y : Nat) : Prop :=
  l.pixelSize = 4 → finalValue (commandWriteSet c l m0) (destAddress c l x y + 3) = none

end Sys2Proof.Machine
end

