-- ==== Sys2Proof/Certificates/Slice0/Obligations.lean ====
section
/-! DEFINITION. The statements for the provers. Each docstring says what its statement claims; OBLIGATIONS.json gives the
rule of spec/ it formalises, or the sections it rests on. -/

open Sys2Proof Sys2Proof.Machine

/-- In State.reset CONFIG reads 0x0020FFFF (the reference configuration, which State.reset holds by the model's choice,
assumption log 1), CTRL and STATUS read 0, each of the ten descriptor registers reads 0, IRQ is 0 and the phase is
IDLE. Derived from 10_state.md section 2 (CONFIG, reference configuration), 10_state.md section 4, assumption log 1. -/
def Obligations.ResetStateReadsItsResetValues : Prop :=
  State.reset.configWord = 0x0020FFFF ∧ State.reset.ctrlWord = 0 ∧ State.reset.statusWord = 0 ∧
    (∀ r : DescReg, State.reset.readReg r = 0) ∧ State.reset.irq = false ∧ State.reset.phase = .idle

/-- From every state, idle or running, a reset event answers a next state in which CONFIG reads as before, CTRL, STATUS
and the ten descriptor registers read 0, IRQ is 0, the phase is IDLE, L is whatever the event says (it is
unspecified), and memory is unchanged. Formalises R41, R242. -/
def Obligations.PlatformResetRestoresRegistersAndKeepsMemory : Prop :=
  ∀ (s : State) (l : Descriptor) (rest : List Event), s.agenda = .reset l :: rest →
    ∃ t, step s = .next t ∧ t.configWord = s.configWord ∧ t.ctrlWord = 0 ∧ t.statusWord = 0 ∧
      (∀ r : DescReg, t.readReg r = 0) ∧ t.irq = false ∧ t.phase = .idle ∧ t.latched = l ∧ t.mem = s.mem

/-- State.reset meets State.Inv: legal parameters, memory in canonical form and in range, reserved register bits 0, and
nothing running. Derived from 10_state.md section 4, 20_memory.md section 5. -/
def Obligations.ResetStateMeetsTheInvariant : Prop :=
  State.reset.Inv

/-- For every state that meets State.Inv, if step answers a next state, that state meets State.Inv: parameters legal,
memory canonical and in range, reserved register bits 0, and for a running command DONE and ERR 0, its preconditions
met, its write set the one of L and M0, inside the destination footprint, each address once, each pending byte still
as in M0, each byte written at its final value, and the rest of its footprints as in M0. Derived from 10_state.md
section 2 (reserved bits), 20_memory.md section 5 (R73, R74), 43_command_control.md section 2, 60_exceptions.md
section 1. -/
def Obligations.EveryStepKeepsTheInvariant : Prop :=
  ∀ s t : State, s.Inv → step s = .next t → t.Inv

/-- For every well-formed instruction, command words and register accesses alike, with every operand at every value, and
for every REG_BASE: decode of encode is the instruction. Derived from 30_encoding.md sections 1 and 4,
43_command_control.md section 1, 10_state.md section 1. -/
def Obligations.DecodeOfEncodeIsTheInstruction : Prop :=
  ∀ (i : Instr) (regBase : Nat), i.wellFormed = true → decode regBase (encode regBase i) = .ok i

/-- For every 32-bit word the row found fits it under the row's mask and match; no other row fits it except
IMAGE.UNSUPPORTED, which overlaps the supported image rows and gives way to them. Formalises R108. -/
def Obligations.EveryCommandWordIsExactlyOneRow : Prop :=
  ∀ w : Word, (commandRow w).fits w = true ∧
    (∀ r : CommandRow, r.fits w = true → r = commandRow w ∨ r = .imageUnsupported) ∧
    (commandRow w = .imageUnsupported → ∀ r : CommandRow, r.fits w = true → r = .imageUnsupported)

/-- For every 32-bit word, decoded and encoded again, the word comes back with bits 7:6 and 31:16 cleared, and it
decodes to a well-formed instruction: no field bit is dropped. Derived from 30_encoding.md section 1. -/
def Obligations.EncodeOfDecodeIsTheWordWithoutReservedBits : Prop :=
  ∀ (w : Word) (regBase : Nat), (decodeCommand w).wellFormed = true ∧
    encode regBase (decodeCommand w) = .command (w &&& 0x0000FF3F)

/-- A word of each family, written out from the spec's encodings, decodes to the instruction it stands for. Derived from
30_encoding.md section 4, 95_test_vectors.md section 2. -/
def Obligations.SampleWordsDecodeToTheirInstructions : Prop :=
  decodeCommand 0x0000000D = .fill true true 0 0 ∧
    decodeCommand 0x00000E31 = .fill false false 3 0x0E ∧
    decodeCommand 0x00001206 = .imageRgb565Normal true false ∧
    decodeCommand 0x00000F2A = .imageRgb888Sub false true ∧
    decodeCommand 0x00001132 = .imageXrgb8888Mul false false ∧
    decodeCommand 0x0000101E = .imageArgb8888Add true true ∧
    decodeCommand 0x00000E02 = .imageUnsupported false false 0 0x0E ∧
    decodeCommand 0x00000000 = .illegalOp0 false false 0 0 ∧
    decodeCommand 0x0000FF03 = .illegalOp3 false false 0 0xFF ∧
    decode 0x1000 (.access ⟨0x1004, 4, .write, 3⟩) = .ok (.wrCtrl 3) ∧
    decode 0x1000 (.access ⟨0x1008, 4, .read, 0⟩) = .ok .rdStatus ∧
    decode 0x1000 (.access ⟨0x1040, 4, .write, 5⟩) = .ok (.wrReserved 0x40 5)

/-- For every access and REG_BASE, it decodes to an instruction if and only if its address lies in the 0x100 bytes at
REG_BASE, its width is 4 bytes and its offset is a multiple of 4; the instruction is then well formed. Derived from
20_memory.md section 8, 00_scope.md section 3 (REG_BASE). -/
def Obligations.RegisterAccessesDecodeExactlyWhereDefined : Prop :=
  ∀ (regBase : Nat) (a : Access),
    ((∃ i, decodeAccess regBase a = .ok i) ↔
      regBase ≤ a.addr ∧ a.addr < regBase + 0x100 ∧ a.width = 4 ∧ (a.addr - regBase) % 4 = 0) ∧
    ∀ i, decodeAccess regBase a = .ok i → i.wellFormed = true

/-- In every state whose next event is a host access inside the register block, the step is refused when the width is
not 4 bytes or the offset is not a multiple of 4. (That an access with both faults is named for its width is the
model's choice, assumption log 15.) Derived from 20_memory.md section 8 (R86), assumption log 15. -/
def Obligations.UndefinedRegisterAccessesAreRefused : Prop :=
  ∀ (s : State) (a : Access) (rest : List Event), s.agenda = .reg a :: rest →
    s.cfg.regBase ≤ a.addr → a.addr < s.cfg.regBase + 0x100 →
    (a.width ≠ 4 → step s = .refused .registerWidth) ∧
    (a.width = 4 → (a.addr - s.cfg.regBase) % 4 ≠ 0 → step s = .refused .registerAlignment)

/-- When the next event of the agenda is a host access that decodes to an instruction, the step is exec of that
instruction on the state with the event taken off the agenda. Derived from 43_command_control.md section 1,
20_memory.md section 8. -/
def Obligations.AStepRunsTheDecodedRegisterAccess : Prop :=
  ∀ (s : State) (a : Access) (rest : List Event) (i : Instr), s.agenda = .reg a :: rest →
    decode s.cfg.regBase (.access a) = .ok i → step s = exec i (s.setAgenda rest)

/-- When the host's next access is a CTRL write of v with v[0] = 1, the step is exec of the instruction that the word in
CMD decodes to, on the state with the event taken off and IRQ_EN set to v[1]. Derived from 43_command_control.md
section 1 (R202), 30_encoding.md section 1. -/
def Obligations.AStartRunsTheCommandThatCmdDecodesTo : Prop :=
  ∀ (s : State) (a : Access) (rest : List Event) (v : Word), s.agenda = .reg a :: rest →
    decode s.cfg.regBase (.access a) = .ok (.wrCtrl v) → v.getLsbD 0 = true →
    step s = exec (decodeCommand s.desc.cmd) ((s.setAgenda rest).setIrqEn (v.getLsbD 1))

/-- For every state and every word of up to 32 bits, the step after withFetchWord is exec of the instruction the word
decodes to, on the state with that word (reserved bits 0) in CMD and the engine IDLE. Where the word is placed is
the model's choice (assumption log 8). Derived from 43_command_control.md section 1, assumption log 8. -/
def Obligations.APlacedWordIsTheNextInstructionRun : Prop :=
  ∀ (s : State) (nbits w : Nat), nbits ≤ 32 →
    step (s.withFetchWord nbits w) =
      exec (decodeCommand (BitVec.ofNat 32 w))
        { s with desc := { s.desc with cmd := BitVec.ofNat 32 w &&& 0x0000FF3F }, phase := .idle }

/-- For every state, each of RD.CONFIG, RD.CTRL, RD.STATUS and the ten RD.<descriptor register> answers a next state
that differs only in the value returned to the host: the fields at their bit positions with every reserved bit 0;
CTRL reads IRQ_EN << 1; a reserved offset reads 0. Formalises R201. -/
def Obligations.RegisterReadsReturnTheFields : Prop :=
  ∀ (s : State) (offset : Byte),
    exec .rdConfig s = .next { s with hostData := s.configWord } ∧
    exec .rdCtrl s = .next { s with hostData := (BitVec.ofBool s.irqEn).setWidth 32 <<< 1 } ∧
    exec .rdStatus s = .next { s with hostData := s.statusWord } ∧
    exec .rdCmd s = .next { s with hostData := s.desc.cmd &&& 0x0000FF3F } ∧
    exec .rdDestAddr s = .next { s with hostData := s.desc.destAddr &&& BitVec.ofNat 32 (2 ^ s.cfg.addrW - 1) } ∧
    exec .rdDestSize s = .next { s with hostData := s.desc.destSize &&& 0xFFFFFFFF } ∧
    exec .rdDestStride s = .next { s with hostData := s.desc.destStride &&& 0x0000FFFF } ∧
    exec .rdColor s = .next { s with hostData := s.desc.color &&& 0x00FFFFFF } ∧
    exec .rdOpa s = .next { s with hostData := s.desc.opa &&& 0x000000FF } ∧
    exec .rdMaskAddr s = .next { s with hostData := s.desc.maskAddr &&& BitVec.ofNat 32 (2 ^ s.cfg.addrW - 1) } ∧
    exec .rdMaskStride s = .next { s with hostData := s.desc.maskStride &&& 0x0000FFFF } ∧
    exec .rdSrcAddr s = .next { s with hostData := s.desc.srcAddr &&& BitVec.ofNat 32 (2 ^ s.cfg.addrW - 1) } ∧
    exec .rdSrcStride s = .next { s with hostData := s.desc.srcStride &&& 0x0000FFFF } ∧
    exec (.rdReserved offset) s = .next { s with hostData := 0 }

/-- For every state whose ADDR_W fits its 6-bit field: CONFIG is OPA_MAX + 2^8 FILL_PAD + 2^16 ADDR_W + 2^24
NONNORMAL_SWAP, CTRL is 2 IRQ_EN, STATUS is BUSY + 2 DONE + 16 ERR. Derived from 10_state.md section 2 (CONFIG,
CTRL, STATUS). -/
def Obligations.ConfigCtrlAndStatusWordsHoldTheirFields : Prop :=
  ∀ s : State, s.cfg.addrW < 64 →
    s.configWord.toNat = s.cfg.opaMax.toNat + 2 ^ 8 * s.cfg.fillPad.toNat + 2 ^ 16 * s.cfg.addrW
      + 2 ^ 24 * s.cfg.nonnormalSwap.toNat ∧
    s.ctrlWord.toNat = 2 * s.irqEn.toNat ∧
    s.statusWord.toNat = s.busy.toNat + 2 * s.done.toNat + 16 * s.err.code.toNat

/-- For every state, in whatever phase, each of the ten WR.<descriptor register> answers a next state that differs only
in that register, which holds the written value's field bits and 0 elsewhere; WR.CONFIG and WR.RESERVED answer the
state unchanged. Formalises R200. -/
def Obligations.RegisterWritesStoreTheFieldBits : Prop :=
  ∀ (s : State) (v : Word) (offset : Byte),
    exec (.wrCmd v) s = .next { s with desc := { s.desc with cmd := v &&& 0x0000FF3F } } ∧
    exec (.wrDestAddr v) s = .next { s with desc := { s.desc with destAddr := v &&& BitVec.ofNat 32 (2 ^ s.cfg.addrW - 1) } } ∧
    exec (.wrDestSize v) s = .next { s with desc := { s.desc with destSize := v &&& 0xFFFFFFFF } } ∧
    exec (.wrDestStride v) s = .next { s with desc := { s.desc with destStride := v &&& 0x0000FFFF } } ∧
    exec (.wrColor v) s = .next { s with desc := { s.desc with color := v &&& 0x00FFFFFF } } ∧
    exec (.wrOpa v) s = .next { s with desc := { s.desc with opa := v &&& 0x000000FF } } ∧
    exec (.wrMaskAddr v) s = .next { s with desc := { s.desc with maskAddr := v &&& BitVec.ofNat 32 (2 ^ s.cfg.addrW - 1) } } ∧
    exec (.wrMaskStride v) s = .next { s with desc := { s.desc with maskStride := v &&& 0x0000FFFF } } ∧
    exec (.wrSrcAddr v) s = .next { s with desc := { s.desc with srcAddr := v &&& BitVec.ofNat 32 (2 ^ s.cfg.addrW - 1) } } ∧
    exec (.wrSrcStride v) s = .next { s with desc := { s.desc with srcStride := v &&& 0x0000FFFF } } ∧
    exec (.wrConfig v) s = .next s ∧
    exec (.wrReserved offset v) s = .next s

/-- For every state and any two descriptor registers r and q: writing v to r and then reading q returns v without r's
reserved bits when q is r, and what q read before when it is not. Derived from 10_state.md section 1 (reserved
bits), 43_command_control.md section 1. -/
def Obligations.AWrittenRegisterReadsBackAndOthersDoNotChange : Prop :=
  ∀ (s : State) (r q : DescReg) (v : Word), ∃ t u, exec (r.writeInstr v) s = .next t ∧
    exec q.readInstr t = .next u ∧ u.hostData = (if q = r then v &&& r.fieldMask s.cfg else s.readReg q)

/-- For every state: WR.STATUS with bit 1 set answers the state with DONE 0 and so IRQ 0, everything else (BUSY, ERR) as
before; with bit 1 clear it answers the state unchanged; where a command runs and DONE is 0 it answers the state
unchanged. Formalises R207. -/
def Obligations.StatusWriteClearsDoneAndNothingElse : Prop :=
  ∀ (s : State) (v : Word),
    (v.getLsbD 1 = true → ∃ t, exec (.wrStatus v) s = .next t ∧ t = { s with done := false } ∧ t.irq = false) ∧
    (v.getLsbD 1 = false → exec (.wrStatus v) s = .next s) ∧
    (s.busy = true → s.done = false → exec (.wrStatus v) s = .next s)

/-- For every running state: WR.CTRL of any v answers the state with only IRQ_EN changed, to v[1]; and the instruction
of any command word, run then, changes nothing. The phase, the running command, STATUS and memory are as before, and
no error is recorded. Formalises R203. -/
def Obligations.StartWhileRunningIsDropped : Prop :=
  ∀ (s : State) (job : Job), s.phase = .running job →
    (∀ v : Word, exec (.wrCtrl v) s = .next { s with irqEn := v.getLsbD 1 }) ∧
    (∀ w : Word, exec (decodeCommand w) s = .next s)

/-- For every state and value v: without START, or while RUNNING, only IRQ_EN changes, to v[1]. With START while IDLE
the descriptor is latched (CMD without its reserved bits), DONE and ERR are cleared, and then: OP 0 or 3 ends with
ILLEGAL_OP; else BLEND_IMAGE with an unsupported SRC_FMT ends with UNSUPPORTED_FORMAT; else a violated precondition
is refused; else the phase is RUNNING with M0 the memory now and the write set of L and M0, all of it pending.
Nothing else changes. Formalises R202. -/
def Obligations.ACtrlWriteIsTheAcceptanceOfItsCommand : Prop :=
  ∀ (s : State) (v : Word),
    (v.getLsbD 0 = false ∨ s.busy = true → exec (.wrCtrl v) s = .next { s with irqEn := v.getLsbD 1 }) ∧
    (v.getLsbD 0 = true → s.phase = .idle →
      let l : Descriptor := { s.desc with cmd := s.desc.cmd &&& 0x0000FF3F }
      let u : State := { s with irqEn := v.getLsbD 1, latched := l, done := false, err := .ok }
      let op := s.desc.cmd.extractLsb' 0 2
      let fmt := s.desc.cmd.extractLsb' 8 8
      let unsupported := fmt ≠ 0x0F ∧ fmt ≠ 0x10 ∧ fmt ≠ 0x11 ∧ fmt ≠ 0x12
      (op = 0 ∨ op = 3 → exec (.wrCtrl v) s = .next { u with done := true, err := .illegalOp }) ∧
      (op = 2 → unsupported → exec (.wrCtrl v) s = .next { u with done := true, err := .unsupportedFormat }) ∧
      (op = 1 ∨ (op = 2 ∧ ¬unsupported) →
        (∀ r, violation s.cfg l = some r → exec (.wrCtrl v) s = .refused r) ∧
        (violation s.cfg l = none → exec (.wrCtrl v) s = .next
          { u with phase := .running ⟨s.mem, commandWriteSet s.cfg l s.mem, commandWriteSet s.cfg l s.mem⟩ })))

/-- For every IDLE state and every FILL whose preconditions hold, exec answers the state with L the registers and the
fill's word, DONE and ERR 0, RUNNING, M0 the memory now, and the fill's write set pending; nothing else changes,
memory included. Derived from 41_fill.md R150, 43_command_control.md R202, R204. -/
def Obligations.FillIsAcceptedAndRuns : Prop :=
  ∀ (s : State) (dpx maskEn : Bool) (blend : BitVec 2) (srcFmt : Byte), s.phase = .idle →
    let l : Descriptor := { s.desc with cmd := encodeFields 1 dpx maskEn blend srcFmt }
    violation s.cfg l = none →
    exec (.fill dpx maskEn blend srcFmt) s = .next
      { s with
        latched := l, done := false, err := .ok
        phase := .running ⟨s.mem, fillWriteSet s.cfg l s.mem, fillWriteSet s.cfg l s.mem⟩ }

/-- For every IDLE state, each source encoding RGB565, RGB888, XRGB8888, ARGB8888 and each mode NORMAL, ADD, SUB, MUL:
where the preconditions hold, exec answers the state with L the registers and the command's word, DONE and ERR 0,
RUNNING, M0 the memory now, and the command's write set pending; nothing else changes, memory included. Derived from
42_image.md R171, R173 to R180, 43_command_control.md R202, R204. -/
def Obligations.ImageCommandsAreAcceptedAndRun : Prop :=
  ∀ (s : State) (fmt : SrcFmt) (mode : BlendMode) (dpx maskEn : Bool), s.phase = .idle →
    let l : Descriptor := { s.desc with cmd := encodeImage fmt mode dpx maskEn }
    violation s.cfg l = none →
    exec (imageInstr fmt mode dpx maskEn) s = .next
      { s with
        latched := l, done := false, err := .ok
        phase := .running ⟨s.mem, imageWriteSet fmt mode s.cfg l s.mem, imageWriteSet fmt mode s.cfg l s.mem⟩ }

/-- For every IDLE state, whatever the buffers and the region, exec of IMAGE.UNSUPPORTED answers the state with L the
registers and the command's word, DONE 1, ERR UNSUPPORTED_FORMAT and the phase IDLE; STATUS reads 0x12; memory, the
registers and IRQ_EN are unchanged, and no byte of memory matters to it. Formalises R221. -/
def Obligations.UnsupportedFormatEndsAtAcceptance : Prop :=
  ∀ (s : State) (dpx maskEn : Bool) (blend : BitVec 2) (srcFmt : Byte), s.phase = .idle →
    ∃ t, exec (.imageUnsupported dpx maskEn blend srcFmt) s = .next t ∧
      t = { s with
        latched := { s.desc with cmd := encodeFields 2 dpx maskEn blend srcFmt }
        done := true, err := .unsupportedFormat } ∧
      t.statusWord = 0x00000012

/-- For every IDLE state exec of ILLEGAL.OP0 and of ILLEGAL.OP3 answers the state with L the registers and the word,
DONE 1, ERR ILLEGAL_OP, the phase IDLE; STATUS reads 0x22; memory is unchanged. After a platform reset, a CTRL write
with START ends this way too. Formalises R222. -/
def Obligations.IllegalOpEndsAtAcceptance : Prop :=
  ∀ (s : State) (dpx maskEn : Bool) (blend : BitVec 2) (srcFmt : Byte), s.phase = .idle →
    (∃ t, exec (.illegalOp0 dpx maskEn blend srcFmt) s = .next t ∧
      t = { s with
        latched := { s.desc with cmd := encodeFields 0 dpx maskEn blend srcFmt }
        done := true, err := .illegalOp } ∧
      t.statusWord = 0x00000022) ∧
    (∃ t, exec (.illegalOp3 dpx maskEn blend srcFmt) s = .next t ∧
      t = { s with
        latched := { s.desc with cmd := encodeFields 3 dpx maskEn blend srcFmt }
        done := true, err := .illegalOp } ∧
      t.statusWord = 0x00000022) ∧
    (∀ (l : Descriptor) (v : Word), v.getLsbD 0 = true →
      ∃ t, exec (.wrCtrl v) (s.platformReset l) = .next t ∧ t.statusWord = 0x00000022 ∧ t.mem = s.mem)

/-- For every descriptor holding a FILL whose preconditions hold, every memory and every pixel of the region: at full
opacity without a mask bytes 0 to 2 become col and byte 3 of a 4-byte pixel becomes FILL_PAD; otherwise bytes 0 to 2
become MIX3(col, pixel, w) with w the opacity (no mask, partial), the mask value (mask, full) or (opacity * mask) >>
8 (mask, partial), and byte 3 is not written. Formalises R151, R152, R153, R154. -/
def Obligations.FillWritesWhatItsRegimeSays : Prop :=
  ∀ (c : Config) (l : Descriptor) (m0 : Memory) (dpx maskEn : Bool) (blend : BitVec 2) (srcFmt : Byte) (x y : Nat),
    l.cmd = encodeFields 1 dpx maskEn blend srcFmt → violation c l = none → x < l.width → y < l.height →
    let a := destAddress c l x y
    let d := destPixel c l m0 x y
    let m := memRead8 c m0 (maskAddress c l x y)
    (maskEn = false → c.opaMax.toNat ≤ l.opacity.toNat → pixelAfter c l m0 x y = l.colour ∧
      (l.pixelSize = 4 → finalValue (commandWriteSet c l m0) (a + 3) = some c.fillPad)) ∧
    (maskEn = false → l.opacity.toNat < c.opaMax.toNat →
      pixelAfter c l m0 x y = mix3 c l.colour d l.opacity ∧ padUntouched c l m0 x y) ∧
    (maskEn = true → c.opaMax.toNat ≤ l.opacity.toNat →
      pixelAfter c l m0 x y = mix3 c l.colour d m ∧ padUntouched c l m0 x y) ∧
    (maskEn = true → l.opacity.toNat < c.opaMax.toNat → ∀ w : Byte, w.toNat = l.opacity.toNat * m.toNat / 256 →
      pixelAfter c l m0 x y = mix3 c l.colour d w ∧ padUntouched c l m0 x y)

/-- For every descriptor holding an RGB565 command whose preconditions hold, every memory and pixel: with v the
little-endian 16-bit source value, NORMAL leaves MIX3(EXPAND565(v), d, W_RGB), ADD, SUB and MUL leave
NONNORMAL(mode, d, EXPAND565(v), W_NN), without channel swap; byte 3 is never written. Derived from 42_image.md
section 2 (R173, R174). -/
def Obligations.Rgb565CommandsWriteTheExpandedBlend : Prop :=
  ∀ (c : Config) (l : Descriptor) (m0 : Memory) (mode : BlendMode) (dpx maskEn : Bool) (x y : Nat),
    l.cmd = encodeImage .rgb565 mode dpx maskEn → violation c l = none → x < l.width → y < l.height →
    let a := srcAddress c l 2 x y
    let d := destPixel c l m0 x y
    let m := maskValue c l m0 x y
    ∀ v : BitVec 16, v.toNat = (memRead8 c m0 a).toNat + 256 * (memRead8 c m0 (a + 1)).toNat →
    pixelAfter c l m0 x y = (match mode with
      | .normal => mix3 c (expand565 v) d (wRgb (l.regime c) l.opacity m)
      | .combine k => nonnormal c k d (expand565 v) (wNn maskEn l.opacity m)) ∧
    padUntouched c l m0 x y

/-- For every descriptor holding an RGB888 command whose preconditions hold, every memory and pixel: NORMAL without a
mask at full opacity copies source bytes 0 to 2, the other regimes leave MIX3(s, d, W_RGB); ADD, SUB and MUL leave
NONNORMAL(mode, d, s', W_NN) with s' reversed when NONNORMAL_SWAP is 1; byte 3 is never written. Derived from
42_image.md section 3 (R175, R176). -/
def Obligations.Rgb888CommandsWriteTheCopyOrTheBlend : Prop :=
  ∀ (c : Config) (l : Descriptor) (m0 : Memory) (mode : BlendMode) (dpx maskEn : Bool) (x y : Nat),
    l.cmd = encodeImage .rgb888 mode dpx maskEn → violation c l = none → x < l.width → y < l.height →
    let a := srcAddress c l 3 x y
    let s : Triple := ⟨memRead8 c m0 a, memRead8 c m0 (a + 1), memRead8 c m0 (a + 2)⟩
    let d := destPixel c l m0 x y
    let m := maskValue c l m0 x y
    (mode = .normal → l.regime c = .nmFull → pixelAfter c l m0 x y = s) ∧
    (mode = .normal → l.regime c ≠ .nmFull →
      pixelAfter c l m0 x y = mix3 c s d (wRgb (l.regime c) l.opacity m)) ∧
    (∀ k, mode = .combine k → pixelAfter c l m0 x y =
      nonnormal c k d (if c.nonnormalSwap then ⟨s.c2, s.c1, s.c0⟩ else s) (wNn maskEn l.opacity m)) ∧
    padUntouched c l m0 x y

/-- For every descriptor holding an XRGB8888 command whose preconditions hold, every memory and pixel: NORMAL without a
mask at full opacity copies source bytes 0 to 2, and the pad byte too into byte 3 of a 4-byte destination; the other
regimes leave MIX3(s, d, W_RGB); ADD, SUB and MUL leave NONNORMAL(mode, d, s', W_NN) with s' reversed when
NONNORMAL_SWAP is 1; apart from that copy byte 3 is never written. Derived from 42_image.md section 3 (R177, R178). -/
def Obligations.Xrgb8888CommandsWriteTheCopyOrTheBlend : Prop :=
  ∀ (c : Config) (l : Descriptor) (m0 : Memory) (mode : BlendMode) (dpx maskEn : Bool) (x y : Nat),
    l.cmd = encodeImage .xrgb8888 mode dpx maskEn → violation c l = none → x < l.width → y < l.height →
    let a := srcAddress c l 4 x y
    let s : Triple := ⟨memRead8 c m0 a, memRead8 c m0 (a + 1), memRead8 c m0 (a + 2)⟩
    let d := destPixel c l m0 x y
    let m := maskValue c l m0 x y
    (mode = .normal → l.regime c = .nmFull → pixelAfter c l m0 x y = s ∧
      (l.pixelSize = 4 →
        finalValue (commandWriteSet c l m0) (destAddress c l x y + 3) = some (memRead8 c m0 (a + 3)))) ∧
    (mode = .normal → l.regime c ≠ .nmFull →
      pixelAfter c l m0 x y = mix3 c s d (wRgb (l.regime c) l.opacity m) ∧ padUntouched c l m0 x y) ∧
    (∀ k, mode = .combine k → pixelAfter c l m0 x y =
      nonnormal c k d (if c.nonnormalSwap then ⟨s.c2, s.c1, s.c0⟩ else s) (wNn maskEn l.opacity m) ∧
      padUntouched c l m0 x y)

/-- For every descriptor holding an ARGB8888 command whose preconditions hold, every memory and pixel: with s the source
bytes 0 to 2 and alpha the source byte 3, NORMAL leaves MIX3(s, d, W_ARGB) and ADD, SUB, MUL leave NONNORMAL(mode,
d, s, W_ARGB), without channel swap; byte 3 of a 4-byte destination is never written. Derived from 42_image.md
section 4 (R179, R180). -/
def Obligations.Argb8888CommandsWriteTheAlphaBlend : Prop :=
  ∀ (c : Config) (l : Descriptor) (m0 : Memory) (mode : BlendMode) (dpx maskEn : Bool) (x y : Nat),
    l.cmd = encodeImage .argb8888 mode dpx maskEn → violation c l = none → x < l.width → y < l.height →
    let a := srcAddress c l 4 x y
    let s : Triple := ⟨memRead8 c m0 a, memRead8 c m0 (a + 1), memRead8 c m0 (a + 2)⟩
    let d := destPixel c l m0 x y
    let w := wArgb (l.regime c) (memRead8 c m0 (a + 3)) l.opacity (maskValue c l m0 x y)
    pixelAfter c l m0 x y = (match mode with
      | .normal => mix3 c s d w
      | .combine k => nonnormal c k d s w) ∧
    padUntouched c l m0 x y

/-- For every running state that meets the invariant and has pairs pending, and every index below their number: the
engine event with that index answers the state in which that pair is written and pending no more, every other byte
of memory reads as before, and nothing else changes. Derived from 43_command_control.md section 2 (R204),
20_memory.md section 5 (R76). -/
def Obligations.EngineStepWritesOneChosenPair : Prop :=
  ∀ (s : State) (job : Job) (rest : List Event) (k : Nat) (hk : k < job.pending.length), s.Inv →
    s.phase = .running job → s.agenda = .engine k :: rest →
    ∃ mem', step s = .next
        { s with agenda := rest, mem := mem', phase := .running { job with pending := job.pending.eraseIdx k } } ∧
      mem'.read (job.pending[k]).1 = (job.pending[k]).2 ∧
      ∀ a : Nat, a ≠ (job.pending[k]).1 → mem'.read a = s.mem.read a

/-- For every running state with nothing pending, the engine's next step (by an engine event, or with an empty agenda)
answers the state with the phase IDLE, so BUSY 0, DONE 1 and ERR 0, and nothing else changed but the event taken
off. (That the engine goes on by itself with an empty agenda is the model's choice, assumption log 5.) Derived from
43_command_control.md section 2 (R206), 60_exceptions.md section 3, assumption log 5. -/
def Obligations.CompletionFollowsTheLastWrite : Prop :=
  ∀ (s : State) (job : Job), s.phase = .running job → job.pending = [] →
    (s.agenda = [] → step s = .next { s with phase := .idle, done := true, err := .ok }) ∧
    (∀ (k : Nat) (rest : List Event), s.agenda = .engine k :: rest →
      step s = .next { s with agenda := rest, phase := .idle, done := true, err := .ok })

/-- For every running state that meets the invariant with an empty agenda, after as many steps as pairs are pending plus
one, the engine is IDLE with DONE 1 and ERR 0; every byte of the write set has its final value; every address
outside the pending pairs, so every address outside the destination footprint, reads as before; the registers,
IRQ_EN, L and the parameters are unchanged. (That the engine goes on by itself with an empty agenda is the model's
choice, assumption log 5.) Derived from 43_command_control.md section 2 (R204 to R206), 70_reset_and_hazards.md
section 4 (R250), 20_memory.md section 6 (R79), assumption log 5. -/
def Obligations.AnAcceptedCommandRunsToItsResult : Prop :=
  ∀ (s : State) (job : Job), s.Inv → s.phase = .running job → s.agenda = [] →
    ∃ mem', runSteps (job.pending.length + 1) s =
        .next { s with mem := mem', phase := .idle, done := true, err := .ok } ∧
      (∀ cell ∈ job.ws, mem'.read cell.1 = cell.2) ∧
      (∀ a : Nat, a ∉ job.pending.map (fun cell => cell.1) → mem'.read a = s.mem.read a) ∧
      (∀ a : Nat, a ∉ destFootprint s.cfg s.latched → mem'.read a = s.mem.read a)

/-- For every running state that meets the invariant and any two schedules of engine steps, each as long as the pending
pairs plus one, running either schedule ends in the same state, memory included. Derived from 20_memory.md section 6
(R77), 43_command_control.md section 2 (R204). -/
def Obligations.WriteOrderIsUnobservable : Prop :=
  ∀ (s : State) (job : Job) (p q : List Nat), s.Inv → s.phase = .running job →
    p.length = job.pending.length + 1 → q.length = job.pending.length + 1 →
    runSteps p.length (s.setAgenda (p.map Event.engine)) = runSteps q.length (s.setAgenda (q.map Event.engine))

/-- For every running state that meets the invariant with its whole write set pending, and every part S of the write
set, there is a schedule of engine steps such that a reset after it leaves the bytes of S at their final value, the
other bytes of the write set as in M0 and every address outside S as before, IDLE, DONE 0, ERR 0; and, where the
memory can answer with an error and the command makes an access, a bus error after it leaves the same memory with
DONE 1 and ERR BUS_ERROR. (That a bus error may strike at any moment of RUNNING is the model's choice, assumption
log 11.) Derived from 60_exceptions.md section 1 (R223), 70_reset_and_hazards.md section 1 (R241), assumption log
11. -/
def Obligations.AnInterruptedCommandLeavesAnySubset : Prop :=
  ∀ (s : State) (job : Job) (part : List Host.Cell), s.Inv → s.phase = .running job → job.pending = job.ws →
    part.Sublist job.ws →
    ∃ (picks : List Nat) (mem' : Memory),
      (∀ cell ∈ job.ws, mem'.read cell.1 = if cell ∈ part then cell.2 else job.m0.read cell.1) ∧
      (∀ a : Nat, a ∉ part.map (fun cell => cell.1) → mem'.read a = s.mem.read a) ∧
      (∀ l : Descriptor, runSteps (picks.length + 1) (s.setAgenda (picks.map Event.engine ++ [.reset l])) =
        .next { s.platformReset l with mem := mem', agenda := [] }) ∧
      (s.cfg.busErrPossible = true → makesAccesses s.cfg s.latched = true →
        runSteps (picks.length + 1) (s.setAgenda (picks.map Event.engine ++ [.busError])) =
          .next { s with mem := mem', agenda := [], phase := .idle, done := true, err := .busError })

/-- For every state and code, the termination has the phase IDLE, BUSY 0, ERR the code and DONE 1; IRQ is then IRQ_EN;
the registers (CMD among them), L, IRQ_EN, memory, the parameters and what the host sees next are as before.
Formalises R226. -/
def Obligations.TerminateRecordsTheCodeAndNothingElse : Prop :=
  ∀ (s : State) (code : ErrCode), s.terminate code = { s with phase := .idle, err := code, done := true } ∧
    (s.terminate code).busy = false ∧ (s.terminate code).irq = s.irqEn

/-- For every state whose next event is a bus error. A running command ends, IDLE, DONE 1, ERR BUS_ERROR, memory and all
else unchanged, when BUS_ERR_POSSIBLE is true, its region is not empty, and it is not a fill without a mask at
opacity 0 with OPA_MAX not 0, which reads and writes nothing; otherwise the state is unchanged but for the event. An
IDLE engine is unchanged but for the event. (At which moments it may strike, and that such an event is taken off
with no other effect, are the model's choices, assumption log 11 and 14.) Derived from 60_exceptions.md section 1
(R223), 00_scope.md section 3 (R13), 41_fill.md (R150), 42_image.md section 1 (R171), 20_memory.md section 3 (R68),
assumption log 11, assumption log 14. -/
def Obligations.ABusErrorEndsTheCommandOrCannotHappen : Prop :=
  ∀ (s : State) (rest : List Event), s.agenda = .busError :: rest →
    (s.phase = .idle → step s = .next { s with agenda := rest }) ∧
    (∀ job : Job, s.phase = .running job →
      let empty := s.latched.width = 0 ∨ s.latched.height = 0
      let mixesNothing := cmdOp s.latched.cmd = 1 ∧ cmdMaskEn s.latched.cmd = false ∧ s.latched.opacity = 0 ∧
        s.cfg.opaMax ≠ 0
      (s.cfg.busErrPossible = true → ¬empty → ¬mixesNothing →
        step s = .next { s with agenda := rest, phase := .idle, done := true, err := .busError }) ∧
      (s.cfg.busErrPossible = false ∨ empty ∨ mixesNothing → step s = .next { s with agenda := rest }))

/-- In every state the interrupt output is bit 1 of STATUS AND bit 1 of CTRL; at reset it is 0. Formalises R36. -/
def Obligations.IrqIsDoneAndEnable : Prop :=
  (∀ s : State, s.irq = (s.statusWord.getLsbD 1 && s.ctrlWord.getLsbD 1)) ∧ State.reset.irq = false

/-- For every configuration, source, destination and weight: w = 0 gives d; w not 0 and at least OPA_MAX gives s;
otherwise each channel is (s*w + d*(255-w)) >> 8 exactly, on naturals. Formalises R120. -/
def Obligations.Mix3IsTheTruncatingMix : Prop :=
  ∀ (c : Config) (s d : Triple) (w : Byte),
    (w = 0 → mix3 c s d w = d) ∧
    (w ≠ 0 → c.opaMax.toNat ≤ w.toNat → mix3 c s d w = s) ∧
    (w ≠ 0 → w.toNat < c.opaMax.toNat →
      (mix3 c s d w).c0.toNat = (s.c0.toNat * w.toNat + d.c0.toNat * (255 - w.toNat)) / 256 ∧
      (mix3 c s d w).c1.toNat = (s.c1.toNat * w.toNat + d.c1.toNat * (255 - w.toNat)) / 256 ∧
      (mix3 c s d w).c2.toNat = (s.c2.toNat * w.toNat + d.c2.toNat * (255 - w.toNat)) / 256)

/-- For every legal configuration (OPA_MAX at least 1) and all arguments: 1 an opaque weight copies; 2 weight 0 keeps
the destination; 3 mixing a colour with itself gives it at weight 0 and at opaque weights and one less in every
non-zero channel at partial weights; 4 each channel of a partial mix lies between min - 1 and max of the two and is
at most 254; 5 the mix is monotonic in source and in destination; 6 every weight is 0 at mask 0 with a mask, and
W_ARGB at alpha 0, and weight 0 leaves the pixel by law 2; 7 an opaque ARGB8888 pixel at full opacity without a mask
has weight 255 and copies its colour. Formalises R137. -/
def Obligations.MixAndWeightLaws : Prop :=
  ∀ c : Config, c.wf = true →
    (∀ (s d : Triple) (w : Byte), c.opaMax.toNat ≤ w.toNat → mix3 c s d w = s) ∧
    (∀ s d : Triple, mix3 c s d 0 = d) ∧
    (∀ (s : Triple) (w : Byte),
      (w = 0 ∨ c.opaMax.toNat ≤ w.toNat → mix3 c s s w = s) ∧
      (w ≠ 0 → w.toNat < c.opaMax.toNat → mix3 c s s w =
        ⟨s.c0 - (if s.c0 = 0 then 0 else 1), s.c1 - (if s.c1 = 0 then 0 else 1), s.c2 - (if s.c2 = 0 then 0 else 1)⟩)) ∧
    (∀ (s d : Triple) (w : Byte) (ch : Triple → Byte), ch ∈ [Triple.c0, Triple.c1, Triple.c2] →
      w ≠ 0 → w.toNat < c.opaMax.toNat →
      min (ch s).toNat (ch d).toNat ≤ (ch (mix3 c s d w)).toNat + 1 ∧
      (ch (mix3 c s d w)).toNat ≤ max (ch s).toNat (ch d).toNat ∧ (ch (mix3 c s d w)).toNat ≤ 254) ∧
    (∀ (s s' d d' : Triple) (w : Byte), s.c0.toNat ≤ s'.c0.toNat → s.c1.toNat ≤ s'.c1.toNat →
      s.c2.toNat ≤ s'.c2.toNat → d.c0.toNat ≤ d'.c0.toNat → d.c1.toNat ≤ d'.c1.toNat → d.c2.toNat ≤ d'.c2.toNat →
      (mix3 c s d w).c0.toNat ≤ (mix3 c s' d' w).c0.toNat ∧ (mix3 c s d w).c1.toNat ≤ (mix3 c s' d' w).c1.toNat ∧
      (mix3 c s d w).c2.toNat ≤ (mix3 c s' d' w).c2.toNat) ∧
    (∀ (isFull : Bool) (a opa m : Byte), wRgb (regimeOf true isFull) opa 0 = 0 ∧ wArgb (regimeOf true isFull) a opa 0 = 0 ∧
      wNn true opa 0 = 0 ∧ ∀ r : Regime, wArgb r 0 opa m = 0) ∧
    (∀ (s d : Triple) (opa m : Byte), wArgb .nmFull 255 opa m = 255 ∧ mix3 c s d (wArgb .nmFull 255 opa m) = s)

/-- For every 5-bit and 6-bit value E5 is (v * 2106) >> 8 and E6 is (v * 1037) >> 8, both tables are as the spec prints
them, both functions are strictly increasing, and EXPAND565 expands bits 4:0, 10:5 and 15:11 into channels 0, 1 and
2. Formalises R123, R124, R125. -/
def Obligations.Rgb565ChannelsExpandByTheirConstants : Prop :=
  (∀ v : BitVec 5, (e5 v).toNat = v.toNat * 2106 / 256) ∧
    (∀ v : BitVec 6, (e6 v).toNat = v.toNat * 1037 / 256) ∧
    (List.range 32).map (fun v => (e5 (BitVec.ofNat 5 v)).toNat) =
      [0, 8, 16, 24, 32, 41, 49, 57, 65, 74, 82, 90, 98, 106, 115, 123,
       131, 139, 148, 156, 164, 172, 180, 189, 197, 205, 213, 222, 230, 238, 246, 255] ∧
    (List.range 64).map (fun v => (e6 (BitVec.ofNat 6 v)).toNat) =
      [0, 4, 8, 12, 16, 20, 24, 28, 32, 36, 40, 44, 48, 52, 56, 60,
       64, 68, 72, 76, 81, 85, 89, 93, 97, 101, 105, 109, 113, 117, 121, 125,
       129, 133, 137, 141, 145, 149, 153, 157, 162, 166, 170, 174, 178, 182, 186, 190,
       194, 198, 202, 206, 210, 214, 218, 222, 226, 230, 234, 238, 243, 247, 251, 255] ∧
    (∀ u v : BitVec 5, u.toNat < v.toNat → (e5 u).toNat < (e5 v).toNat) ∧
    (∀ u v : BitVec 6, u.toNat < v.toNat → (e6 u).toNat < (e6 v).toNat) ∧
    ∀ v : BitVec 16, expand565 v = ⟨e5 (v.extractLsb' 0 5), e6 (v.extractLsb' 5 6), e5 (v.extractLsb' 11 5)⟩

/-- For every destination and source channel: ADD is min(d + s, 255), SUB is d - s or 0, MUL is (d * s) >> 8 and at most
254. NONNORMAL is MIX3 of the combined triple against the original destination at the weight: d at weight 0, the
combined triple at an opaque weight. Formalises R126, R127, R128, R129. -/
def Obligations.CombinatorAddsSubtractsAndMultiplies : Prop :=
  (∀ d s : Byte, (comb .additive d s).toNat = min (d.toNat + s.toNat) 255 ∧
      (s.toNat ≤ d.toNat → (comb .subtractive d s).toNat = d.toNat - s.toNat) ∧
      (d.toNat < s.toNat → comb .subtractive d s = 0) ∧
      (comb .multiply d s).toNat = d.toNat * s.toNat / 256 ∧ (comb .multiply d s).toNat ≤ 254) ∧
    ∀ (c : Config) (k : Combine) (d s : Triple) (w : Byte),
      let t : Triple := ⟨comb k d.c0 s.c0, comb k d.c1 s.c1, comb k d.c2 s.c2⟩
      nonnormal c k d s w = mix3 c t d w ∧
      (w = 0 → nonnormal c k d s w = d) ∧
      (w ≠ 0 → c.opaMax.toNat ≤ w.toNat → nonnormal c k d s w = t)

/-- FULL is opa at least OPA_MAX; the regime follows from MASK_EN and FULL; W_RGB is 255, opa, m or (opa*m) >> 8; W_ARGB
is a, (a*opa) >> 8, (a*m) >> 8 or (a*m*opa) >> 16 (one floor: 122 for a = m = opa = 200); W_NN is opa, or (opa*m) >>
8 with a mask, whatever FULL is. Formalises R131, R132, R133, R134. -/
def Obligations.EffectiveWeightsAreTheirFormulas : Prop :=
  (∀ (c : Config) (opa : Byte), full c opa = decide (c.opaMax.toNat ≤ opa.toNat)) ∧
    (∀ (c : Config) (l : Descriptor), l.regime c =
      if l.maskEn then (if full c l.opacity then .mFull else .mPart)
      else if full c l.opacity then .nmFull else .nmPart) ∧
    (∀ a opa m : Byte,
      (wRgb .nmFull opa m).toNat = 255 ∧ (wRgb .nmPart opa m).toNat = opa.toNat ∧ (wRgb .mFull opa m).toNat = m.toNat ∧
      (wRgb .mPart opa m).toNat = opa.toNat * m.toNat / 256 ∧
      (wArgb .nmFull a opa m).toNat = a.toNat ∧ (wArgb .nmPart a opa m).toNat = a.toNat * opa.toNat / 256 ∧
      (wArgb .mFull a opa m).toNat = a.toNat * m.toNat / 256 ∧
      (wArgb .mPart a opa m).toNat = a.toNat * m.toNat * opa.toNat / 65536 ∧
      (wNn false opa m).toNat = opa.toNat ∧ (wNn true opa m).toNat = opa.toNat * m.toNat / 256) ∧
    wArgb .mPart 200 200 200 = 122

/-- For every descriptor whose preconditions hold and every memory: every pair of the write set has its address in
DestFP; two memories that agree on the three footprints give the same write set, so no other byte is read; and no
byte of a row between W*P and DS*P is written. Formalises R73. -/
def Obligations.ACommandTouchesOnlyItsFootprints : Prop :=
  ∀ (c : Config) (l : Descriptor) (m m' : Memory), violation c l = none →
    (∀ cell ∈ commandWriteSet c l m, cell.1 ∈ destFootprint c l) ∧
    ((∀ a ∈ destFootprint c l ++ srcFootprint c l ++ maskFootprint c l, m.read a = m'.read a) →
      commandWriteSet c l m = commandWriteSet c l m') ∧
    (∀ cell ∈ commandWriteSet c l m, ∀ x y k : Nat, l.width ≤ x → x < l.destStep → y < l.height → k < l.pixelSize →
      cell.1 ≠ baseAddress c l.destAddr + (y * l.destStep + x) * l.pixelSize + k)

/-- For every descriptor whose preconditions hold and every memory: the addresses of the write set are all different;
and byte 3 of a 4-byte pixel of the region is in it exactly when the command is FILL or IMAGE.XRGB8888.NORMAL in the
regime without a mask at full opacity. Formalises R74. -/
def Obligations.EachDestinationByteIsWrittenAtMostOnce : Prop :=
  ∀ (c : Config) (l : Descriptor) (m0 : Memory), violation c l = none →
    ((commandWriteSet c l m0).map fun cell => cell.1).Nodup ∧
    (l.pixelSize = 4 → ∀ x y : Nat, x < l.width → y < l.height →
      (destAddress c l x y + 3 ∈ (commandWriteSet c l m0).map (fun cell => cell.1) ↔
        (commandRow l.cmd = .fill ∨ commandRow l.cmd = .imageXrgb8888Normal) ∧ l.regime c = .nmFull))

/-- For every descriptor in the regime without a mask at full opacity and every memory: RGB888 onto 3-byte pixels, the
copy's write set is the general path's; XRGB8888 onto 4-byte pixels, every pair of the general path is in the
copy's, and where the preconditions hold byte 3 of each pixel is written by the copy, from the source's pad byte,
and left by the general path. Formalises R185. -/
def Obligations.RawRowCopyAgreesWithTheGeneralPath : Prop :=
  ∀ (c : Config) (l : Descriptor) (m0 : Memory), l.regime c = .nmFull →
    (l.pixelSize = 3 →
      imageWriteSet .rgb888 .normal c l m0 = overRegion l (imagePixel c l m0 .rgb888 .normal)) ∧
    (l.pixelSize = 4 →
      (∀ cell ∈ overRegion l (imagePixel c l m0 .xrgb8888 .normal), cell ∈ imageWriteSet .xrgb8888 .normal c l m0) ∧
      (violation c l = none → ∀ x y : Nat, x < l.width → y < l.height →
        finalValue (imageWriteSet .xrgb8888 .normal c l m0) (destAddress c l x y + 3) =
          some (memRead8 c m0 (srcAddress c l 4 x y + 3)) ∧
        finalValue (overRegion l (imagePixel c l m0 .xrgb8888 .normal)) (destAddress c l x y + 3) = none))

/-- For every configuration, descriptor and memory: for a FILL, other BLEND, SRC_FMT, SRC_ADDR and SRC_STRIDE; for an
image command, another COLOR; for any command without a mask, other MASK_ADDR and MASK_STRIDE, give the same row,
the same precondition outcome, the same write set and the same footprints. Formalises R99. -/
def Obligations.IgnoredFieldsHaveNoEffect : Prop :=
  ∀ (c : Config) (l : Descriptor) (m0 : Memory) (p q : Word),
    let same := fun l' : Descriptor =>
      commandRow l'.cmd = commandRow l.cmd ∧ violation c l' = violation c l ∧
      commandWriteSet c l' m0 = commandWriteSet c l m0 ∧ destFootprint c l' = destFootprint c l ∧
      srcFootprint c l' = srcFootprint c l ∧ maskFootprint c l' = maskFootprint c l
    (∀ (dpx maskEn : Bool) (blend blend' : BitVec 2) (srcFmt srcFmt' : Byte),
      l.cmd = encodeFields 1 dpx maskEn blend srcFmt →
      same { l with cmd := encodeFields 1 dpx maskEn blend' srcFmt', srcAddr := p, srcStride := q }) ∧
    (cmdOp l.cmd = 2 → same { l with color := p }) ∧
    (cmdMaskEn l.cmd = false → same { l with maskAddr := p, maskStride := q })

/-- For every IDLE state and every FILL and supported image command: it is refused exactly when a precondition fails,
and no precondition fails exactly when: over a non-empty region the last byte of each buffer the command has lies
below 2^ADDR_W; with two rows or more DS is at least W; no destination byte is a source or mask byte; and every
footprint byte is ordinary memory by the platform's map. (Which memory is ordinary, that an empty region is exempt
from the first, and the name a refusal carries are the model's reading, assumption log 9 and 10.) Derived from
20_memory.md section 4 (R69, R70, R71, R72), 60_exceptions.md section 1 (R224), assumption log 9, assumption log 10. -/
def Obligations.PreconditionsDecideAcceptance : Prop :=
  (∀ (c : Config) (l : Descriptor), violation c l = none ↔
      (l.width ≠ 0 → l.height ≠ 0 →
        baseAddress c l.destAddr + ((l.height - 1) * l.destStep + (l.width - 1)) * l.pixelSize + (l.pixelSize - 1)
          < 2 ^ c.addrW ∧
        (∀ fmt, l.source = some fmt →
          baseAddress c l.srcAddr + ((l.height - 1) * l.srcStep + (l.width - 1)) * srcPixelSize fmt
            + (srcPixelSize fmt - 1) < 2 ^ c.addrW) ∧
        (l.maskEn = true →
          baseAddress c l.maskAddr + ((l.height - 1) * l.maskStep + (l.width - 1)) < 2 ^ c.addrW)) ∧
      (2 ≤ l.height → l.width ≤ l.destStep) ∧
      (∀ a ∈ destFootprint c l, a ∉ srcFootprint c l ∧ a ∉ maskFootprint c l) ∧
      (∀ a ∈ destFootprint c l ++ srcFootprint c l ++ maskFootprint c l, c.ordinary a = true)) ∧
    (∀ (s : State) (dpx maskEn : Bool) (blend : BitVec 2) (srcFmt : Byte) (r : Refusal), s.phase = .idle →
      (exec (.fill dpx maskEn blend srcFmt) s = .refused r ↔
        violation s.cfg { s.desc with cmd := encodeFields 1 dpx maskEn blend srcFmt } = some r)) ∧
    (∀ (s : State) (fmt : SrcFmt) (mode : BlendMode) (dpx maskEn : Bool) (r : Refusal), s.phase = .idle →
      (exec (imageInstr fmt mode dpx maskEn) s = .refused r ↔
        violation s.cfg { s.desc with cmd := encodeImage fmt mode dpx maskEn } = some r))

/-- For every running state whose next event is a host store to ordinary memory: it is refused when the byte lies in the
destination, source or mask footprint of the running command, and otherwise it writes the byte and changes nothing
else, the running command included, and where the invariant holds the byte then reads as written and every other
byte as before. Formalises R80. -/
def Obligations.AHostStoreWhileRunningKeepsOffTheFootprints : Prop :=
  ∀ (s : State) (job : Job) (a : Nat) (v : Byte) (rest : List Event), s.phase = .running job →
    s.agenda = .store a v :: rest → a < 2 ^ s.cfg.addrW → s.cfg.ordinary a = true →
    (a ∈ destFootprint s.cfg s.latched ++ srcFootprint s.cfg s.latched ++ maskFootprint s.cfg s.latched →
      step s = .refused .footprintWritten) ∧
    (a ∉ destFootprint s.cfg s.latched ++ srcFootprint s.cfg s.latched ++ maskFootprint s.cfg s.latched →
      step s = .next { s with agenda := rest, mem := s.mem.write a v } ∧
      (s.Inv → (s.mem.write a v).read a = v ∧ ∀ b : Nat, b ≠ a → (s.mem.write a v).read b = s.mem.read b))

/-- For every state that meets the invariant whose next event is a host load from ordinary memory. While a command runs
a source or mask byte returns its value; a destination byte returns, as the event chooses, its value in M0 or the
final value the command writes to it; a byte outside the three footprints returns what memory holds, whatever the
event says, and so does a load in an IDLE engine. Nothing else changes. Derived from 20_memory.md section 6 (R81),
43_command_control.md section 2 (R204). -/
def Obligations.AHostReadWhileRunningSeesTheOldOrTheFinalValue : Prop :=
  ∀ (s : State) (a : Nat) (sawFinal : Bool) (rest : List Event), s.Inv → s.agenda = .load a sawFinal :: rest →
    a < 2 ^ s.cfg.addrW → s.cfg.ordinary a = true →
    (s.phase = .idle → step s = .next { s with agenda := rest, hostData := (s.mem.read a).setWidth 32 }) ∧
    (∀ job : Job, s.phase = .running job →
      (a ∈ srcFootprint s.cfg s.latched ++ maskFootprint s.cfg s.latched →
        step s = .next { s with agenda := rest, hostData := (s.mem.read a).setWidth 32 }) ∧
      (a ∈ destFootprint s.cfg s.latched →
        step s = .next { s with
          agenda := rest
          hostData := (if sawFinal then afterCommand job.ws job.m0 a else job.m0.read a).setWidth 32 }) ∧
      (a ∉ destFootprint s.cfg s.latched ++ srcFootprint s.cfg s.latched ++ maskFootprint s.cfg s.latched →
        step s = .next { s with agenda := rest, hostData := (s.mem.read a).setWidth 32 }))

/-- For every running state and every write of a descriptor register: exec answers a next state whose register reads
back the written fields, whose L, phase, write set and memory are as before; and the engine's next step from there
is its step from the old state with only the registers different. Formalises R208. -/
def Obligations.DescriptorWritesDoNotTouchTheRunningCommand : Prop :=
  ∀ (s : State) (job : Job) (r : DescReg) (v : Word) (k : Nat), s.phase = .running job →
    ∃ t, exec (r.writeInstr v) s = .next t ∧ t.readReg r = v &&& r.fieldMask s.cfg ∧ t.latched = s.latched ∧
      t.phase = .running job ∧ t.mem = s.mem ∧ engineStep k t = { engineStep k s with desc := t.desc }

/-- For every IDLE state and any other contents of L: the step answers the same fault or refusal, or next states that
are equal once L is set aside. So the value State.reset gives L (the model's choice, assumption log 4) matters to
nothing. Derived from 10_state.md section 3 (R37), 10_state.md section 4 (R41), assumption log 4. -/
def Obligations.NothingReadsLBeforeAnAcceptance : Prop :=
  ∀ (s : State) (l : Descriptor), s.phase = .idle →
    (∀ t, step s = .next t → ∃ t', step { s with latched := l } = .next t' ∧
      ∀ z : Descriptor, { t' with latched := z } = { t with latched := z }) ∧
    (∀ r, step s = .fault r → step { s with latched := l } = .fault r) ∧
    (∀ r, step s = .refused r → step { s with latched := l } = .refused r)

/-- For every instruction that answers a next state: memory, the parameters and the agenda are unchanged, so every byte
reads as before; the registers change only under a descriptor write; the value the host sees only under a register
read; IRQ_EN only under WR.CTRL; L, the phase and ERR only under a command or WR.CTRL; DONE only under those and
WR.STATUS. Derived from 20_memory.md section 8 (R87), 43_command_control.md section 1, 20_memory.md section 6. -/
def Obligations.NoInstructionWritesMemoryOrMoreThanItsOwn : Prop :=
  ∀ (i : Instr) (s t : State), exec i s = .next t →
    t.mem = s.mem ∧ t.cfg = s.cfg ∧ t.agenda = s.agenda ∧
    (instrKind i ≠ .descriptorWrite → t.desc = s.desc) ∧
    (instrKind i ≠ .read → t.hostData = s.hostData) ∧
    (instrKind i ≠ .ctrlWrite → t.irqEn = s.irqEn) ∧
    (instrKind i ≠ .command → instrKind i ≠ .ctrlWrite →
      t.latched = s.latched ∧ t.phase = s.phase ∧ t.err = s.err ∧ (instrKind i ≠ .statusWrite → t.done = s.done))

/-- For every running state, if a step answers an IDLE state then either nothing was pending, the step was the engine's,
and DONE is 1 with ERR 0; or the event was a bus error, with DONE 1 and ERR 3; or it was a reset. No register access
and no memory access of the host ends it. Derived from 43_command_control.md section 3 (R209), 60_exceptions.md
sections 1 and 3. -/
def Obligations.OnlyCompletionBusErrorOrResetEndsACommand : Prop :=
  ∀ (s t : State) (job : Job), s.phase = .running job → step s = .next t → t.phase = .idle →
    (job.pending = [] ∧ t.done = true ∧ t.err = .ok ∧
      (s.agenda = [] ∨ ∃ k rest, s.agenda = .engine k :: rest)) ∨
    (t.done = true ∧ t.err = .busError ∧ ∃ rest, s.agenda = .busError :: rest) ∨
    ∃ l rest, s.agenda = .reset l :: rest

/-- For every IDLE state whose step answers a next state: unless the event is a host access that decodes to WR.CTRL with
START, or a reset, ERR is unchanged, and DONE is unchanged unless the access decodes to WR.STATUS with bit 1 set.
Derived from 60_exceptions.md section 4 (R230), 70_reset_and_hazards.md section 3 (R249). -/
def Obligations.ErrIsKeptUntilTheNextAcceptance : Prop :=
  ∀ s t : State, s.phase = .idle → step s = .next t →
    (∃ a rest v, s.agenda = .reg a :: rest ∧ decode s.cfg.regBase (.access a) = .ok (.wrCtrl v) ∧ v.getLsbD 0 = true) ∨
    (∃ l rest, s.agenda = .reset l :: rest) ∨
    (t.err = s.err ∧ (t.done = s.done ∨ ∃ a rest v, s.agenda = .reg a :: rest ∧
      decode s.cfg.regBase (.access a) = .ok (.wrStatus v) ∧ v.getLsbD 1 = true))

/-- For every state, if a step answers a next state, the parameters are unchanged, and CONFIG reads as before. Derived
from 10_state.md section 2 (CONFIG). -/
def Obligations.ConfigIsTheSameForEver : Prop :=
  ∀ s t : State, step s = .next t → t.cfg = s.cfg ∧ t.configWord = s.configWord

/-- For every state whose step does not answer a next state, the next event is a host access that is no defined register
access, or a START in an IDLE engine of a command that violates a precondition, or a host load or store beyond the
address space or outside ordinary memory (which stop by the model's choice, assumption log 13), or a host store to a
footprint byte of the running command. Derived from 93_implementation_defined.md section 1, 60_exceptions.md section
1 (R224), 20_memory.md sections 4, 6 and 8, assumption log 13. -/
def Obligations.AStepStopsOnlyForTheReasonsNamed : Prop :=
  ∀ s : State, ¬SafeStep s →
    (∃ a rest, s.agenda = .reg a :: rest ∧
      ((∀ i, decode s.cfg.regBase (.access a) ≠ .ok i) ∨
        ∃ v, decode s.cfg.regBase (.access a) = .ok (.wrCtrl v) ∧ v.getLsbD 0 = true ∧ s.phase = .idle ∧
          violation s.cfg { s.desc with cmd := s.desc.cmd &&& 0x0000FF3F } ≠ none)) ∨
    (∃ a rest, ((∃ b, s.agenda = .load a b :: rest) ∨ ∃ v, s.agenda = .store a v :: rest) ∧
      (2 ^ s.cfg.addrW ≤ a ∨ s.cfg.ordinary a = false)) ∨
    ∃ a v rest, s.agenda = .store a v :: rest ∧ inRunningFootprint a s = true

/-- For every IDLE state with nothing on its agenda the step answers the state itself: the engine runs nothing until a
START. (That such a step is a next state and not a stop is the model's choice, assumption log 14.) Derived from
70_reset_and_hazards.md section 1 (R240), assumption log 14. -/
def Obligations.AnIdleEngineRunsNothing : Prop :=
  ∀ s : State, s.phase = .idle → s.agenda = [] → step s = .next s

/-- For every IDLE state whose next event is a host store to ordinary memory: the step answers the state with the byte
written and nothing else changed but the event taken off, and where the invariant holds the byte then reads as
written and every other byte as before. (That a store takes effect in its own step is the model's reading,
assumption log 17; which memory is ordinary, assumption log 9.) Derived from 20_memory.md sections 1, 4 and 6 (R60,
R72, R78), assumption log 9, assumption log 17. -/
def Obligations.AHostStoreIntoAnIdleEngineWritesItsByte : Prop :=
  ∀ (s : State) (a : Nat) (v : Byte) (rest : List Event), s.phase = .idle → s.agenda = .store a v :: rest →
    a < 2 ^ s.cfg.addrW → s.cfg.ordinary a = true →
    step s = .next { s with agenda := rest, mem := s.mem.write a v } ∧
    (s.Inv → (s.mem.write a v).read a = v ∧ ∀ b : Nat, b ≠ a → (s.mem.write a v).read b = s.mem.read b)
end

