-- ==== Sys2Proof/Laws/Decode.lean ====
section
/-! SUPPORT. The laws of the encodings: what each field of an assembled word reads, which row a word's fields select, that the
row found fits the word, and that the register offsets decode to the registers. -/

namespace Sys2Proof

/-! ### Fields -/

/-- The word under the mask of OP. -/
theorem word_and_op (w : Word) : w &&& 0x00000003 = (cmdOp w).setWidth 32 := by
  apply BitVec.eq_of_getLsbD_eq
  intro i hi
  interval_cases i <;> simp [cmdOp]

@[simp] theorem cmdOp_encodeFields (op : BitVec 2) (d m : Bool) (b : BitVec 2) (f : Byte) :
    cmdOp (encodeFields op d m b f) = op := by
  apply BitVec.eq_of_getLsbD_eq
  intro i hi
  interval_cases i <;> simp [cmdOp, encodeFields, placeField]

@[simp] theorem cmdDpx_encodeFields (op : BitVec 2) (d m : Bool) (b : BitVec 2) (f : Byte) :
    cmdDpx (encodeFields op d m b f) = d := by
  simp [cmdDpx, encodeFields, placeField]
@[simp] theorem cmdMaskEn_encodeFields (op : BitVec 2) (d m : Bool) (b : BitVec 2) (f : Byte) :
    cmdMaskEn (encodeFields op d m b f) = m := by
  simp [cmdMaskEn, encodeFields, placeField]

@[simp] theorem cmdBlend_encodeFields (op : BitVec 2) (d m : Bool) (b : BitVec 2) (f : Byte) :
    cmdBlend (encodeFields op d m b f) = b := by
  apply BitVec.eq_of_getLsbD_eq
  intro i hi
  interval_cases i <;> simp [cmdBlend, encodeFields, placeField]
@[simp] theorem cmdSrcFmt_encodeFields (op : BitVec 2) (d m : Bool) (b : BitVec 2) (f : Byte) :
    cmdSrcFmt (encodeFields op d m b f) = f := by
  apply BitVec.eq_of_getLsbD_eq
  intro i hi
  interval_cases i <;> simp [cmdSrcFmt, encodeFields, placeField]

/-- The word with DPX, MASK_EN and the reserved bits taken out, in its fields. -/
theorem word_and_image (w : Word) :
    w &&& 0x0000FF33 = encodeFields (cmdOp w) false false (cmdBlend w) (cmdSrcFmt w) := by
  apply BitVec.eq_of_getLsbD_eq
  intro i hi
  interval_cases i <;> simp [cmdOp, cmdBlend, cmdSrcFmt, encodeFields, placeField]

/-- The word without its reserved bits, in its fields. -/
theorem word_and_fields (w : Word) :
    w &&& cmdFieldMask = encodeFields (cmdOp w) (cmdDpx w) (cmdMaskEn w) (cmdBlend w) (cmdSrcFmt w) := by
  apply BitVec.eq_of_getLsbD_eq
  intro i hi
  interval_cases i <;> simp [cmdFieldMask, cmdOp, cmdDpx, cmdMaskEn, cmdBlend, cmdSrcFmt, encodeFields, placeField]

/-- A word's fields are determined by it. -/
theorem encodeFields_inj {o o' : BitVec 2} {d d' m m' : Bool} {b b' : BitVec 2} {f f' : Byte}
    (h : encodeFields o d m b f = encodeFields o' d' m' b' f') : o = o' ∧ d = d' ∧ m = m' ∧ b = b' ∧ f = f' :=
  ⟨by simpa only [cmdOp_encodeFields] using congrArg cmdOp h,
   by simpa only [cmdDpx_encodeFields] using congrArg cmdDpx h,
   by simpa only [cmdMaskEn_encodeFields] using congrArg cmdMaskEn h,
   by simpa only [cmdBlend_encodeFields] using congrArg cmdBlend h,
   by simpa only [cmdSrcFmt_encodeFields] using congrArg cmdSrcFmt h⟩

/-! ### Rows -/

/-- The row a word's fields select, as a case distinction. -/
def rowOf (op blend : BitVec 2) (fmt : Byte) : CommandRow :=
  if op = 1 then .fill
  else if op = 2 then
    if fmt = 0x12 then
      (if blend = 0 then .imageRgb565Normal else if blend = 1 then .imageRgb565Add
       else if blend = 2 then .imageRgb565Sub else .imageRgb565Mul)
    else if fmt = 0x0F then
      (if blend = 0 then .imageRgb888Normal else if blend = 1 then .imageRgb888Add
       else if blend = 2 then .imageRgb888Sub else .imageRgb888Mul)
    else if fmt = 0x11 then
      (if blend = 0 then .imageXrgb8888Normal else if blend = 1 then .imageXrgb8888Add
       else if blend = 2 then .imageXrgb8888Sub else .imageXrgb8888Mul)
    else if fmt = 0x10 then
      (if blend = 0 then .imageArgb8888Normal else if blend = 1 then .imageArgb8888Add
       else if blend = 2 then .imageArgb8888Sub else .imageArgb8888Mul)
    else .imageUnsupported
  else if op = 0 then .illegalOp0
  else .illegalOp3

theorem and_op_eq (w : Word) (k : BitVec 2) : (w &&& 0x00000003 = k.setWidth 32) ↔ cmdOp w = k := by
  rw [word_and_op]
  constructor
  · intro h
    have := congrArg (BitVec.setWidth 2) h
    simpa using this
  · rintro rfl; rfl

theorem and_image_eq (w : Word) (b : BitVec 2) (f : Byte) :
    (w &&& 0x0000FF33 = encodeFields 2 false false b f) ↔ cmdOp w = 2 ∧ cmdSrcFmt w = f ∧ cmdBlend w = b := by
  rw [word_and_image]
  constructor
  · intro h
    obtain ⟨h1, -, -, h2, h3⟩ := encodeFields_inj h
    exact ⟨h1, h3, h2⟩
  · rintro ⟨h1, h2, h3⟩
    rw [h1, h2, h3]

theorem blend_cases (b : BitVec 2) : b = 0 ∨ b = 1 ∨ b = 2 ∨ b = 3 := by revert b; decide
/-- The row of a word is the one its OP, BLEND and SRC_FMT fields select. -/
theorem commandRow_eq (w : Word) : commandRow w = rowOf (cmdOp w) (cmdBlend w) (cmdSrcFmt w) := by
  have hop : ∀ (r : CommandRow) (k : BitVec 2), r.mask = 0x00000003 → r.pattern = k.setWidth 32 →
      r.fits w = decide (cmdOp w = k) := by
    intro r k hm hp
    simp only [CommandRow.fits, hm, hp]
    exact decide_eq_decide.2 (and_op_eq w k)
  have him : ∀ (r : CommandRow) (b : BitVec 2) (f : Byte), r.mask = 0x0000FF33 →
      r.pattern = encodeFields 2 false false b f →
      r.fits w = decide (cmdOp w = 2 ∧ cmdSrcFmt w = f ∧ cmdBlend w = b) := by
    intro r b f hm hp
    simp only [CommandRow.fits, hm, hp]
    exact decide_eq_decide.2 (and_image_eq w b f)
  simp only [commandRow, commandRows, List.find?,
    hop .fill 1 rfl rfl, hop .imageUnsupported 2 rfl rfl, hop .illegalOp0 0 rfl rfl, hop .illegalOp3 3 rfl rfl,
    him .imageRgb565Normal 0 0x12 rfl rfl, him .imageRgb565Add 1 0x12 rfl rfl,
    him .imageRgb565Sub 2 0x12 rfl rfl, him .imageRgb565Mul 3 0x12 rfl rfl,
    him .imageRgb888Normal 0 0x0F rfl rfl, him .imageRgb888Add 1 0x0F rfl rfl,
    him .imageRgb888Sub 2 0x0F rfl rfl, him .imageRgb888Mul 3 0x0F rfl rfl,
    him .imageXrgb8888Normal 0 0x11 rfl rfl, him .imageXrgb8888Add 1 0x11 rfl rfl,
    him .imageXrgb8888Sub 2 0x11 rfl rfl, him .imageXrgb8888Mul 3 0x11 rfl rfl,
    him .imageArgb8888Normal 0 0x10 rfl rfl, him .imageArgb8888Add 1 0x10 rfl rfl,
    him .imageArgb8888Sub 2 0x10 rfl rfl, him .imageArgb8888Mul 3 0x10 rfl rfl]
  generalize cmdOp w = o
  generalize cmdBlend w = b
  generalize cmdSrcFmt w = f
  obtain rfl | rfl | rfl | rfl := blend_cases o
  · simp [rowOf]
  · simp [rowOf]
  · by_cases h1 : f = 0x12#8
    · subst h1; obtain rfl | rfl | rfl | rfl := blend_cases b <;> rfl
    by_cases h2 : f = 0x0F#8
    · subst h2; obtain rfl | rfl | rfl | rfl := blend_cases b <;> rfl
    by_cases h3 : f = 0x11#8
    · subst h3; obtain rfl | rfl | rfl | rfl := blend_cases b <;> rfl
    by_cases h4 : f = 0x10#8
    · subst h4; obtain rfl | rfl | rfl | rfl := blend_cases b <;> rfl
    simp [rowOf, h1, h2, h3, h4]
  · simp [rowOf]

/-- The row found fits the word: with R107's order, R108's "every command word is exactly one row". -/
theorem commandRow_fits (w : Word) : (commandRow w).fits w = true := by
  unfold commandRow
  cases h : commandRows.find? (fun r => r.fits w) with
  | some r => simpa using List.find?_some h
  | none =>
    have hall := List.find?_eq_none.1 h
    have hno : ∀ r ∈ commandRows, r.fits w ≠ true := fun r hr => by simpa using hall r hr
    have hop : ∀ (r : CommandRow) (k : BitVec 2), r ∈ commandRows → r.mask = 0x00000003 →
        r.pattern = k.setWidth 32 → cmdOp w ≠ k := by
      intro r k hr hm hp hk
      apply hno r hr
      simp only [CommandRow.fits, hm, hp]
      exact decide_eq_true ((and_op_eq w k).2 hk)
    rcases blend_cases (cmdOp w) with h0 | h1 | h2 | h3
    · exact absurd h0 (hop .illegalOp0 0 (by decide) rfl rfl)
    · exact absurd h1 (hop .fill 1 (by decide) rfl rfl)
    · exact absurd h2 (hop .imageUnsupported 2 (by decide) rfl rfl)
    · exact absurd h3 (hop .illegalOp3 3 (by decide) rfl rfl)

/-- The reserved bits of a word do not change its row (R97). -/
theorem commandRow_and_fields (w : Word) : commandRow (w &&& cmdFieldMask) = commandRow w := by
  rw [commandRow_eq, commandRow_eq w, word_and_fields]
  simp

/-- The reserved bits of a word do not change what it decodes to (R97). -/
theorem decodeCommand_and_fields (w : Word) : decodeCommand (w &&& cmdFieldMask) = decodeCommand w := by
  unfold decodeCommand
  rw [commandRow_and_fields]
  cases commandRow w <;> simp [CommandRow.instr, word_and_fields]

/-! ### Register accesses -/

/-- A well-placed aligned 32-bit access decodes by its offset and direction (20_memory.md R86). -/
theorem decode_encodeAccess (b k : Nat) (dir : Direction) (v : Word) (hk : k < blockSize) (h4 : k % 4 = 0) :
    decode b (encodeAccess b k dir v) = .ok (match dir with
      | .read => decodeRead k
      | .write => decodeWrite k v) := by
  have h1 : ¬(b + k < b ∨ b + blockSize ≤ b + k) := by omega
  simp only [decode, encodeAccess, decodeAccess, if_neg h1, Nat.add_sub_cancel_left]
  cases dir <;> simp [h4]

/-- A reserved offset is a reserved read (10_state.md R21). -/
theorem decodeRead_reserved (offset : Byte) (h : reservedOffset offset = true) :
    decodeRead offset.toNat = .rdReserved offset := by
  revert offset
  decide

/-- A reserved offset is a reserved write (10_state.md R21). -/
theorem decodeWrite_reserved (offset : Byte) (v : Word) (h : reservedOffset offset = true) :
    decodeWrite offset.toNat v = .wrReserved offset v := by
  have h34 : 0x34 ≤ offset.toNat := by
    simp only [reservedOffset, Bool.and_eq_true, decide_eq_true_eq] at h
    exact h.1
  unfold decodeWrite
  split <;> first | omega | simp

end Sys2Proof
end

