-- ==== Sys2Proof/Laws/Memory.lean ====
section
/-! SUPPORT. The laws of memory: what is read after a write, and that a write keeps the canonical form and the range. -/

namespace Sys2Proof.Machine

/-- Entries of a rising list above `lo` do not list an address at or below it. -/
theorem read_of_wfFrom (m : Memory) (k a : Nat) (h : Memory.wfFrom (some k) m = true) (hle : a ≤ k) :
    m.read a = unlistedByte := by
  induction m generalizing k with
  | nil => rfl
  | cons e m ih =>
    obtain ⟨b, v⟩ := e
    simp only [Memory.wfFrom, Bool.and_eq_true, decide_eq_true_eq] at h
    obtain ⟨⟨hk, -⟩, hm⟩ := h
    have hne : a ≠ b := by omega
    simp only [Memory.read, if_neg hne]
    exact ih b hm (by omega)

/-- A tail is rising above any smaller bound. -/
theorem wfFrom_weaken (m : Memory) (j k : Nat) (h : Memory.wfFrom (some k) m = true) (hle : j ≤ k) :
    Memory.wfFrom (some j) m = true := by
  cases m with
  | nil => rfl
  | cons e m =>
    obtain ⟨b, v⟩ := e
    simp only [Memory.wfFrom, Bool.and_eq_true, decide_eq_true_eq] at h ⊢
    exact ⟨⟨by omega, h.1.2⟩, h.2⟩

/-- The lower bound of a rising list. -/
def below : Option Nat → Nat → Prop
  | none, _ => True
  | some k, a => k < a

theorem wfFrom_cons (lo : Option Nat) (b : Nat) (v : Byte) (m : Memory) :
    Memory.wfFrom lo ((b, v) :: m) = true ↔ below lo b ∧ v ≠ unlistedByte ∧ Memory.wfFrom (some b) m = true := by
  cases lo <;> simp [Memory.wfFrom, below, and_assoc]

/-- A write keeps the canonical form above a bound. -/
theorem write_wfFrom (m : Memory) (lo : Option Nat) (a : Nat) (v : Byte) (h : Memory.wfFrom lo m = true)
    (hlo : below lo a) : Memory.wfFrom lo (m.write a v) = true := by
  induction m generalizing lo with
  | nil =>
    simp only [Memory.write]
    split
    · rfl
    · next hv => exact (wfFrom_cons lo a v []).2 ⟨hlo, hv, rfl⟩
  | cons e m ih =>
    obtain ⟨b, u⟩ := e
    obtain ⟨hb, hu, hm⟩ := (wfFrom_cons lo b u m).1 h
    simp only [Memory.write]
    split
    · next hab =>
      split
      · exact h
      · next hv => exact (wfFrom_cons ..).2 ⟨hlo, hv, (wfFrom_cons ..).2 ⟨hab, hu, hm⟩⟩
    · next hab =>
      split
      · next heq =>
        subst heq
        split
        · cases lo with
          | none =>
            cases m with
            | nil => rfl
            | cons e m =>
              obtain ⟨b, w⟩ := e
              obtain ⟨-, hw, hm'⟩ := (wfFrom_cons ..).1 hm
              exact (wfFrom_cons ..).2 ⟨trivial, hw, hm'⟩
          | some k => exact wfFrom_weaken m k a hm (Nat.le_of_lt hlo)
        · next hv => exact (wfFrom_cons ..).2 ⟨hlo, hv, hm⟩
      · next hne => exact (wfFrom_cons ..).2 ⟨hb, hu, ih (some b) hm (by simp only [below]; omega)⟩

/-- A write keeps the canonical form. -/
theorem write_wf (m : Memory) (a : Nat) (v : Byte) (h : m.wf = true) : (m.write a v).wf = true :=
  write_wfFrom m none a v h trivial

/-- Reading back a rising list after a write, above a bound. -/
theorem read_write_from (m : Memory) (lo : Option Nat) (a b : Nat) (v : Byte) (h : Memory.wfFrom lo m = true) :
    (m.write a v).read b = if b = a then v else m.read b := by
  induction m generalizing lo with
  | nil =>
    simp only [Memory.write]
    split <;> split <;> simp_all [Memory.read]
  | cons e m ih =>
    obtain ⟨k, u⟩ := e
    obtain ⟨-, -, hm⟩ := (wfFrom_cons lo k u m).1 h
    simp only [Memory.write]
    split
    · next hak =>
      split
      · next hv =>
        split
        · next hb =>
          have hne : b ≠ k := by omega
          simp only [Memory.read, if_neg hne, hv]
          exact read_of_wfFrom m k b hm (by omega)
        · rfl
      · simp [Memory.read]
    · next hak =>
      split
      · next heq =>
        subst heq
        split
        · next hv =>
          split
          · next hb => rw [hb, hv]; exact read_of_wfFrom m a a hm (Nat.le_refl a)
          · next hb => simp [Memory.read, if_neg hb]
        · simp only [Memory.read]
          split <;> rfl
      · next hne =>
        simp only [Memory.read]
        rw [ih (some k) hm]
        split
        · next hbk =>
          have : b ≠ a := by omega
          rw [if_neg this]
        · rfl

/-- A read after a write to the same address gives the value written. -/
theorem read_write_same (m : Memory) (a : Nat) (v : Byte) (h : m.wf = true) : (m.write a v).read a = v := by
  rw [read_write_from m none a a v h, if_pos rfl]

/-- A write leaves every other address alone. -/
theorem read_write_other (m : Memory) (a b : Nat) (v : Byte) (h : m.wf = true) (hne : b ≠ a) :
    (m.write a v).read b = m.read b := by
  rw [read_write_from m none a b v h, if_neg hne]

/-- What a write lists was listed before or is the byte written. -/
theorem mem_write (m : Memory) (a : Nat) (v : Byte) (cell : Host.Cell) (h : cell ∈ m.write a v) :
    cell = (a, v) ∨ cell ∈ m := by
  induction m with
  | nil =>
    simp only [Memory.write] at h
    split at h <;> simp_all
  | cons e m ih =>
    obtain ⟨k, u⟩ := e
    simp only [Memory.write] at h
    split at h
    · split at h <;> simp_all
    · split at h
      · split at h
        · exact .inr (List.mem_cons_of_mem _ h)
        · rcases List.mem_cons.1 h with h | h
          · exact .inl h
          · exact .inr (List.mem_cons_of_mem _ h)
      · rcases List.mem_cons.1 h with h | h
        · exact .inr (h ▸ List.mem_cons_self)
        · rcases ih h with h | h
          · exact .inl h
          · exact .inr (List.mem_cons_of_mem _ h)

/-- A write below a bound keeps every listed address below it. -/
theorem write_range (m : Memory) (a n : Nat) (v : Byte) (h : ∀ cell ∈ m, cell.1 < n) (ha : a < n) :
    ∀ cell ∈ m.write a v, cell.1 < n := by
  intro cell hc
  rcases mem_write m a v cell hc with rfl | hm
  · exact ha
  · exact h cell hm

/-- Two rising lists above bounds that read the same everywhere are the same list. -/
theorem ext_from (m n : Memory) (lo lo' : Option Nat) (hm : Memory.wfFrom lo m = true) (hn : Memory.wfFrom lo' n = true)
    (h : ∀ a, m.read a = n.read a) : m = n := by
  induction m generalizing n lo lo' with
  | nil =>
    cases n with
    | nil => rfl
    | cons e n =>
      obtain ⟨b, v⟩ := e
      have hb := h b
      simp only [Memory.read, if_true] at hb
      exact absurd hb.symm ((wfFrom_cons lo' b v n).1 hn).2.1
  | cons e m ih =>
    obtain ⟨b, v⟩ := e
    obtain ⟨-, hv, hm'⟩ := (wfFrom_cons lo b v m).1 hm
    cases n with
    | nil =>
      have hb := h b
      simp only [Memory.read, if_true] at hb
      exact absurd hb hv
    | cons e' n =>
      obtain ⟨b', v'⟩ := e'
      obtain ⟨-, hv', hn'⟩ := (wfFrom_cons lo' b' v' n).1 hn
      have hbb : b = b' := by
        rcases Nat.lt_trichotomy b b' with hlt | heq | hgt
        · have hb := h b
          simp only [Memory.read, if_true, if_neg (Nat.ne_of_lt hlt)] at hb
          rw [read_of_wfFrom n b' b hn' (Nat.le_of_lt hlt)] at hb
          exact absurd hb hv
        · exact heq
        · have hb := h b'
          simp only [Memory.read, if_true, if_neg (Nat.ne_of_lt hgt)] at hb
          rw [read_of_wfFrom m b b' hm' (Nat.le_of_lt hgt)] at hb
          exact absurd hb.symm hv'
      subst hbb
      have hvv : v = v' := by simpa only [Memory.read, if_true] using h b
      subst hvv
      refine congrArg _ (ih n (some b) (some b) hm' hn' fun a => ?_)
      by_cases hab : a ≤ b
      · rw [read_of_wfFrom m b a hm' hab, read_of_wfFrom n b a hn' hab]
      · have ha := h a
        simpa only [Memory.read, if_neg (show a ≠ b by omega)] using ha

/-- Equal reads are equal memories, in canonical form. -/
theorem memory_ext (m n : Memory) (hm : m.wf = true) (hn : n.wf = true) (h : ∀ a, m.read a = n.read a) : m = n :=
  ext_from m n none none hm hn h

end Sys2Proof.Machine
end

