-- ==== Sys2Proof/Laws/PerInstr.lean ====
section
/-! SUPPORT. What holds of every instruction as syntax, one lemma per constructor: the family RoundTrip says that decoding
the words of a well-formed instruction gives it back, wherever the platform places the register block. -/

namespace Sys2Proof.Laws.RoundTrip

/-- Decoding what the encoder makes of the instruction gives it back. -/
def Statement (i : Instr) : Prop :=
  i.wellFormed = true → ∀ regBase : Nat, decode regBase (encode regBase i) = .ok i

/-- A command word whose fields select a row decodes to that row's instruction. -/
theorem of_command (regBase : Nat) (op : BitVec 2) (d m : Bool) (b : BitVec 2) (f : Byte) (r : CommandRow)
    (h : rowOf op b f = r) :
    decode regBase (.command (encodeFields op d m b f)) = .ok (r.instr (encodeFields op d m b f)) := by
  simp only [decode, decodeCommand, commandRow_eq, cmdOp_encodeFields, cmdBlend_encodeFields,
    cmdSrcFmt_encodeFields, h]

theorem fill (dpx maskEn : Bool) (blend : BitVec 2) (srcFmt : Byte) :
    Statement (.fill dpx maskEn blend srcFmt) := fun _ k => by
  rw [encode, of_command k 1 dpx maskEn blend srcFmt .fill rfl]; simp [CommandRow.instr]

theorem illegalOp0 (dpx maskEn : Bool) (blend : BitVec 2) (srcFmt : Byte) :
    Statement (.illegalOp0 dpx maskEn blend srcFmt) := fun _ k => by
  rw [encode, of_command k 0 dpx maskEn blend srcFmt .illegalOp0 rfl]; simp [CommandRow.instr]

theorem illegalOp3 (dpx maskEn : Bool) (blend : BitVec 2) (srcFmt : Byte) :
    Statement (.illegalOp3 dpx maskEn blend srcFmt) := fun _ k => by
  rw [encode, of_command k 3 dpx maskEn blend srcFmt .illegalOp3 rfl]; simp [CommandRow.instr]

theorem imageUnsupported (dpx maskEn : Bool) (blend : BitVec 2) (srcFmt : Byte) :
    Statement (.imageUnsupported dpx maskEn blend srcFmt) := fun h k => by
  simp only [Instr.wellFormed, unsupportedFormat, decide_eq_true_eq] at h
  obtain ⟨h1, h2, h3, h4⟩ := h
  rw [encode, of_command k 2 dpx maskEn blend srcFmt .imageUnsupported
    (by rw [rowOf, if_neg (by decide), if_pos rfl, if_neg h1, if_neg h2, if_neg h3, if_neg h4])]
  simp [CommandRow.instr]

theorem imageRgb565Normal (dpx maskEn : Bool) : Statement (.imageRgb565Normal dpx maskEn) := fun _ k => by
  rw [encode, encodeImage, of_command k 2 dpx maskEn _ _ .imageRgb565Normal rfl]; simp [CommandRow.instr]

theorem imageRgb565Add (dpx maskEn : Bool) : Statement (.imageRgb565Add dpx maskEn) := fun _ k => by
  rw [encode, encodeImage, of_command k 2 dpx maskEn _ _ .imageRgb565Add rfl]; simp [CommandRow.instr]

theorem imageRgb565Sub (dpx maskEn : Bool) : Statement (.imageRgb565Sub dpx maskEn) := fun _ k => by
  rw [encode, encodeImage, of_command k 2 dpx maskEn _ _ .imageRgb565Sub rfl]; simp [CommandRow.instr]

theorem imageRgb565Mul (dpx maskEn : Bool) : Statement (.imageRgb565Mul dpx maskEn) := fun _ k => by
  rw [encode, encodeImage, of_command k 2 dpx maskEn _ _ .imageRgb565Mul rfl]; simp [CommandRow.instr]

theorem imageRgb888Normal (dpx maskEn : Bool) : Statement (.imageRgb888Normal dpx maskEn) := fun _ k => by
  rw [encode, encodeImage, of_command k 2 dpx maskEn _ _ .imageRgb888Normal rfl]; simp [CommandRow.instr]

theorem imageRgb888Add (dpx maskEn : Bool) : Statement (.imageRgb888Add dpx maskEn) := fun _ k => by
  rw [encode, encodeImage, of_command k 2 dpx maskEn _ _ .imageRgb888Add rfl]; simp [CommandRow.instr]

theorem imageRgb888Sub (dpx maskEn : Bool) : Statement (.imageRgb888Sub dpx maskEn) := fun _ k => by
  rw [encode, encodeImage, of_command k 2 dpx maskEn _ _ .imageRgb888Sub rfl]; simp [CommandRow.instr]

theorem imageRgb888Mul (dpx maskEn : Bool) : Statement (.imageRgb888Mul dpx maskEn) := fun _ k => by
  rw [encode, encodeImage, of_command k 2 dpx maskEn _ _ .imageRgb888Mul rfl]; simp [CommandRow.instr]

theorem imageXrgb8888Normal (dpx maskEn : Bool) : Statement (.imageXrgb8888Normal dpx maskEn) := fun _ k => by
  rw [encode, encodeImage, of_command k 2 dpx maskEn _ _ .imageXrgb8888Normal rfl]; simp [CommandRow.instr]

theorem imageXrgb8888Add (dpx maskEn : Bool) : Statement (.imageXrgb8888Add dpx maskEn) := fun _ k => by
  rw [encode, encodeImage, of_command k 2 dpx maskEn _ _ .imageXrgb8888Add rfl]; simp [CommandRow.instr]

theorem imageXrgb8888Sub (dpx maskEn : Bool) : Statement (.imageXrgb8888Sub dpx maskEn) := fun _ k => by
  rw [encode, encodeImage, of_command k 2 dpx maskEn _ _ .imageXrgb8888Sub rfl]; simp [CommandRow.instr]

theorem imageXrgb8888Mul (dpx maskEn : Bool) : Statement (.imageXrgb8888Mul dpx maskEn) := fun _ k => by
  rw [encode, encodeImage, of_command k 2 dpx maskEn _ _ .imageXrgb8888Mul rfl]; simp [CommandRow.instr]

theorem imageArgb8888Normal (dpx maskEn : Bool) : Statement (.imageArgb8888Normal dpx maskEn) := fun _ k => by
  rw [encode, encodeImage, of_command k 2 dpx maskEn _ _ .imageArgb8888Normal rfl]; simp [CommandRow.instr]

theorem imageArgb8888Add (dpx maskEn : Bool) : Statement (.imageArgb8888Add dpx maskEn) := fun _ k => by
  rw [encode, encodeImage, of_command k 2 dpx maskEn _ _ .imageArgb8888Add rfl]; simp [CommandRow.instr]

theorem imageArgb8888Sub (dpx maskEn : Bool) : Statement (.imageArgb8888Sub dpx maskEn) := fun _ k => by
  rw [encode, encodeImage, of_command k 2 dpx maskEn _ _ .imageArgb8888Sub rfl]; simp [CommandRow.instr]

theorem imageArgb8888Mul (dpx maskEn : Bool) : Statement (.imageArgb8888Mul dpx maskEn) := fun _ k => by
  rw [encode, encodeImage, of_command k 2 dpx maskEn _ _ .imageArgb8888Mul rfl]; simp [CommandRow.instr]

theorem rdConfig : Statement .rdConfig := fun _ k => by
  rw [encode, decode_encodeAccess k _ _ _ (by decide) (by decide)]; rfl

theorem rdCtrl : Statement .rdCtrl := fun _ k => by
  rw [encode, decode_encodeAccess k _ _ _ (by decide) (by decide)]; rfl

theorem rdStatus : Statement .rdStatus := fun _ k => by
  rw [encode, decode_encodeAccess k _ _ _ (by decide) (by decide)]; rfl

theorem rdCmd : Statement .rdCmd := fun _ k => by
  rw [encode, decode_encodeAccess k _ _ _ (by decide) (by decide)]; rfl

theorem rdDestAddr : Statement .rdDestAddr := fun _ k => by
  rw [encode, decode_encodeAccess k _ _ _ (by decide) (by decide)]; rfl

theorem rdDestSize : Statement .rdDestSize := fun _ k => by
  rw [encode, decode_encodeAccess k _ _ _ (by decide) (by decide)]; rfl

theorem rdDestStride : Statement .rdDestStride := fun _ k => by
  rw [encode, decode_encodeAccess k _ _ _ (by decide) (by decide)]; rfl

theorem rdColor : Statement .rdColor := fun _ k => by
  rw [encode, decode_encodeAccess k _ _ _ (by decide) (by decide)]; rfl

theorem rdOpa : Statement .rdOpa := fun _ k => by
  rw [encode, decode_encodeAccess k _ _ _ (by decide) (by decide)]; rfl

theorem rdMaskAddr : Statement .rdMaskAddr := fun _ k => by
  rw [encode, decode_encodeAccess k _ _ _ (by decide) (by decide)]; rfl

theorem rdMaskStride : Statement .rdMaskStride := fun _ k => by
  rw [encode, decode_encodeAccess k _ _ _ (by decide) (by decide)]; rfl

theorem rdSrcAddr : Statement .rdSrcAddr := fun _ k => by
  rw [encode, decode_encodeAccess k _ _ _ (by decide) (by decide)]; rfl

theorem rdSrcStride : Statement .rdSrcStride := fun _ k => by
  rw [encode, decode_encodeAccess k _ _ _ (by decide) (by decide)]; rfl

theorem wrConfig (v : Word) : Statement (.wrConfig v) := fun _ k => by
  rw [encode, decode_encodeAccess k _ _ _ (by decide) (by decide)]; rfl

theorem wrCtrl (v : Word) : Statement (.wrCtrl v) := fun _ k => by
  rw [encode, decode_encodeAccess k _ _ _ (by decide) (by decide)]; rfl

theorem wrStatus (v : Word) : Statement (.wrStatus v) := fun _ k => by
  rw [encode, decode_encodeAccess k _ _ _ (by decide) (by decide)]; rfl

theorem wrCmd (v : Word) : Statement (.wrCmd v) := fun _ k => by
  rw [encode, decode_encodeAccess k _ _ _ (by decide) (by decide)]; rfl

theorem wrDestAddr (v : Word) : Statement (.wrDestAddr v) := fun _ k => by
  rw [encode, decode_encodeAccess k _ _ _ (by decide) (by decide)]; rfl

theorem wrDestSize (v : Word) : Statement (.wrDestSize v) := fun _ k => by
  rw [encode, decode_encodeAccess k _ _ _ (by decide) (by decide)]; rfl

theorem wrDestStride (v : Word) : Statement (.wrDestStride v) := fun _ k => by
  rw [encode, decode_encodeAccess k _ _ _ (by decide) (by decide)]; rfl

theorem wrColor (v : Word) : Statement (.wrColor v) := fun _ k => by
  rw [encode, decode_encodeAccess k _ _ _ (by decide) (by decide)]; rfl

theorem wrOpa (v : Word) : Statement (.wrOpa v) := fun _ k => by
  rw [encode, decode_encodeAccess k _ _ _ (by decide) (by decide)]; rfl

theorem wrMaskAddr (v : Word) : Statement (.wrMaskAddr v) := fun _ k => by
  rw [encode, decode_encodeAccess k _ _ _ (by decide) (by decide)]; rfl

theorem wrMaskStride (v : Word) : Statement (.wrMaskStride v) := fun _ k => by
  rw [encode, decode_encodeAccess k _ _ _ (by decide) (by decide)]; rfl

theorem wrSrcAddr (v : Word) : Statement (.wrSrcAddr v) := fun _ k => by
  rw [encode, decode_encodeAccess k _ _ _ (by decide) (by decide)]; rfl

theorem wrSrcStride (v : Word) : Statement (.wrSrcStride v) := fun _ k => by
  rw [encode, decode_encodeAccess k _ _ _ (by decide) (by decide)]; rfl

/-- The alignment a reserved offset has (10_state.md R21). -/
theorem reserved_aligned (offset : Byte) (h : reservedOffset offset = true) : offset.toNat % 4 = 0 := by
  simp only [reservedOffset, Bool.and_eq_true, decide_eq_true_eq] at h
  exact h.2

theorem rdReserved (offset : Byte) : Statement (.rdReserved offset) := fun h k => by
  rw [encode, decode_encodeAccess k _ _ _ offset.isLt (reserved_aligned offset h), decodeRead_reserved offset h]

theorem wrReserved (offset : Byte) (v : Word) : Statement (.wrReserved offset v) := fun h k => by
  rw [encode, decode_encodeAccess k _ _ _ offset.isLt (reserved_aligned offset h), decodeWrite_reserved offset v h]

end Sys2Proof.Laws.RoundTrip
end

