-- ==== Sys2Proof/Laws/Region.lean ====
section
/-! SUPPORT. The geometry of a command: what lies in a region, that under NOWRAP no address is reduced, that under NOWRAP and
ROWS no two destination bytes share an address, and that a write set built pixel by pixel lies in the destination
footprint and holds each address once (20_memory.md R65 to R74). -/

namespace Sys2Proof.Machine

theorem mem_overRegion {α : Type} (l : Descriptor) (f : Nat → Nat → List α) (e : α) :
    e ∈ overRegion l f ↔ ∃ x y, x < l.width ∧ y < l.height ∧ e ∈ f x y := by
  simp only [overRegion, List.mem_flatMap, List.mem_range]
  constructor
  · rintro ⟨y, hy, x, hx, he⟩
    exact ⟨x, y, hx, hy, he⟩
  · rintro ⟨x, y, hx, hy, he⟩
    exact ⟨y, hy, x, hx, he⟩

theorem overRegion_congr {α : Type} (l : Descriptor) (f g : Nat → Nat → List α)
    (h : ∀ x y, x < l.width → y < l.height → f x y = g x y) : overRegion l f = overRegion l g := by
  simp only [overRegion]
  refine List.flatMap_congr fun y hy => List.flatMap_congr fun x hx => ?_
  exact h x y (List.mem_range.1 hx) (List.mem_range.1 hy)

theorem map_overRegion {α β : Type} (l : Descriptor) (f : Nat → Nat → List α) (g : α → β) :
    (overRegion l f).map g = overRegion l fun x y => (f x y).map g := by
  simp only [overRegion, List.map_flatMap]

theorem space_pos (c : Config) : 0 < c.space := Nat.two_pow_pos _

theorem port_lt (c : Config) (a : Nat) : c.port a < c.space := Nat.mod_lt _ (space_pos c)

theorem port_of_lt (c : Config) (a : Nat) (h : a < c.space) : c.port a = a := Nat.mod_eq_of_lt h

@[simp] theorem port_port (c : Config) (a : Nat) : c.port (c.port a) = c.port a :=
  port_of_lt c _ (port_lt c a)

/-- Reducing a summand first changes nothing. -/
theorem port_add (c : Config) (a k : Nat) : c.port (c.port a + k) = c.port (a + k) := by
  simp [Config.port, Nat.add_mod]

theorem pixelSize_pos (l : Descriptor) : 0 < l.pixelSize := by
  unfold Descriptor.pixelSize; split <;> decide

/-- P is 3 or 4 (30_encoding.md R93). -/
theorem pixelSize_cases (l : Descriptor) : l.pixelSize = 3 ∨ l.pixelSize = 4 := by
  unfold Descriptor.pixelSize; split <;> simp

/-- The unreduced address of byte `k` of destination pixel `(x, y)` (20_memory.md R65). -/
def destByte (c : Config) (l : Descriptor) (x y k : Nat) : Nat :=
  baseAddress c l.destAddr + (y * l.destStep + x) * l.pixelSize + k

theorem port_destAddress (c : Config) (l : Descriptor) (x y k : Nat) :
    c.port (destAddress c l x y + k) = c.port (destByte c l x y k) := by
  rw [destAddress, port_add]; rfl

/-- A byte of a buffer lies at or below the buffer's last byte (20_memory.md R69). -/
theorem byte_le_lastByte (l : Descriptor) (base stride size x y k : Nat) (hx : x < l.width) (hy : y < l.height)
    (hk : k < size) : base + (y * stride + x) * size + k ≤ lastByte l base stride size := by
  unfold lastByte
  have h1 : y * stride ≤ (l.height - 1) * stride := Nat.mul_le_mul_right _ (by omega)
  have h2 : (y * stride + x) * size ≤ ((l.height - 1) * stride + (l.width - 1)) * size :=
    Nat.mul_le_mul_right _ (by omega)
  omega

/-- NOWRAP bounds every buffer of a non-empty region. -/
theorem noWrap_bound (c : Config) (l : Descriptor) (h : noWrapOk c l = true) (hw : 0 < l.width) (hh : 0 < l.height)
    (a : Nat) (ha : a ∈ lastBytes c l) : a < c.space := by
  simp only [noWrapOk, Bool.or_eq_true, decide_eq_true_eq, List.all_eq_true] at h
  rcases h with (h | h) | h
  · omega
  · omega
  · exact h a ha

/-- Under NOWRAP no destination byte is reduced. -/
theorem destByte_lt (c : Config) (l : Descriptor) (h : noWrapOk c l = true) (x y k : Nat) (hx : x < l.width)
    (hy : y < l.height) (hk : k < l.pixelSize) : destByte c l x y k < c.space :=
  Nat.lt_of_le_of_lt (byte_le_lastByte l _ _ _ x y k hx hy hk)
    (noWrap_bound c l h (by omega) (by omega) _ (by simp [lastBytes]))

/-- Under ROWS a pixel of the region is determined by its index. -/
theorem index_inj (l : Descriptor) (h : rowsOk l = true) (x y x' y' : Nat) (hx : x < l.width) (hy : y < l.height)
    (hx' : x' < l.width) (hy' : y' < l.height) (he : y * l.destStep + x = y' * l.destStep + x') : x = x' ∧ y = y' := by
  simp only [rowsOk, Bool.or_eq_true, decide_eq_true_eq] at h
  rcases h with h | h
  · have hy0 : y = 0 := by omega
    have hy0' : y' = 0 := by omega
    subst hy0; subst hy0'
    omega
  · have hlt : x < l.destStep := by omega
    have hlt' : x' < l.destStep := by omega
    have hyy : y = y' := by
      have e1 : (y * l.destStep + x) / l.destStep = y := by
        rw [Nat.mul_comm, Nat.mul_add_div (by omega), Nat.div_eq_of_lt hlt, Nat.add_zero]
      have e2 : (y' * l.destStep + x') / l.destStep = y' := by
        rw [Nat.mul_comm, Nat.mul_add_div (by omega), Nat.div_eq_of_lt hlt', Nat.add_zero]
      rw [← e1, ← e2, he]
    subst hyy
    omega

/-- Under ROWS a destination byte determines its pixel and its place in it. -/
theorem destByte_inj (c : Config) (l : Descriptor) (h : rowsOk l = true) (x y k x' y' k' : Nat) (hx : x < l.width)
    (hy : y < l.height) (hk : k < l.pixelSize) (hx' : x' < l.width) (hy' : y' < l.height) (hk' : k' < l.pixelSize)
    (he : destByte c l x y k = destByte c l x' y' k') : x = x' ∧ y = y' ∧ k = k' := by
  unfold destByte at he
  have he' : (y * l.destStep + x) * l.pixelSize + k = (y' * l.destStep + x') * l.pixelSize + k' := by omega
  have hp := pixelSize_pos l
  have e1 : ((y * l.destStep + x) * l.pixelSize + k) / l.pixelSize = y * l.destStep + x := by
    rw [Nat.mul_comm, Nat.mul_add_div hp, Nat.div_eq_of_lt hk, Nat.add_zero]
  have e2 : ((y' * l.destStep + x') * l.pixelSize + k') / l.pixelSize = y' * l.destStep + x' := by
    rw [Nat.mul_comm, Nat.mul_add_div hp, Nat.div_eq_of_lt hk', Nat.add_zero]
  have hi : y * l.destStep + x = y' * l.destStep + x' := by rw [← e1, ← e2, he']
  obtain ⟨h1, h2⟩ := index_inj l h x y x' y' hx hy hx' hy' hi
  subst h1; subst h2
  exact ⟨rfl, rfl, by omega⟩

/-- What an accepted command's preconditions say, one by one. -/
theorem violation_none (c : Config) (l : Descriptor) :
    violation c l = none ↔ noWrapOk c l = true ∧ rowsOk l = true ∧ disjointOk c l = true ∧ memoryOk c l = true := by
  unfold violation
  cases noWrapOk c l <;> cases rowsOk l <;> cases disjointOk c l <;> cases memoryOk c l <;> simp

/-- The destination bytes of a pixel, as the port issues them. -/
def pixelAddresses (c : Config) (l : Descriptor) (x y : Nat) : List Nat :=
  (List.range l.pixelSize).map fun k => c.port (destAddress c l x y + k)

theorem mem_pixelAddresses (c : Config) (l : Descriptor) (x y a : Nat) :
    a ∈ pixelAddresses c l x y ↔ ∃ k, k < l.pixelSize ∧ a = c.port (destByte c l x y k) := by
  simp only [pixelAddresses, List.mem_map, List.mem_range, port_destAddress]
  constructor
  · rintro ⟨k, hk, rfl⟩; exact ⟨k, hk, rfl⟩
  · rintro ⟨k, hk, rfl⟩; exact ⟨k, hk, rfl⟩

theorem destFootprint_eq (c : Config) (l : Descriptor) : destFootprint c l = overRegion l (pixelAddresses c l) := rfl

/-- Under NOWRAP and ROWS two pixels of the region share no byte (20_memory.md R70). -/
theorem pixelAddresses_disjoint (c : Config) (l : Descriptor) (hn : noWrapOk c l = true) (hr : rowsOk l = true)
    (x y x' y' a : Nat) (hx : x < l.width) (hy : y < l.height) (hx' : x' < l.width) (hy' : y' < l.height)
    (ha : a ∈ pixelAddresses c l x y) (ha' : a ∈ pixelAddresses c l x' y') : x = x' ∧ y = y' := by
  obtain ⟨k, hk, rfl⟩ := (mem_pixelAddresses ..).1 ha
  obtain ⟨k', hk', he⟩ := (mem_pixelAddresses ..).1 ha'
  rw [port_of_lt c _ (destByte_lt c l hn x y k hx hy hk),
    port_of_lt c _ (destByte_lt c l hn x' y' k' hx' hy' hk')] at he
  obtain ⟨h1, h2, -⟩ := destByte_inj c l hr x y k x' y' k' hx hy hk hx' hy' hk' he
  exact ⟨h1, h2⟩

/-- Under NOWRAP the bytes of a pixel have different addresses. -/
theorem pixelAddresses_nodup (c : Config) (l : Descriptor) (hn : noWrapOk c l = true) (x y : Nat)
    (hx : x < l.width) (hy : y < l.height) : (pixelAddresses c l x y).Nodup := by
  unfold pixelAddresses
  refine List.Nodup.map_on ?_ List.nodup_range
  intro k hk k' hk' he
  have hk := List.mem_range.1 hk
  have hk' := List.mem_range.1 hk'
  rw [port_destAddress, port_destAddress, port_of_lt c _ (destByte_lt c l hn x y k hx hy hk),
    port_of_lt c _ (destByte_lt c l hn x y k' hx hy hk')] at he
  unfold destByte at he
  omega

/-- Under NOWRAP and ROWS the destination footprint lists each address once. -/
theorem destFootprint_nodup (c : Config) (l : Descriptor) (hn : noWrapOk c l = true) (hr : rowsOk l = true) :
    (destFootprint c l).Nodup := by
  rw [destFootprint_eq, overRegion]
  refine List.nodup_flatMap.2 ⟨fun y hy => List.nodup_flatMap.2 ⟨fun x hx => ?_, ?_⟩, ?_⟩
  · exact pixelAddresses_nodup c l hn x y (List.mem_range.1 hx) (List.mem_range.1 hy)
  · refine (List.nodup_range (n := l.width)).pairwise_of_forall_ne ?_
    intro x hx x' hx' hne a ha ha'
    exact hne (pixelAddresses_disjoint c l hn hr x y x' y a (List.mem_range.1 hx) (List.mem_range.1 hy)
      (List.mem_range.1 hx') (List.mem_range.1 hy) ha ha').1
  · refine (List.nodup_range (n := l.height)).pairwise_of_forall_ne ?_
    intro y hy y' hy' hne a ha ha'
    obtain ⟨x, hx, ha⟩ := List.mem_flatMap.1 ha
    obtain ⟨x', hx', ha'⟩ := List.mem_flatMap.1 ha'
    exact hne (pixelAddresses_disjoint c l hn hr x y x' y' a (List.mem_range.1 hx) (List.mem_range.1 hy)
      (List.mem_range.1 hx') (List.mem_range.1 hy') ha ha').2

/-- A write set built pixel by pixel: each pixel writes bytes of its own, in rising order and each at most once. -/
def PixelShape (c : Config) (l : Descriptor) (f : Nat → Nat → List Host.Cell) : Prop :=
  ∀ x y, ((f x y).map fun cell => cell.1).Sublist (pixelAddresses c l x y)

/-- Its addresses are a part of the destination footprint, in order. -/
theorem PixelShape.sublist {c : Config} {l : Descriptor} {f : Nat → Nat → List Host.Cell} (h : PixelShape c l f) :
    ((overRegion l f).map fun cell => cell.1).Sublist (destFootprint c l) := by
  rw [map_overRegion, destFootprint_eq, overRegion, overRegion]
  exact List.Sublist.flatMap_right _ fun y _ => List.Sublist.flatMap_right _ fun x _ => h x y

/-- Each pair of it writes a byte of the destination footprint (20_memory.md R73). -/
theorem PixelShape.inDest {c : Config} {l : Descriptor} {f : Nat → Nat → List Host.Cell} (h : PixelShape c l f)
    (cell : Host.Cell) (hc : cell ∈ overRegion l f) : cell.1 ∈ destFootprint c l :=
  h.sublist.subset (List.mem_map_of_mem hc)

/-- It holds each address once (20_memory.md R74). -/
theorem PixelShape.once {c : Config} {l : Descriptor} {f : Nat → Nat → List Host.Cell} (h : PixelShape c l f)
    (hn : noWrapOk c l = true) (hr : rowsOk l = true) : ((overRegion l f).map fun cell => cell.1).Nodup :=
  (destFootprint_nodup c l hn hr).sublist h.sublist

/-! ### The values of a write set -/

/-- Where each address is held once, a pair of the list is the address's value. -/
theorem finalValue_of_mem (ws : List Host.Cell) (h : (ws.map fun cell => cell.1).Nodup) (cell : Host.Cell)
    (hc : cell ∈ ws) : finalValue ws cell.1 = some cell.2 := by
  induction ws with
  | nil => simp at hc
  | cons e ws ih =>
    simp only [List.map_cons, List.nodup_cons] at h
    rcases List.mem_cons.1 hc with rfl | hc
    · simp [finalValue]
    · have hne : e.1 ≠ cell.1 := fun he => h.1 (he ▸ List.mem_map_of_mem hc)
      have := ih h.2 hc
      simp only [finalValue, List.find?_cons, hne, decide_false] at this ⊢
      exact this

/-- An address the list does not hold has no value. -/
theorem finalValue_of_not_mem (ws : List Host.Cell) (a : Nat) (h : a ∉ ws.map fun cell => cell.1) :
    finalValue ws a = none := by
  simp only [finalValue, Option.map_eq_none_iff, List.find?_eq_none]
  intro cell hc he
  exact h (List.mem_map.2 ⟨cell, hc, by simpa using he⟩)

/-- Conversely a value comes from a pair of the list. -/
theorem mem_of_finalValue (ws : List Host.Cell) (a : Nat) (v : Byte) (h : finalValue ws a = some v) :
    (a, v) ∈ ws := by
  simp only [finalValue, Option.map_eq_some_iff] at h
  obtain ⟨cell, hc, rfl⟩ := h
  have h1 := List.mem_of_find?_eq_some hc
  have h2 : cell.1 = a := by simpa using List.find?_some hc
  exact h2 ▸ h1

/-- The value of a pixel's byte is the one the pixel's own pairs give it. -/
theorem PixelShape.finalValue {c : Config} {l : Descriptor} {f : Nat → Nat → List Host.Cell} (h : PixelShape c l f)
    (hn : noWrapOk c l = true) (hr : rowsOk l = true) (x y a : Nat) (hx : x < l.width) (hy : y < l.height)
    (ha : a ∈ pixelAddresses c l x y) :
    Machine.finalValue (overRegion l f) a = Machine.finalValue (f x y) a := by
  cases hv : Machine.finalValue (f x y) a with
  | some v =>
    have hm : (a, v) ∈ overRegion l f := (mem_overRegion ..).2 ⟨x, y, hx, hy, mem_of_finalValue _ _ _ hv⟩
    exact finalValue_of_mem _ (h.once hn hr) _ hm
  | none =>
    refine finalValue_of_not_mem _ _ fun hm => ?_
    obtain ⟨cell, hc, rfl⟩ := List.mem_map.1 hm
    obtain ⟨x', y', hx', hy', hc'⟩ := (mem_overRegion ..).1 hc
    have ha' := (h x' y').subset (List.mem_map_of_mem hc')
    obtain ⟨rfl, rfl⟩ := pixelAddresses_disjoint c l hn hr x y x' y' _ hx hy hx' hy' ha ha'
    have hnd : ((f x y).map fun cell => cell.1).Nodup := (pixelAddresses_nodup c l hn x y hx hy).sublist (h x y)
    rw [finalValue_of_mem _ hnd _ hc'] at hv
    cases hv

/-! ### The shapes of the commands' pixels -/

/-- The addresses of a pixel, byte by byte. -/
theorem pixelAddresses_eq (c : Config) (l : Descriptor) (x y : Nat) :
    pixelAddresses c l x y =
      [c.port (destAddress c l x y), c.port (destAddress c l x y + 1), c.port (destAddress c l x y + 2)]
        ++ (if l.pixelSize = 4 then [c.port (destAddress c l x y + 3)] else []) := by
  rcases pixelSize_cases l with h | h <;> simp [pixelAddresses, h, List.range_succ]

theorem mixedPixel_shape (c : Config) (l : Descriptor) (x y : Nat) (w : Byte) (r : Triple) :
    ((mixedPixel c (destAddress c l x y) w r).map fun cell => cell.1).Sublist (pixelAddresses c l x y) := by
  rw [pixelAddresses_eq]
  unfold mixedPixel
  split
  · exact List.nil_sublist _
  · exact List.sublist_append_left _ _

theorem fillOverwrite_shape (c : Config) (l : Descriptor) (x y : Nat) :
    ((fillOverwrite c l (destAddress c l x y)).map fun cell => cell.1).Sublist (pixelAddresses c l x y) := by
  rw [pixelAddresses_eq]
  unfold fillOverwrite
  split <;> simp

theorem fillPixel_shape (c : Config) (l : Descriptor) (m0 : Memory) : PixelShape c l (fillPixel c l m0) := by
  intro x y
  unfold fillPixel
  cases l.regime c
  · exact fillOverwrite_shape c l x y
  · exact mixedPixel_shape c l x y _ _
  · exact mixedPixel_shape c l x y _ _
  · exact mixedPixel_shape c l x y _ _

theorem imagePixel_shape (c : Config) (l : Descriptor) (m0 : Memory) (fmt : SrcFmt) (mode : BlendMode) :
    PixelShape c l (imagePixel c l m0 fmt mode) := fun x y => mixedPixel_shape c l x y _ _

theorem copyPixel_shape (c : Config) (l : Descriptor) (m0 : Memory) (q : Nat) :
    PixelShape c l (copyPixel c l m0 q) := by
  intro x y
  rw [pixelAddresses_eq]
  simp [copyPixel, List.range_succ]

/-- A pixel of the raw row copy (42_image.md R184): all its bytes. -/
def copyWhole (c : Config) (l : Descriptor) (m0 : Memory) (q x y : Nat) : List Host.Cell :=
  (List.range l.pixelSize).map fun k =>
    (c.port (destAddress c l x y + k), memRead8 c m0 (srcAddress c l q x y + k))

theorem copyWhole_shape (c : Config) (l : Descriptor) (m0 : Memory) (q : Nat) :
    PixelShape c l (copyWhole c l m0 q) := by
  intro x y
  simp [copyWhole, pixelAddresses, Function.comp_def]

/-- Counting a row's bytes is counting its pixels' bytes. -/
theorem range_mul_flatMap {α : Type} (n p : Nat) (f : Nat → α) :
    (List.range (n * p)).map f = (List.range n).flatMap fun x => (List.range p).map fun k => f (x * p + k) := by
  induction n with
  | zero => simp
  | succ n ih =>
    rw [Nat.succ_mul, List.range_add, List.map_append, ih, List.range_succ, List.flatMap_append]
    simp [Function.comp_def]

/-- The raw row copy, pixel by pixel, where the pixel sizes match (R182, R184). -/
theorem copyRows_eq (c : Config) (l : Descriptor) (m0 : Memory) :
    ((List.range l.height).flatMap fun y => copyRow c l m0 l.pixelSize y) =
      overRegion l (copyWhole c l m0 l.pixelSize) := by
  unfold overRegion
  refine List.flatMap_congr fun y _ => ?_
  rw [copyRow, range_mul_flatMap]
  refine List.flatMap_congr fun x _ => List.map_congr_left fun k _ => ?_
  refine Prod.ext ?_ ?_
  · simp only [destAddress, port_add]
    congr 1
    ring
  · simp only [memRead8, srcAddress, port_add]
    congr 2
    ring

/-- What a supported image command writes at a pixel: the copy path where it takes it, else the general path. -/
def commandImagePixel (fmt : SrcFmt) (mode : BlendMode) (c : Config) (l : Descriptor) (m0 : Memory) (x y : Nat) :
    List Host.Cell :=
  if takesCopyPath c l fmt mode then
    (if srcPixelSize fmt = l.pixelSize then copyWhole c l m0 l.pixelSize x y
     else copyPixel c l m0 (srcPixelSize fmt) x y)
  else imagePixel c l m0 fmt mode x y

theorem commandImagePixel_shape (fmt : SrcFmt) (mode : BlendMode) (c : Config) (l : Descriptor) (m0 : Memory) :
    PixelShape c l (commandImagePixel fmt mode c l m0) := by
  intro x y
  unfold commandImagePixel
  split
  · split
    · exact copyWhole_shape c l m0 _ x y
    · exact copyPixel_shape c l m0 _ x y
  · exact imagePixel_shape c l m0 fmt mode x y

theorem imageWriteSet_eq (fmt : SrcFmt) (mode : BlendMode) (c : Config) (l : Descriptor) (m0 : Memory) :
    imageWriteSet fmt mode c l m0 = overRegion l (commandImagePixel fmt mode c l m0) := by
  unfold imageWriteSet commandImagePixel copyWriteSet
  split
  · split
    · next h => rw [h]; exact copyRows_eq c l m0
    · rfl
  · rfl

/-- Every command's write set is built pixel by pixel. -/
theorem commandWriteSet_shape (c : Config) (l : Descriptor) (m0 : Memory) :
    ∃ f, PixelShape c l f ∧ commandWriteSet c l m0 = overRegion l f := by
  have hi : ∀ fmt mode, ∃ f, PixelShape c l f ∧ imageWriteSet fmt mode c l m0 = overRegion l f := fun fmt mode =>
    ⟨_, commandImagePixel_shape fmt mode c l m0, imageWriteSet_eq fmt mode c l m0⟩
  have hn : ∃ f, PixelShape c l f ∧ ([] : List Host.Cell) = overRegion l f :=
    ⟨fun _ _ => [], fun _ _ => List.nil_sublist _, by simp [overRegion]⟩
  unfold commandWriteSet
  cases commandRow l.cmd
  case fill => exact ⟨_, fillPixel_shape c l m0, rfl⟩
  case imageUnsupported => exact hn
  case illegalOp0 => exact hn
  case illegalOp3 => exact hn
  all_goals exact hi _ _

end Sys2Proof.Machine
end

