-- ==== Sys2Proof/Laws/State.lean ====
section
/-! SUPPORT. What each update of State does to each field, so that no later proof unfolds a record update; and the laws of
the descriptor registers and of the three words the host reads. -/

namespace Sys2Proof.Machine

variable (s : State)

/-! ### setReg -/

@[simp] theorem setReg_cfg (r : DescReg) (v : Word) : (s.setReg r v).cfg = s.cfg := rfl
@[simp] theorem setReg_irqEn (r : DescReg) (v : Word) : (s.setReg r v).irqEn = s.irqEn := rfl
@[simp] theorem setReg_done (r : DescReg) (v : Word) : (s.setReg r v).done = s.done := rfl
@[simp] theorem setReg_err (r : DescReg) (v : Word) : (s.setReg r v).err = s.err := rfl
@[simp] theorem setReg_desc (r : DescReg) (v : Word) : (s.setReg r v).desc = s.desc.set r (v &&& r.fieldMask s.cfg) := rfl
@[simp] theorem setReg_latched (r : DescReg) (v : Word) : (s.setReg r v).latched = s.latched := rfl
@[simp] theorem setReg_phase (r : DescReg) (v : Word) : (s.setReg r v).phase = s.phase := rfl
@[simp] theorem setReg_mem (r : DescReg) (v : Word) : (s.setReg r v).mem = s.mem := rfl
@[simp] theorem setReg_hostData (r : DescReg) (v : Word) : (s.setReg r v).hostData = s.hostData := rfl
@[simp] theorem setReg_agenda (r : DescReg) (v : Word) : (s.setReg r v).agenda = s.agenda := rfl

/-! ### setHostData -/

@[simp] theorem setHostData_cfg (v : Word) : (s.setHostData v).cfg = s.cfg := rfl
@[simp] theorem setHostData_irqEn (v : Word) : (s.setHostData v).irqEn = s.irqEn := rfl
@[simp] theorem setHostData_done (v : Word) : (s.setHostData v).done = s.done := rfl
@[simp] theorem setHostData_err (v : Word) : (s.setHostData v).err = s.err := rfl
@[simp] theorem setHostData_desc (v : Word) : (s.setHostData v).desc = s.desc := rfl
@[simp] theorem setHostData_latched (v : Word) : (s.setHostData v).latched = s.latched := rfl
@[simp] theorem setHostData_phase (v : Word) : (s.setHostData v).phase = s.phase := rfl
@[simp] theorem setHostData_mem (v : Word) : (s.setHostData v).mem = s.mem := rfl
@[simp] theorem setHostData_hostData (v : Word) : (s.setHostData v).hostData = v := rfl
@[simp] theorem setHostData_agenda (v : Word) : (s.setHostData v).agenda = s.agenda := rfl

/-! ### setIrqEn -/

@[simp] theorem setIrqEn_cfg (b : Bool) : (s.setIrqEn b).cfg = s.cfg := rfl
@[simp] theorem setIrqEn_irqEn (b : Bool) : (s.setIrqEn b).irqEn = b := rfl
@[simp] theorem setIrqEn_done (b : Bool) : (s.setIrqEn b).done = s.done := rfl
@[simp] theorem setIrqEn_err (b : Bool) : (s.setIrqEn b).err = s.err := rfl
@[simp] theorem setIrqEn_desc (b : Bool) : (s.setIrqEn b).desc = s.desc := rfl
@[simp] theorem setIrqEn_latched (b : Bool) : (s.setIrqEn b).latched = s.latched := rfl
@[simp] theorem setIrqEn_phase (b : Bool) : (s.setIrqEn b).phase = s.phase := rfl
@[simp] theorem setIrqEn_mem (b : Bool) : (s.setIrqEn b).mem = s.mem := rfl
@[simp] theorem setIrqEn_hostData (b : Bool) : (s.setIrqEn b).hostData = s.hostData := rfl
@[simp] theorem setIrqEn_agenda (b : Bool) : (s.setIrqEn b).agenda = s.agenda := rfl

/-! ### clearDone -/

@[simp] theorem clearDone_cfg : (s.clearDone).cfg = s.cfg := rfl
@[simp] theorem clearDone_irqEn : (s.clearDone).irqEn = s.irqEn := rfl
@[simp] theorem clearDone_done : (s.clearDone).done = false := rfl
@[simp] theorem clearDone_err : (s.clearDone).err = s.err := rfl
@[simp] theorem clearDone_desc : (s.clearDone).desc = s.desc := rfl
@[simp] theorem clearDone_latched : (s.clearDone).latched = s.latched := rfl
@[simp] theorem clearDone_phase : (s.clearDone).phase = s.phase := rfl
@[simp] theorem clearDone_mem : (s.clearDone).mem = s.mem := rfl
@[simp] theorem clearDone_hostData : (s.clearDone).hostData = s.hostData := rfl
@[simp] theorem clearDone_agenda : (s.clearDone).agenda = s.agenda := rfl

/-! ### latch -/

@[simp] theorem latch_cfg (w : Word) : (s.latch w).cfg = s.cfg := rfl
@[simp] theorem latch_irqEn (w : Word) : (s.latch w).irqEn = s.irqEn := rfl
@[simp] theorem latch_done (w : Word) : (s.latch w).done = false := rfl
@[simp] theorem latch_err (w : Word) : (s.latch w).err = .ok := rfl
@[simp] theorem latch_desc (w : Word) : (s.latch w).desc = s.desc := rfl
@[simp] theorem latch_latched (w : Word) : (s.latch w).latched = { s.desc with cmd := w } := rfl
@[simp] theorem latch_phase (w : Word) : (s.latch w).phase = s.phase := rfl
@[simp] theorem latch_mem (w : Word) : (s.latch w).mem = s.mem := rfl
@[simp] theorem latch_hostData (w : Word) : (s.latch w).hostData = s.hostData := rfl
@[simp] theorem latch_agenda (w : Word) : (s.latch w).agenda = s.agenda := rfl

/-! ### begin -/

@[simp] theorem begin_cfg (ws : List Host.Cell) : (s.begin ws).cfg = s.cfg := rfl
@[simp] theorem begin_irqEn (ws : List Host.Cell) : (s.begin ws).irqEn = s.irqEn := rfl
@[simp] theorem begin_done (ws : List Host.Cell) : (s.begin ws).done = s.done := rfl
@[simp] theorem begin_err (ws : List Host.Cell) : (s.begin ws).err = s.err := rfl
@[simp] theorem begin_desc (ws : List Host.Cell) : (s.begin ws).desc = s.desc := rfl
@[simp] theorem begin_latched (ws : List Host.Cell) : (s.begin ws).latched = s.latched := rfl
@[simp] theorem begin_phase (ws : List Host.Cell) : (s.begin ws).phase = .running { m0 := s.mem, ws := ws, pending := ws } := rfl
@[simp] theorem begin_mem (ws : List Host.Cell) : (s.begin ws).mem = s.mem := rfl
@[simp] theorem begin_hostData (ws : List Host.Cell) : (s.begin ws).hostData = s.hostData := rfl
@[simp] theorem begin_agenda (ws : List Host.Cell) : (s.begin ws).agenda = s.agenda := rfl

/-! ### terminate -/

@[simp] theorem terminate_cfg (code : ErrCode) : (s.terminate code).cfg = s.cfg := rfl
@[simp] theorem terminate_irqEn (code : ErrCode) : (s.terminate code).irqEn = s.irqEn := rfl
@[simp] theorem terminate_done (code : ErrCode) : (s.terminate code).done = true := rfl
@[simp] theorem terminate_err (code : ErrCode) : (s.terminate code).err = code := rfl
@[simp] theorem terminate_desc (code : ErrCode) : (s.terminate code).desc = s.desc := rfl
@[simp] theorem terminate_latched (code : ErrCode) : (s.terminate code).latched = s.latched := rfl
@[simp] theorem terminate_phase (code : ErrCode) : (s.terminate code).phase = .idle := rfl
@[simp] theorem terminate_mem (code : ErrCode) : (s.terminate code).mem = s.mem := rfl
@[simp] theorem terminate_hostData (code : ErrCode) : (s.terminate code).hostData = s.hostData := rfl
@[simp] theorem terminate_agenda (code : ErrCode) : (s.terminate code).agenda = s.agenda := rfl

/-! ### commit -/

@[simp] theorem commit_cfg (job : Job) (cell : Host.Cell) (rest : List Host.Cell) : (s.commit job cell rest).cfg = s.cfg := rfl
@[simp] theorem commit_irqEn (job : Job) (cell : Host.Cell) (rest : List Host.Cell) : (s.commit job cell rest).irqEn = s.irqEn := rfl
@[simp] theorem commit_done (job : Job) (cell : Host.Cell) (rest : List Host.Cell) : (s.commit job cell rest).done = s.done := rfl
@[simp] theorem commit_err (job : Job) (cell : Host.Cell) (rest : List Host.Cell) : (s.commit job cell rest).err = s.err := rfl
@[simp] theorem commit_desc (job : Job) (cell : Host.Cell) (rest : List Host.Cell) : (s.commit job cell rest).desc = s.desc := rfl
@[simp] theorem commit_latched (job : Job) (cell : Host.Cell) (rest : List Host.Cell) : (s.commit job cell rest).latched = s.latched := rfl
@[simp] theorem commit_phase (job : Job) (cell : Host.Cell) (rest : List Host.Cell) : (s.commit job cell rest).phase = .running { job with pending := rest } := rfl
@[simp] theorem commit_mem (job : Job) (cell : Host.Cell) (rest : List Host.Cell) : (s.commit job cell rest).mem = s.mem.write (s.cfg.port cell.1) cell.2 := rfl
@[simp] theorem commit_hostData (job : Job) (cell : Host.Cell) (rest : List Host.Cell) : (s.commit job cell rest).hostData = s.hostData := rfl
@[simp] theorem commit_agenda (job : Job) (cell : Host.Cell) (rest : List Host.Cell) : (s.commit job cell rest).agenda = s.agenda := rfl

/-! ### storeByte -/

@[simp] theorem storeByte_cfg (a : Nat) (v : Byte) : (s.storeByte a v).cfg = s.cfg := rfl
@[simp] theorem storeByte_irqEn (a : Nat) (v : Byte) : (s.storeByte a v).irqEn = s.irqEn := rfl
@[simp] theorem storeByte_done (a : Nat) (v : Byte) : (s.storeByte a v).done = s.done := rfl
@[simp] theorem storeByte_err (a : Nat) (v : Byte) : (s.storeByte a v).err = s.err := rfl
@[simp] theorem storeByte_desc (a : Nat) (v : Byte) : (s.storeByte a v).desc = s.desc := rfl
@[simp] theorem storeByte_latched (a : Nat) (v : Byte) : (s.storeByte a v).latched = s.latched := rfl
@[simp] theorem storeByte_phase (a : Nat) (v : Byte) : (s.storeByte a v).phase = s.phase := rfl
@[simp] theorem storeByte_mem (a : Nat) (v : Byte) : (s.storeByte a v).mem = s.mem.write a v := rfl
@[simp] theorem storeByte_hostData (a : Nat) (v : Byte) : (s.storeByte a v).hostData = s.hostData := rfl
@[simp] theorem storeByte_agenda (a : Nat) (v : Byte) : (s.storeByte a v).agenda = s.agenda := rfl

/-! ### platformReset -/

@[simp] theorem platformReset_cfg (l : Descriptor) : (s.platformReset l).cfg = s.cfg := rfl
@[simp] theorem platformReset_irqEn (l : Descriptor) : (s.platformReset l).irqEn = false := rfl
@[simp] theorem platformReset_done (l : Descriptor) : (s.platformReset l).done = false := rfl
@[simp] theorem platformReset_err (l : Descriptor) : (s.platformReset l).err = .ok := rfl
@[simp] theorem platformReset_desc (l : Descriptor) : (s.platformReset l).desc = Descriptor.zero := rfl
@[simp] theorem platformReset_latched (l : Descriptor) : (s.platformReset l).latched = l := rfl
@[simp] theorem platformReset_phase (l : Descriptor) : (s.platformReset l).phase = .idle := rfl
@[simp] theorem platformReset_mem (l : Descriptor) : (s.platformReset l).mem = s.mem := rfl
@[simp] theorem platformReset_hostData (l : Descriptor) : (s.platformReset l).hostData = s.hostData := rfl
@[simp] theorem platformReset_agenda (l : Descriptor) : (s.platformReset l).agenda = s.agenda := rfl

/-! ### setAgenda -/

@[simp] theorem setAgenda_cfg (es : List Event) : (s.setAgenda es).cfg = s.cfg := rfl
@[simp] theorem setAgenda_irqEn (es : List Event) : (s.setAgenda es).irqEn = s.irqEn := rfl
@[simp] theorem setAgenda_done (es : List Event) : (s.setAgenda es).done = s.done := rfl
@[simp] theorem setAgenda_err (es : List Event) : (s.setAgenda es).err = s.err := rfl
@[simp] theorem setAgenda_desc (es : List Event) : (s.setAgenda es).desc = s.desc := rfl
@[simp] theorem setAgenda_latched (es : List Event) : (s.setAgenda es).latched = s.latched := rfl
@[simp] theorem setAgenda_phase (es : List Event) : (s.setAgenda es).phase = s.phase := rfl
@[simp] theorem setAgenda_mem (es : List Event) : (s.setAgenda es).mem = s.mem := rfl
@[simp] theorem setAgenda_hostData (es : List Event) : (s.setAgenda es).hostData = s.hostData := rfl
@[simp] theorem setAgenda_agenda (es : List Event) : (s.setAgenda es).agenda = es := rfl

/-! ### Descriptor registers -/

@[simp] theorem get_set_same (d : Descriptor) (r : DescReg) (v : Word) : (d.set r v).get r = v := by
  cases r <;> rfl

theorem get_set_other (d : Descriptor) (r q : DescReg) (v : Word) (h : q ≠ r) : (d.set r v).get q = d.get q := by
  cases r <;> cases q <;> first | rfl | exact absurd rfl h

theorem get_zero (r : DescReg) : Descriptor.zero.get r = 0 := by cases r <;> rfl

/-- Two descriptors with the same registers are the same. -/
theorem descriptor_ext (d e : Descriptor) (h : ∀ r, d.get r = e.get r) : d = e := by
  cases d
  cases e
  have := h .cmd; have := h .destAddr; have := h .destSize; have := h .destStride; have := h .color
  have := h .opa; have := h .maskAddr; have := h .maskStride; have := h .srcAddr; have := h .srcStride
  simp_all [Descriptor.get]

@[simp] theorem setReg_readReg (r : DescReg) (v : Word) : (s.setReg r v).readReg r = v &&& r.fieldMask s.cfg := by
  simp [State.readReg, BitVec.and_assoc]

theorem setReg_readReg_other (r q : DescReg) (v : Word) (h : q ≠ r) : (s.setReg r v).readReg q = s.readReg q := by
  simp [State.readReg, get_set_other _ _ _ _ h]

/-! ### Status -/

@[simp] theorem busy_idle (h : s.phase = .idle) : s.busy = false := by simp [State.busy, h]

@[simp] theorem busy_running (job : Job) (h : s.phase = .running job) : s.busy = true := by simp [State.busy, h]

/-- BUSY says exactly that a command runs (10_state.md R38). -/
theorem busy_iff : s.busy = true ↔ ∃ job, s.phase = .running job := by
  cases h : s.phase <;> simp [State.busy, h]

end Sys2Proof.Machine
end

