-- ==== Sys2Proof/Laws/Steps.lean ====
section
/-! SUPPORT. What each shared operation can do, said once: acceptance, launch, the engine's step, a bus error, a START, a
host load and a host store. -/

namespace Sys2Proof.Machine

/-! ### Acceptance -/

/-- While RUNNING a START is dropped (43_command_control.md R203). -/
theorem accept_running (w : Word) (s : State) (job : Job) (h : s.phase = .running job)
    (body : State → Host.Outcome State Fault Refusal) : accept w s body = .next s := by
  simp only [accept, h]

/-- While IDLE it latches and goes on (R202). -/
theorem accept_idle (w : Word) (s : State) (h : s.phase = .idle)
    (body : State → Host.Outcome State Fault Refusal) : accept w s body = body (s.latch w) := by
  simp only [accept, h]

/-- A launch answers a next state exactly where no precondition is violated. -/
theorem launch_next (ws : Config → Descriptor → Memory → List Host.Cell) (s t : State) :
    launch ws s = .next t ↔ violation s.cfg s.latched = none ∧ t = s.begin (ws s.cfg s.latched s.mem) := by
  unfold launch
  cases violation s.cfg s.latched <;> simp [eq_comm]

/-- A launch never faults. -/
theorem launch_not_fault (ws : Config → Descriptor → Memory → List Host.Cell) (s : State) (r : Fault) :
    launch ws s ≠ .fault r := by
  unfold launch
  cases violation s.cfg s.latched <;> simp

/-! ### START -/

/-- A row's meaning is the meaning of the instruction it stands for. -/
theorem runRow_eq (r : CommandRow) (w : Word) (s : State) : runRow r w s = exec (r.instr w) s := by
  cases r <;> rfl

/-- A START runs the instruction that CMD decodes to (R202). -/
theorem start_eq (s : State) : start s = exec (decodeCommand s.desc.cmd) s := runRow_eq _ _ _

/-- The word a row's meaning latches, from the word it is run on. -/
def rowWord (r : CommandRow) (w : Word) : Word :=
  match r with
  | .fill => encodeFields 1 (cmdDpx w) (cmdMaskEn w) (cmdBlend w) (cmdSrcFmt w)
  | .imageRgb565Normal => encodeImage .rgb565 .normal (cmdDpx w) (cmdMaskEn w)
  | .imageRgb565Add => encodeImage .rgb565 (.combine .additive) (cmdDpx w) (cmdMaskEn w)
  | .imageRgb565Sub => encodeImage .rgb565 (.combine .subtractive) (cmdDpx w) (cmdMaskEn w)
  | .imageRgb565Mul => encodeImage .rgb565 (.combine .multiply) (cmdDpx w) (cmdMaskEn w)
  | .imageRgb888Normal => encodeImage .rgb888 .normal (cmdDpx w) (cmdMaskEn w)
  | .imageRgb888Add => encodeImage .rgb888 (.combine .additive) (cmdDpx w) (cmdMaskEn w)
  | .imageRgb888Sub => encodeImage .rgb888 (.combine .subtractive) (cmdDpx w) (cmdMaskEn w)
  | .imageRgb888Mul => encodeImage .rgb888 (.combine .multiply) (cmdDpx w) (cmdMaskEn w)
  | .imageXrgb8888Normal => encodeImage .xrgb8888 .normal (cmdDpx w) (cmdMaskEn w)
  | .imageXrgb8888Add => encodeImage .xrgb8888 (.combine .additive) (cmdDpx w) (cmdMaskEn w)
  | .imageXrgb8888Sub => encodeImage .xrgb8888 (.combine .subtractive) (cmdDpx w) (cmdMaskEn w)
  | .imageXrgb8888Mul => encodeImage .xrgb8888 (.combine .multiply) (cmdDpx w) (cmdMaskEn w)
  | .imageArgb8888Normal => encodeImage .argb8888 .normal (cmdDpx w) (cmdMaskEn w)
  | .imageArgb8888Add => encodeImage .argb8888 (.combine .additive) (cmdDpx w) (cmdMaskEn w)
  | .imageArgb8888Sub => encodeImage .argb8888 (.combine .subtractive) (cmdDpx w) (cmdMaskEn w)
  | .imageArgb8888Mul => encodeImage .argb8888 (.combine .multiply) (cmdDpx w) (cmdMaskEn w)
  | .imageUnsupported => encodeFields 2 (cmdDpx w) (cmdMaskEn w) (cmdBlend w) (cmdSrcFmt w)
  | .illegalOp0 => encodeFields 0 (cmdDpx w) (cmdMaskEn w) (cmdBlend w) (cmdSrcFmt w)
  | .illegalOp3 => encodeFields 3 (cmdDpx w) (cmdMaskEn w) (cmdBlend w) (cmdSrcFmt w)

/-- What a row's meaning does once it has latched. -/
def rowBody (r : CommandRow) : State → Host.Outcome State Fault Refusal :=
  match r with
  | .fill => launch fillWriteSet
  | .imageRgb565Normal => launch (imageWriteSet .rgb565 .normal)
  | .imageRgb565Add => launch (imageWriteSet .rgb565 (.combine .additive))
  | .imageRgb565Sub => launch (imageWriteSet .rgb565 (.combine .subtractive))
  | .imageRgb565Mul => launch (imageWriteSet .rgb565 (.combine .multiply))
  | .imageRgb888Normal => launch (imageWriteSet .rgb888 .normal)
  | .imageRgb888Add => launch (imageWriteSet .rgb888 (.combine .additive))
  | .imageRgb888Sub => launch (imageWriteSet .rgb888 (.combine .subtractive))
  | .imageRgb888Mul => launch (imageWriteSet .rgb888 (.combine .multiply))
  | .imageXrgb8888Normal => launch (imageWriteSet .xrgb8888 .normal)
  | .imageXrgb8888Add => launch (imageWriteSet .xrgb8888 (.combine .additive))
  | .imageXrgb8888Sub => launch (imageWriteSet .xrgb8888 (.combine .subtractive))
  | .imageXrgb8888Mul => launch (imageWriteSet .xrgb8888 (.combine .multiply))
  | .imageArgb8888Normal => launch (imageWriteSet .argb8888 .normal)
  | .imageArgb8888Add => launch (imageWriteSet .argb8888 (.combine .additive))
  | .imageArgb8888Sub => launch (imageWriteSet .argb8888 (.combine .subtractive))
  | .imageArgb8888Mul => launch (imageWriteSet .argb8888 (.combine .multiply))
  | .imageUnsupported => rejectWith .unsupportedFormat
  | .illegalOp0 => rejectWith .illegalOp
  | .illegalOp3 => rejectWith .illegalOp

theorem runRow_accept (r : CommandRow) (w : Word) (s : State) : runRow r w s = accept (rowWord r w) s (rowBody r) := by
  cases r <;> rfl

/-- A row that fits a word latches that word, without its reserved bits. -/
theorem rowWord_eq (r : CommandRow) (w : Word) (h : r.fits w = true) : rowWord r w = w &&& cmdFieldMask := by
  rw [word_and_fields]
  have hop : ∀ k : BitVec 2, w &&& 0x00000003 = k.setWidth 32 → cmdOp w = k := fun k => (and_op_eq w k).1
  have him : ∀ (b : BitVec 2) (f : Byte), w &&& 0x0000FF33 = encodeFields 2 false false b f →
      encodeFields 2 (cmdDpx w) (cmdMaskEn w) b f =
        encodeFields (cmdOp w) (cmdDpx w) (cmdMaskEn w) (cmdBlend w) (cmdSrcFmt w) := fun b f he => by
    obtain ⟨h1, h2, h3⟩ := (and_image_eq w b f).1 he
    rw [h1, h2, h3]
  have hf := of_decide_eq_true h
  cases r
  case fill => simp only [rowWord, hop 1 hf]
  case imageUnsupported => simp only [rowWord, hop 2 hf]
  case illegalOp0 => simp only [rowWord, hop 0 hf]
  case illegalOp3 => simp only [rowWord, hop 3 hf]
  all_goals exact him _ _ hf

/-- The error a row ends with at acceptance, if it does (60_exceptions.md R221, R222). -/
def rowError (r : CommandRow) : Option ErrCode :=
  match r with
  | .imageUnsupported => some .unsupportedFormat
  | .illegalOp0 => some .illegalOp
  | .illegalOp3 => some .illegalOp
  | _ => none

/-- A row ends with its error, or launches its command's write set. -/
theorem rowBody_eq (s : State) :
    rowBody (commandRow s.latched.cmd) s = match rowError (commandRow s.latched.cmd) with
      | some e => rejectWith e s
      | none => launch commandWriteSet s := by
  unfold launch
  rw [commandWriteSet.eq_def]
  cases commandRow s.latched.cmd <;> rfl

/-- START in an IDLE engine (R202): L is the registers, with CMD's reserved bits 0; then the row's error, or the launch of
the command's write set. -/
theorem start_idle (s : State) (h : s.phase = .idle) :
    start s = match rowError (commandRow s.desc.cmd) with
      | some e => rejectWith e (s.latch (s.desc.cmd &&& cmdFieldMask))
      | none => launch commandWriteSet (s.latch (s.desc.cmd &&& cmdFieldMask)) := by
  rw [start, runRow_accept, rowWord_eq _ _ (commandRow_fits _), accept_idle _ _ h]
  have := rowBody_eq (s.latch (s.desc.cmd &&& cmdFieldMask))
  simpa only [latch_latched, commandRow_and_fields] using this

/-! ### The engine's steps -/

/-- The index `pick` is reduced to is one of the list's, where the list is not empty. -/
theorem pick_lt {α : Type} (xs : List α) (pick : Nat) (h : xs ≠ []) : pick % xs.length < xs.length :=
  Nat.mod_lt _ (List.length_pos_iff.2 h)

/-- With nothing pending the step ends the command with OK (R206). -/
theorem engineStep_done (pick : Nat) (s : State) (job : Job) (h : s.phase = .running job) (hp : job.pending = []) :
    engineStep pick s = s.terminate .ok := by
  simp [engineStep, h, hp]

/-- With a pair pending the step writes one (R204). -/
theorem engineStep_write (pick : Nat) (s : State) (job : Job) (h : s.phase = .running job) (hp : job.pending ≠ []) :
    engineStep pick s =
      s.commit job (job.pending[pick % job.pending.length]'(pick_lt _ pick hp))
        (job.pending.eraseIdx (pick % job.pending.length)) := by
  simp [engineStep, h, List.getElem?_eq_getElem (pick_lt _ pick hp)]

/-- While IDLE the engine does nothing. -/
theorem engineStep_idle (pick : Nat) (s : State) (h : s.phase = .idle) : engineStep pick s = s := by
  simp [engineStep, h]

/-- A bus error ends the command with BUS_ERROR or changes nothing (60_exceptions.md R223). -/
theorem busErrorStep_cases (s : State) :
    busErrorStep s = s.terminate .busError ∨ busErrorStep s = s := by
  unfold busErrorStep
  cases s.phase with
  | idle => exact .inr rfl
  | running job =>
    dsimp only
    split
    · exact .inl rfl
    · exact .inr rfl

/-- A bus error on a running command: the end with BUS_ERROR exactly where an error is possible and an access is made. -/
theorem busErrorStep_running (s : State) (job : Job) (h : s.phase = .running job) :
    busErrorStep s =
      if s.cfg.busErrPossible = true ∧ makesAccesses s.cfg s.latched = true then s.terminate .busError else s := by
  simp [busErrorStep, h]

/-- While IDLE there is nothing to end. -/
theorem busErrorStep_idle (s : State) (h : s.phase = .idle) : busErrorStep s = s := by
  simp [busErrorStep, h]

/-- The regime without a mask and not at full opacity (40_datapath.md R131). -/
theorem regime_nmPart_iff (c : Config) (l : Descriptor) :
    l.regime c = .nmPart ↔ l.maskEn = false ∧ full c l.opacity = false := by
  unfold Descriptor.regime regimeOf
  cases l.maskEn <;> cases full c l.opacity <;> simp

/-- Opacity 0 is not full, unless OPA_MAX is 0. -/
theorem full_zero_iff (c : Config) : full c 0 = false ↔ c.opaMax ≠ 0 := by
  simp [full, ← BitVec.toNat_inj]

/-- A fill mixes nothing exactly when it is unmasked at opacity 0 and OPA_MAX is not 0. -/
theorem fillsNothing_iff (c : Config) (l : Descriptor) :
    fillsNothing c l = true ↔ cmdOp l.cmd = 1 ∧ l.maskEn = false ∧ l.opacity = 0 ∧ c.opaMax ≠ 0 := by
  simp only [fillsNothing, Bool.and_eq_true, decide_eq_true_eq, regime_nmPart_iff]
  constructor
  · rintro ⟨⟨hop, hm, hf⟩, ho⟩
    exact ⟨hop, hm, ho, (full_zero_iff c).1 (ho ▸ hf)⟩
  · rintro ⟨hop, hm, ho, hc⟩
    exact ⟨⟨hop, hm, ho ▸ (full_zero_iff c).2 hc⟩, ho⟩

/-- Where a command makes accesses. -/
theorem makesAccesses_iff (c : Config) (l : Descriptor) :
    makesAccesses c l = true ↔ l.width ≠ 0 ∧ l.height ≠ 0 ∧ fillsNothing c l = false := by
  simp [makesAccesses, and_assoc]

/-- A fill that mixes nothing has an empty write set, whatever memory holds. -/
theorem fillsNothing_writeSet (c : Config) (l : Descriptor) (h : fillsNothing c l = true) (m0 : Memory) :
    commandWriteSet c l m0 = [] := by
  simp only [fillsNothing, Bool.and_eq_true, decide_eq_true_eq] at h
  obtain ⟨⟨hop, hr⟩, ho⟩ := h
  have hrow : commandRow l.cmd = .fill := by rw [commandRow_eq, hop]; rfl
  have hp : ∀ x y, fillPixel c l m0 x y = [] := fun x y => by
    simp [fillPixel, hr, wRgb, ho, mixedPixel]
  simp [commandWriteSet, hrow, fillWriteSet, overRegion, hp]

/-! ### The host's accesses to memory -/

/-- A host store that goes on is below the end of memory, in ordinary memory, outside the footprints of a running
command, and writes the byte (20_memory.md R80). -/
theorem hostStore_next (a : Nat) (v : Byte) (s t : State) :
    hostStore a v s = .next t ↔
      a < s.cfg.space ∧ s.cfg.ordinary a = true ∧ inRunningFootprint a s = false ∧ t = s.storeByte a v := by
  unfold hostStore hostMemory
  by_cases h1 : s.cfg.space ≤ a
  · simp [h1, Nat.not_lt.2 h1]
  · have h1' : a < s.cfg.space := Nat.lt_of_not_le h1
    cases h2 : s.cfg.ordinary a <;> cases h3 : inRunningFootprint a s <;> simp [h1, h1', eq_comm]

/-- A host load that goes on is below the end of memory, in ordinary memory, and returns the byte it reads. -/
theorem hostLoad_next (a : Nat) (sawFinal : Bool) (s t : State) :
    hostLoad a sawFinal s = .next t ↔
      a < s.cfg.space ∧ s.cfg.ordinary a = true ∧
        t = s.setHostData ((loadValue a sawFinal s).setWidth 32) := by
  unfold hostLoad hostMemory
  by_cases h1 : s.cfg.space ≤ a
  · simp [h1, Nat.not_lt.2 h1]
  · have h1' : a < s.cfg.space := Nat.lt_of_not_le h1
    cases h2 : s.cfg.ordinary a <;> simp [h1, h1', eq_comm]

/-! ### Everything exec can do -/

/-- The next states an instruction can answer: the state it was given; a value returned to the host; a register written;
DONE cleared; IRQ_EN written; and, in an IDLE engine, an acceptance that ends at once or one that runs. -/
inductive ExecEffect (s : State) : State → Prop
  | same : ExecEffect s s
  | returned (v : Word) : ExecEffect s (s.setHostData v)
  | written (r : DescReg) (v : Word) : ExecEffect s (s.setReg r v)
  | acknowledged : ExecEffect s s.clearDone
  | enabled (b : Bool) : ExecEffect s (s.setIrqEn b)
  | ended (b : Bool) (w : Word) (e : ErrCode) (idle : s.phase = .idle) :
      ExecEffect s (((s.setIrqEn b).latch w).terminate e)
  | started (b : Bool) (w : Word) (idle : s.phase = .idle) (reserved : w &&& ~~~cmdFieldMask = 0)
      (ok : violation s.cfg { s.desc with cmd := w } = none) :
      ExecEffect s (((s.setIrqEn b).latch w).begin (commandWriteSet s.cfg { s.desc with cmd := w } s.mem))

/-- A word under the mask has its reserved bits 0. -/
theorem and_fields_reserved (w : Word) : (w &&& cmdFieldMask) &&& ~~~cmdFieldMask = 0 := by
  rw [BitVec.and_assoc, BitVec.and_not_self]
  exact BitVec.and_zero

theorem encodeFields_reserved (op : BitVec 2) (d m : Bool) (b : BitVec 2) (f : Byte) :
    encodeFields op d m b f &&& ~~~cmdFieldMask = 0 := by
  have h := word_and_fields (encodeFields op d m b f)
  simp only [cmdOp_encodeFields, cmdDpx_encodeFields, cmdMaskEn_encodeFields, cmdBlend_encodeFields,
    cmdSrcFmt_encodeFields] at h
  rw [← h]
  exact and_fields_reserved _

/-- A START, with IRQ_EN written or not. -/
theorem start_effect (s t : State) (b : Bool) (h : start (s.setIrqEn b) = .next t) : ExecEffect s t := by
  cases hp : s.phase with
  | running job =>
    rw [start, runRow_accept, accept_running _ _ job (by simpa using hp)] at h
    cases h
    exact .enabled b
  | idle =>
    rw [start_idle _ (by simpa using hp)] at h
    split at h
    · cases h
      exact .ended b _ _ hp
    · obtain ⟨hv, rfl⟩ := (launch_next ..).1 h
      exact .started b _ hp (and_fields_reserved _) hv

/-- An accepted command instruction, run by itself. -/
theorem accept_launch_effect (w : Word) (ws : Config → Descriptor → Memory → List Host.Cell) (s t : State)
    (hr : w &&& ~~~cmdFieldMask = 0)
    (hws : ∀ (c : Config) (l : Descriptor) (m : Memory), l.cmd = w → ws c l m = commandWriteSet c l m)
    (h : accept w s (launch ws) = .next t) : ExecEffect s t := by
  cases hp : s.phase with
  | running job =>
    rw [accept_running _ _ job hp] at h
    cases h
    exact .same
  | idle =>
    rw [accept_idle _ _ hp] at h
    obtain ⟨hv, rfl⟩ := (launch_next ..).1 h
    have := ExecEffect.started s.irqEn w hp hr hv
    rw [← hws s.cfg { s.desc with cmd := w } s.mem rfl] at this
    exact this

theorem accept_reject_effect (w : Word) (e : ErrCode) (s t : State) (h : accept w s (rejectWith e) = .next t) :
    ExecEffect s t := by
  cases hp : s.phase with
  | running job =>
    rw [accept_running _ _ job hp] at h
    cases h
    exact .same
  | idle =>
    rw [accept_idle _ _ hp] at h
    cases h
    exact ExecEffect.ended s.irqEn w e hp

/-- The row of a word assembled from fields. -/
theorem commandRow_of_word (l : Descriptor) (op blend : BitVec 2) (d k : Bool) (f : Byte)
    (r : CommandRow) (hw : l.cmd = encodeFields op d k blend f) (h : rowOf op blend f = r) :
    commandRow l.cmd = r := by
  rw [hw, commandRow_eq]
  simpa using h

/-- If an instruction answers a next state, it is one of these. -/
theorem exec_effect (i : Instr) (s t : State) (h : exec i s = .next t) : ExecEffect s t := by
  cases i with
  | fill d m b f =>
    refine accept_launch_effect _ _ s t (encodeFields_reserved ..) (fun c l m0 hl => ?_) h
    rw [commandWriteSet, commandRow_of_word l _ _ _ _ _ .fill hl rfl]
  | imageRgb565Normal d m =>
    refine accept_launch_effect _ _ s t (encodeFields_reserved ..) (fun c l m0 hl => ?_) h
    rw [commandWriteSet, commandRow_of_word l _ _ _ _ _ .imageRgb565Normal hl rfl]
  | imageRgb565Add d m =>
    refine accept_launch_effect _ _ s t (encodeFields_reserved ..) (fun c l m0 hl => ?_) h
    rw [commandWriteSet, commandRow_of_word l _ _ _ _ _ .imageRgb565Add hl rfl]
  | imageRgb565Sub d m =>
    refine accept_launch_effect _ _ s t (encodeFields_reserved ..) (fun c l m0 hl => ?_) h
    rw [commandWriteSet, commandRow_of_word l _ _ _ _ _ .imageRgb565Sub hl rfl]
  | imageRgb565Mul d m =>
    refine accept_launch_effect _ _ s t (encodeFields_reserved ..) (fun c l m0 hl => ?_) h
    rw [commandWriteSet, commandRow_of_word l _ _ _ _ _ .imageRgb565Mul hl rfl]
  | imageRgb888Normal d m =>
    refine accept_launch_effect _ _ s t (encodeFields_reserved ..) (fun c l m0 hl => ?_) h
    rw [commandWriteSet, commandRow_of_word l _ _ _ _ _ .imageRgb888Normal hl rfl]
  | imageRgb888Add d m =>
    refine accept_launch_effect _ _ s t (encodeFields_reserved ..) (fun c l m0 hl => ?_) h
    rw [commandWriteSet, commandRow_of_word l _ _ _ _ _ .imageRgb888Add hl rfl]
  | imageRgb888Sub d m =>
    refine accept_launch_effect _ _ s t (encodeFields_reserved ..) (fun c l m0 hl => ?_) h
    rw [commandWriteSet, commandRow_of_word l _ _ _ _ _ .imageRgb888Sub hl rfl]
  | imageRgb888Mul d m =>
    refine accept_launch_effect _ _ s t (encodeFields_reserved ..) (fun c l m0 hl => ?_) h
    rw [commandWriteSet, commandRow_of_word l _ _ _ _ _ .imageRgb888Mul hl rfl]
  | imageXrgb8888Normal d m =>
    refine accept_launch_effect _ _ s t (encodeFields_reserved ..) (fun c l m0 hl => ?_) h
    rw [commandWriteSet, commandRow_of_word l _ _ _ _ _ .imageXrgb8888Normal hl rfl]
  | imageXrgb8888Add d m =>
    refine accept_launch_effect _ _ s t (encodeFields_reserved ..) (fun c l m0 hl => ?_) h
    rw [commandWriteSet, commandRow_of_word l _ _ _ _ _ .imageXrgb8888Add hl rfl]
  | imageXrgb8888Sub d m =>
    refine accept_launch_effect _ _ s t (encodeFields_reserved ..) (fun c l m0 hl => ?_) h
    rw [commandWriteSet, commandRow_of_word l _ _ _ _ _ .imageXrgb8888Sub hl rfl]
  | imageXrgb8888Mul d m =>
    refine accept_launch_effect _ _ s t (encodeFields_reserved ..) (fun c l m0 hl => ?_) h
    rw [commandWriteSet, commandRow_of_word l _ _ _ _ _ .imageXrgb8888Mul hl rfl]
  | imageArgb8888Normal d m =>
    refine accept_launch_effect _ _ s t (encodeFields_reserved ..) (fun c l m0 hl => ?_) h
    rw [commandWriteSet, commandRow_of_word l _ _ _ _ _ .imageArgb8888Normal hl rfl]
  | imageArgb8888Add d m =>
    refine accept_launch_effect _ _ s t (encodeFields_reserved ..) (fun c l m0 hl => ?_) h
    rw [commandWriteSet, commandRow_of_word l _ _ _ _ _ .imageArgb8888Add hl rfl]
  | imageArgb8888Sub d m =>
    refine accept_launch_effect _ _ s t (encodeFields_reserved ..) (fun c l m0 hl => ?_) h
    rw [commandWriteSet, commandRow_of_word l _ _ _ _ _ .imageArgb8888Sub hl rfl]
  | imageArgb8888Mul d m =>
    refine accept_launch_effect _ _ s t (encodeFields_reserved ..) (fun c l m0 hl => ?_) h
    rw [commandWriteSet, commandRow_of_word l _ _ _ _ _ .imageArgb8888Mul hl rfl]
  | imageUnsupported d m b f => exact accept_reject_effect _ _ s t h
  | illegalOp0 d m b f => exact accept_reject_effect _ _ s t h
  | illegalOp3 d m b f => exact accept_reject_effect _ _ s t h
  | rdConfig => cases h; exact .returned _
  | rdCtrl => cases h; exact .returned _
  | rdStatus => cases h; exact .returned _
  | rdCmd => cases h; exact .returned _
  | rdDestAddr => cases h; exact .returned _
  | rdDestSize => cases h; exact .returned _
  | rdDestStride => cases h; exact .returned _
  | rdColor => cases h; exact .returned _
  | rdOpa => cases h; exact .returned _
  | rdMaskAddr => cases h; exact .returned _
  | rdMaskStride => cases h; exact .returned _
  | rdSrcAddr => cases h; exact .returned _
  | rdSrcStride => cases h; exact .returned _
  | wrConfig v => cases h; exact .same
  | wrCtrl v =>
    simp only [exec, execWrCtrl] at h
    split at h
    · exact start_effect s t _ h
    · cases h
      exact .enabled _
  | wrStatus v =>
    simp only [exec, execWrStatus] at h
    cases h
    split
    · exact .acknowledged
    · exact .same
  | wrCmd v => cases h; exact .written _ _
  | wrDestAddr v => cases h; exact .written _ _
  | wrDestSize v => cases h; exact .written _ _
  | wrDestStride v => cases h; exact .written _ _
  | wrColor v => cases h; exact .written _ _
  | wrOpa v => cases h; exact .written _ _
  | wrMaskAddr v => cases h; exact .written _ _
  | wrMaskStride v => cases h; exact .written _ _
  | wrSrcAddr v => cases h; exact .written _ _
  | wrSrcStride v => cases h; exact .written _ _
  | rdReserved offset => cases h; exact .returned _
  | wrReserved offset v => cases h; exact .same

end Sys2Proof.Machine
end

