-- ==== Sys2Proof/Tests/Slice0.lean ====
section
/-! SUPPORT. The model's own tests: ill-formed terms are refused, words written out from the spec's encodings decode to
their instructions, single steps give the values of spec/95_test_vectors.md, and for each statement with hypotheses a
concrete state and operands that meet them. -/

namespace Sys2Proof.Tests

open Sys2Proof.Machine

/-! ## Well-formedness: one ill-formed term for each check -/

theorem test_wellFormed_refuses_a_supported_format_as_unsupported :
    (Instr.imageUnsupported false false 0 0x12).wellFormed = false ∧
    (Instr.imageUnsupported false false 0 0x0F).wellFormed = false ∧
    (Instr.imageUnsupported false false 0 0x11).wellFormed = false ∧
    (Instr.imageUnsupported false false 0 0x10).wellFormed = false ∧
    (Instr.imageUnsupported false false 0 0x0E).wellFormed = true := by decide

theorem test_wellFormed_refuses_a_reserved_read_of_a_register :
    (Instr.rdReserved 0x30).wellFormed = false ∧ (Instr.rdReserved 0x36).wellFormed = false ∧
    (Instr.rdReserved 0x34).wellFormed = true ∧ (Instr.rdReserved 0xFC).wellFormed = true := by decide

theorem test_wellFormed_refuses_a_reserved_write_of_a_register :
    (Instr.wrReserved 0x30 1).wellFormed = false ∧ (Instr.wrReserved 0xFD 1).wellFormed = false ∧
    (Instr.wrReserved 0x34 1).wellFormed = true := by decide

/-! ## Decoding: words written out from 30_encoding.md R91 to R96 (OP 1:0, DPX 2, MASK_EN 3, BLEND 5:4, SRC_FMT 15:8) -/

/-- OP = 01; DPX and MASK_EN each alone; BLEND = 11 and SRC_FMT = 0x0E ignored (95 section 2.5). -/
theorem test_decode_fill :
    decodeCommand 0x00000001 = .fill false false 0 0 ∧ decodeCommand 0x00000005 = .fill true false 0 0 ∧
    decodeCommand 0x00000009 = .fill false true 0 0 ∧ decodeCommand 0x00000E31 = .fill false false 3 0x0E := by decide

/-- SRC_FMT = 0x12, OP = 10 (R173, R174). -/
theorem test_decode_rgb565 :
    decodeCommand 0x00001206 = .imageRgb565Normal true false ∧ decodeCommand 0x00001212 = .imageRgb565Add false false ∧
    decodeCommand 0x00001222 = .imageRgb565Sub false false ∧ decodeCommand 0x0000123A = .imageRgb565Mul false true := by
  decide

/-- SRC_FMT = 0x0F (R175, R176). -/
theorem test_decode_rgb888 :
    decodeCommand 0x00000F0A = .imageRgb888Normal false true ∧ decodeCommand 0x00000F16 = .imageRgb888Add true false ∧
    decodeCommand 0x00000F2A = .imageRgb888Sub false true ∧ decodeCommand 0x00000F32 = .imageRgb888Mul false false := by
  decide

/-- SRC_FMT = 0x11 (R177, R178). -/
theorem test_decode_xrgb8888 :
    decodeCommand 0x00001102 = .imageXrgb8888Normal false false ∧
    decodeCommand 0x00001116 = .imageXrgb8888Add true false ∧
    decodeCommand 0x0000112E = .imageXrgb8888Sub true true ∧
    decodeCommand 0x00001132 = .imageXrgb8888Mul false false := by decide

/-- SRC_FMT = 0x10 (R179, R180; 0x0000101E is R109's example). -/
theorem test_decode_argb8888 :
    decodeCommand 0x0000100A = .imageArgb8888Normal false true ∧
    decodeCommand 0x0000101E = .imageArgb8888Add true true ∧
    decodeCommand 0x00001026 = .imageArgb8888Sub true false ∧
    decodeCommand 0x00001036 = .imageArgb8888Mul true false := by decide

/-- R181, R222; ILLEGAL_OP with an unsupported SRC_FMT is ILLEGAL_OP (95 section 2.8). -/
theorem test_decode_unsupported_and_illegal :
    decodeCommand 0x00000E02 = .imageUnsupported false false 0 0x0E ∧
    decodeCommand 0x00001306 = .imageUnsupported true false 0 0x13 ∧
    decodeCommand 0x00000000 = .illegalOp0 false false 0 0 ∧ decodeCommand 0x00001204 = .illegalOp0 true false 0 0x12 ∧
    decodeCommand 0x0000FF03 = .illegalOp3 false false 0 0xFF := by decide

/-- Bits 7:6 and 31:16 are reserved (R97): they change nothing. -/
theorem test_decode_ignores_reserved_bits : decodeCommand 0xFFFF00C5 = .fill true false 0 0 := by decide

/-- The instruction a host access at REG_BASE + offset decodes to, the block being at 0x1000. -/
def at1000 (offset : Nat) (dir : Direction) (v : Word) : Option Instr :=
  match decode 0x1000 (.access ⟨0x1000 + offset, 4, dir, v⟩) with
  | .ok i => some i
  | .error _ => none

/-- The offsets of 10_state.md R20 and R21. -/
theorem test_decode_reads :
    at1000 0x00 .read 0 = some .rdConfig ∧ at1000 0x04 .read 0 = some .rdCtrl ∧
    at1000 0x08 .read 0 = some .rdStatus ∧ at1000 0x0C .read 0 = some .rdCmd ∧
    at1000 0x10 .read 0 = some .rdDestAddr ∧ at1000 0x14 .read 0 = some .rdDestSize ∧
    at1000 0x18 .read 0 = some .rdDestStride ∧ at1000 0x1C .read 0 = some .rdColor ∧
    at1000 0x20 .read 0 = some .rdOpa ∧ at1000 0x24 .read 0 = some .rdMaskAddr ∧
    at1000 0x28 .read 0 = some .rdMaskStride ∧ at1000 0x2C .read 0 = some .rdSrcAddr ∧
    at1000 0x30 .read 0 = some .rdSrcStride ∧ at1000 0x34 .read 0 = some (.rdReserved 0x34) ∧
    at1000 0xFC .read 0 = some (.rdReserved 0xFC) := by decide

theorem test_decode_writes :
    at1000 0x00 .write 7 = some (.wrConfig 7) ∧ at1000 0x04 .write 7 = some (.wrCtrl 7) ∧
    at1000 0x08 .write 7 = some (.wrStatus 7) ∧ at1000 0x0C .write 7 = some (.wrCmd 7) ∧
    at1000 0x10 .write 7 = some (.wrDestAddr 7) ∧ at1000 0x14 .write 7 = some (.wrDestSize 7) ∧
    at1000 0x18 .write 7 = some (.wrDestStride 7) ∧ at1000 0x1C .write 7 = some (.wrColor 7) ∧
    at1000 0x20 .write 7 = some (.wrOpa 7) ∧ at1000 0x24 .write 7 = some (.wrMaskAddr 7) ∧
    at1000 0x28 .write 7 = some (.wrMaskStride 7) ∧ at1000 0x2C .write 7 = some (.wrSrcAddr 7) ∧
    at1000 0x30 .write 7 = some (.wrSrcStride 7) ∧ at1000 0x40 .write 7 = some (.wrReserved 0x40 7) := by decide

/-- 20_memory.md R86, 00_scope.md R11: rejected by name. -/
theorem test_decode_rejects_undefined_accesses :
    decode 0x1000 (.access ⟨0x1002, 4, .read, 0⟩) = .error .misaligned ∧
    decode 0x1000 (.access ⟨0x1004, 2, .write, 0⟩) = .error .wrongWidth ∧
    decode 0x1000 (.access ⟨0x1100, 4, .read, 0⟩) = .error .outsideBlock ∧
    decode 0x1000 (.access ⟨0x0FFC, 4, .read, 0⟩) = .error .outsideBlock := by decide

/-! ## Small states -/

/-- The state of an outcome that goes on. -/
def nextOf : Host.Outcome State Fault Refusal → Option State
  | .next s => some s
  | .fault _ => none
  | .refused _ => none

/-- The refusal of an outcome that is one. -/
def refusalOfOutcome : Host.Outcome State Fault Refusal → Option Refusal
  | .next _ => none
  | .fault _ => none
  | .refused r => some r

/-- The bytes the running command still has to write, none where none runs. -/
def pendingOf (s : State) : Option (List Host.Cell) :=
  match s.phase with
  | .idle => none
  | .running job => some job.pending

/-- What an instruction, run as the one step, leaves to be written. -/
def toWrite (i : Instr) (s : State) : Option (List Host.Cell) := (nextOf (exec i s)).bind pendingOf

/-- STATUS after one instruction. -/
def statusAfter (i : Instr) (s : State) : Option Word := (nextOf (exec i s)).map State.statusWord

/-- What the host reads with `rd`. -/
def sees (rd : Instr) (s : State) : Option Word := (nextOf (exec rd s)).map fun t => t.hostData

/-- What the host reads with `rd` after the write `wr`. -/
def readBack (wr rd : Instr) (s : State) : Option Word := (nextOf (exec wr s)).bind (sees rd)

/-- Bytes put into memory from an address on. -/
def place : Nat → List Byte → Memory → Memory
  | _, [], m => m
  | a, b :: bs, m => place (a + 1) bs (m.write a b)

/-- One destination pixel at 0x100 holding 40 80 C0 55, a mask value at 0x200, a source pixel at 0x300, and the colour
of 95 section 2.5. -/
def onePixel (opa m : Byte) (src : List Byte) : State :=
  { State.reset with
    desc :=
      { cmd := 0, destAddr := 0x100, destSize := 0x00010001, destStride := 1, color := 0x00112233
        opa := opa.setWidth 32, maskAddr := 0x200, maskStride := 1, srcAddr := 0x300, srcStride := 1 }
    mem := place 0x300 src (place 0x200 [m] (place 0x100 [0x40, 0x80, 0xC0, 0x55] [])) }

/-- The three colour bytes of that pixel, to be written. -/
def colours (a b c : Byte) : Option (List Host.Cell) := some [(0x100, a), (0x101, b), (0x102, c)]

/-- All four bytes of it. -/
def fourBytes (a b c d : Byte) : Option (List Host.Cell) := some [(0x100, a), (0x101, b), (0x102, c), (0x103, d)]

/-- A state with NONNORMAL_SWAP = 1. -/
def swapped (s : State) : State := { s with cfg := { s.cfg with nonnormalSwap := true } }

/-! ## The commands: 95 sections 2.5 and 2.6 -/

theorem test_fill_full_writes_colour_and_pad :
    toWrite (.fill true false 0 0) (onePixel 0xFF 0 []) = fourBytes 0x33 0x22 0x11 0xFF ∧
    toWrite (.fill false false 3 0x0E) (onePixel 0xFF 0 []) = colours 0x33 0x22 0x11 ∧
    toWrite (.fill true false 0 0) (onePixel 64 0 []) = colours 0x3C 0x68 0x93 := by decide

theorem test_fill_masked :
    toWrite (.fill true true 0 0) (onePixel 0xFF 100 []) = colours 0x3A 0x5A 0x7A ∧
    toWrite (.fill false true 0 0) (onePixel 200 200 []) = colours 0x37 0x46 0x54 ∧
    toWrite (.fill true true 0 0) (onePixel 0xFF 0 []) = some [] := by decide

theorem test_rgb565_normal :
    toWrite (.imageRgb565Normal false false) (onePixel 0xFF 0 [0x00, 0xF8]) = colours 0x00 0x00 0xFF ∧
    toWrite (.imageRgb565Normal false false) (onePixel 0xFF 0 [0x21, 0x08]) = colours 0x08 0x04 0x08 := by decide

theorem test_rgb565_add :
    toWrite (.imageRgb565Add false false) (onePixel 0xFF 0 [0x10, 0x84]) = colours 0xC3 0xFF 0xFF := by decide

theorem test_rgb565_sub :
    toWrite (.imageRgb565Sub false false) (onePixel 128 0 [0xFF, 0xFF]) = colours 0x1F 0x3F 0x5F ∧
    toWrite (.imageRgb565Sub false false) (swapped (onePixel 0xFF 0 [0x10, 0x84])) = colours 0x00 0x00 0x3D := by decide

theorem test_rgb565_mul :
    toWrite (.imageRgb565Mul false true) (onePixel 0xFF 128 [0xFF, 0xFF]) = colours 0x3F 0x7F 0xBE := by decide

theorem test_rgb888_normal_copies :
    toWrite (.imageRgb888Normal false false) (onePixel 0xFF 0 [0x10, 0x20, 0x30]) = colours 0x10 0x20 0x30 ∧
    toWrite (.imageRgb888Normal true false) (onePixel 0xFF 0 [0x10, 0x20, 0x30]) = colours 0x10 0x20 0x30 ∧
    toWrite (.imageRgb888Normal false false) (swapped (onePixel 0xFF 0 [0x10, 0x20, 0x30])) = colours 0x10 0x20 0x30 := by
  decide

theorem test_rgb888_normal_mixes :
    toWrite (.imageRgb888Normal true false) (onePixel 128 0 [0x10, 0x20, 0x30]) = colours 0x27 0x4F 0x77 ∧
    toWrite (.imageRgb888Normal false true) (onePixel 0xFF 0 [0x10, 0x20, 0x30]) = some [] := by decide

theorem test_rgb888_add :
    toWrite (.imageRgb888Add false false) (onePixel 0xFF 0 [0x10, 0x20, 0x30]) = colours 0x50 0xA0 0xF0 := by decide

theorem test_rgb888_sub :
    toWrite (.imageRgb888Sub false true) (onePixel 0xFF 255 [0x10, 0x20, 0x30]) = colours 0x2F 0x5F 0x8F ∧
    toWrite (.imageRgb888Sub false false) (swapped (onePixel 0xFF 0 [0x10, 0x20, 0x30])) = colours 0x10 0x60 0xB0 := by
  decide

theorem test_rgb888_mul :
    toWrite (.imageRgb888Mul false false) (onePixel 0xFF 0 [0x10, 0x20, 0x30]) = colours 0x04 0x10 0x24 := by decide

theorem test_xrgb8888_normal :
    toWrite (.imageXrgb8888Normal true false) (onePixel 0xFF 0 [0x10, 0x20, 0x30, 0x99]) = fourBytes 0x10 0x20 0x30 0x99 ∧
    toWrite (.imageXrgb8888Normal false false) (onePixel 0xFF 0 [0x10, 0x20, 0x30, 0x99]) = colours 0x10 0x20 0x30 ∧
    toWrite (.imageXrgb8888Normal true false) (onePixel 100 0 [0x10, 0x20, 0x30, 0x99]) = colours 0x2D 0x5A 0x87 := by
  decide

theorem test_xrgb8888_add :
    toWrite (.imageXrgb8888Add true false) (onePixel 0xFF 0 [0x10, 0x20, 0x30, 0x99]) = colours 0x50 0xA0 0xF0 := by decide

/-- By R178 as the RGB888 row of 95 section 2.6 with the same source bytes. -/
theorem test_xrgb8888_sub :
    toWrite (.imageXrgb8888Sub false false) (onePixel 0xFF 0 [0x10, 0x20, 0x30, 0x99]) = colours 0x30 0x60 0x90 := by decide

/-- By R178 as the RGB888 row of 95 section 2.6 with the same source bytes. -/
theorem test_xrgb8888_mul :
    toWrite (.imageXrgb8888Mul false false) (onePixel 0xFF 0 [0x10, 0x20, 0x30, 0x99]) = colours 0x04 0x10 0x24 := by decide

theorem test_argb8888_normal :
    toWrite (.imageArgb8888Normal true false) (onePixel 0xFF 0 [0x10, 0x20, 0x30, 0x00]) = some [] ∧
    toWrite (.imageArgb8888Normal true false) (onePixel 0xFF 0 [0x10, 0x20, 0x30, 0xFF]) = colours 0x10 0x20 0x30 ∧
    toWrite (.imageArgb8888Normal false true) (onePixel 200 200 [0x10, 0x20, 0x30, 0xC8]) = colours 0x28 0x51 0x7A := by
  decide

theorem test_argb8888_add :
    toWrite (.imageArgb8888Add true false) (onePixel 0xFF 0 [0x10, 0x20, 0x30, 0xFF]) = colours 0x50 0xA0 0xF0 := by decide

theorem test_argb8888_mul :
    toWrite (.imageArgb8888Mul true false) (onePixel 0xFF 0 [0xFF, 0x80, 0x00, 0x80]) = colours 0x3F 0x5F 0x5F := by decide

/-- 95 section 2.6 at alpha 0; at alpha 255, by R180, the combined colour of the RGB888 SUB row with the same bytes. -/
theorem test_argb8888_sub :
    toWrite (.imageArgb8888Sub true false) (onePixel 0xFF 0 [0xFF, 0xFF, 0xFF, 0x00]) = some [] ∧
    toWrite (.imageArgb8888Sub true false) (onePixel 0xFF 0 [0x10, 0x20, 0x30, 0xFF]) = colours 0x30 0x60 0x90 := by decide

/-- 95 section 2.8. -/
theorem test_errors_end_at_acceptance :
    statusAfter (.imageUnsupported false false 0 0x0E) (onePixel 0xFF 0 []) = some 0x00000012 ∧
    statusAfter (.illegalOp0 false false 0 0) State.reset = some 0x00000022 ∧
    statusAfter (.illegalOp3 false false 0 0xFF) State.reset = some 0x00000022 := by decide

/-- 95 section 2.5 with FILL_PAD = 0x00, and section 2.1 with OPA_MAX = 253: opacity 253 is full, 252 is not. -/
theorem test_parameters :
    toWrite (.fill true false 0 0)
      { onePixel 0xFF 0 [] with cfg := { Config.reference with fillPad := 0 } } = fourBytes 0x33 0x22 0x11 0x00 ∧
    mix3 { Config.reference with opaMax := 253 } ⟨10, 20, 30⟩ ⟨200, 200, 200⟩ 253 = ⟨10, 20, 30⟩ ∧
    mix3 { Config.reference with opaMax := 253 } ⟨10, 20, 30⟩ ⟨200, 200, 200⟩ 252 = ⟨12, 22, 31⟩ := by decide

/-- 95 section 2.7. -/
theorem test_addresses :
    destAddress Config.reference { Descriptor.zero with destAddr := 0x1000, destStride := 4 } 2 1 = 0x1012 ∧
    srcAddress Config.reference { Descriptor.zero with srcAddr := 0x4000, srcStride := 5 } 2 1 2 = 0x4016 ∧
    maskAddress Config.reference { Descriptor.zero with maskAddr := 0x2000, maskStride := 7 } 3 2 = 0x2011 := by decide

/-! ## Preconditions (20_memory.md R69 to R72) -/

/-- ROWS: W = 2, H = 2, DS = 1 is refused; H = 1 is accepted (95 section 2.7). -/
theorem test_rows :
    refusalOfOutcome (exec (.fill false false 0 0)
      { State.reset with desc := { Descriptor.zero with destSize := 0x00020002, destStride := 1 } }) = some .rows ∧
    refusalOfOutcome (exec (.fill false false 0 0)
      { State.reset with desc := { Descriptor.zero with destSize := 0x00010002, destStride := 1 } }) = none := by decide

/-- NOWRAP, DISJOINT (a mask byte in the destination) and MEMORY (the register block): refused by name. -/
theorem test_other_preconditions :
    refusalOfOutcome (exec (.fill false false 0 0)
      { State.reset with desc := { Descriptor.zero with destSize := 0x00010001, destAddr := 0xFFFFFFFE } }) = some .noWrap ∧
    refusalOfOutcome (exec (.fill false false 0 0)
      { State.reset with desc := { Descriptor.zero with destSize := 0x00010001, destAddr := 0xFFFFFFFD } }) = none ∧
    refusalOfOutcome (exec (.fill false true 0 0)
      { State.reset with desc := { Descriptor.zero with destSize := 0x00010001, maskAddr := 2 } }) = some .disjoint ∧
    refusalOfOutcome (exec (.fill false false 0 0)
      { State.reset with desc := { Descriptor.zero with destSize := 0x00010001, destAddr := 0x3FFFFFFE } }) =
      some .memory := by decide

/-! ## Register operations: 95 section 2.9 -/

theorem test_read_config :
    sees .rdConfig State.reset = some 0x0020FFFF ∧ readBack (.wrConfig 0) .rdConfig State.reset = some 0x0020FFFF := by
  decide

theorem test_reserved_reads_zero : readBack (.wrReserved 0x40 0x1234) (.rdReserved 0x40) State.reset = some 0 := by decide

theorem test_cmd_drops_reserved_bits : readBack (.wrCmd 0xFFFFFFFF) .rdCmd State.reset = some 0x0000FF3F := by decide

theorem test_dest_addr :
    readBack (.wrDestAddr 0xFFFFFFFF) .rdDestAddr
      { State.reset with cfg := { Config.reference with addrW := 24 } } = some 0x00FFFFFF ∧
    readBack (.wrDestAddr 0xFFFFFFFF) .rdDestAddr State.reset = some 0xFFFFFFFF := by decide

theorem test_dest_size : readBack (.wrDestSize 0x00050003) .rdDestSize State.reset = some 0x00050003 := by decide

theorem test_dest_stride : readBack (.wrDestStride 0xFFFF0010) .rdDestStride State.reset = some 0x00000010 := by decide

theorem test_color : readBack (.wrColor 0xFF123456) .rdColor State.reset = some 0x00123456 := by decide

theorem test_opa : readBack (.wrOpa 0x000001FF) .rdOpa State.reset = some 0x000000FF := by decide

/-- The field bits of 10_state.md R32 and R34. -/
theorem test_mask_and_source_addr :
    readBack (.wrMaskAddr 0x12345678) .rdMaskAddr
      { State.reset with cfg := { Config.reference with addrW := 16 } } = some 0x00005678 ∧
    readBack (.wrSrcAddr 0x12345678) .rdSrcAddr
      { State.reset with cfg := { Config.reference with addrW := 16 } } = some 0x00005678 := by decide

/-- The field bits of 10_state.md R33 and R35. -/
theorem test_mask_and_source_stride :
    readBack (.wrMaskStride 0x12345678) .rdMaskStride State.reset = some 0x00005678 ∧
    readBack (.wrSrcStride 0x12345678) .rdSrcStride State.reset = some 0x00005678 := by decide

/-- IRQ_EN alone; and after reset a START ends with ILLEGAL_OP. -/
theorem test_ctrl :
    readBack (.wrCtrl 0x2) .rdCtrl State.reset = some 0x00000002 ∧ statusAfter (.wrCtrl 0x2) State.reset = some 0 ∧
    statusAfter (.wrCtrl 0x1) State.reset = some 0x00000022 ∧
    readBack (.wrCtrl 0xFFFFFFFF) .rdCtrl (onePixel 0xFF 0 []) = some 0x00000002 := by decide

/-- A state whose STATUS is 0x12. -/
def failed : State := { State.reset with done := true, err := .unsupportedFormat }

theorem test_status :
    sees .rdStatus failed = some 0x00000012 ∧ readBack (.wrStatus 0x2) .rdStatus failed = some 0x00000010 ∧
    readBack (.wrStatus 0xFFFFFFFD) .rdStatus failed = some 0x00000012 := by decide

/-! ## A running command: 95 program P4 -/

/-- After step 3 of P4: FILL.D4 over two pixels at 0x9000, accepted with IRQ_EN = 1. -/
def p4Descriptor : Descriptor :=
  { cmd := 0x00000005, destAddr := 0x9000, destSize := 0x00010002, destStride := 2, color := 0x00112233, opa := 0xFF
    maskAddr := 0, maskStride := 0, srcAddr := 0, srcStride := 0 }

/-- The eight pairs of its write set. -/
def p4Pairs : List Host.Cell :=
  [(0x9000, 0x33), (0x9001, 0x22), (0x9002, 0x11), (0x9003, 0xFF),
    (0x9004, 0x33), (0x9005, 0x22), (0x9006, 0x11), (0x9007, 0xFF)]

/-- The running state, with pairs still to be written and events to come. -/
def p4 (mem : Memory) (pending : List Host.Cell) (agenda : List Event) : State :=
  { State.reset with
    irqEn := true, desc := p4Descriptor, latched := p4Descriptor
    phase := .running ⟨[], p4Pairs, pending⟩, mem := mem, agenda := agenda }

/-- Step 3: START accepts the command. -/
theorem test_start_accepts :
    nextOf (exec (.wrCtrl 0x3) { State.reset with desc := p4Descriptor }) = some (p4 [] p4Pairs []) ∧
    (p4 [] p4Pairs []).statusWord = 0x00000001 := by decide

/-- Step 5: START while RUNNING is dropped; IRQ_EN becomes 0. -/
theorem test_start_is_dropped_while_running :
    nextOf (exec (.wrCtrl 0x1) (p4 [] p4Pairs [])) = some { p4 [] p4Pairs [] with irqEn := false } := by decide

/-- The state after step 4: three pairs written. -/
def p4Half (agenda : List Event) : State :=
  p4 [(0x9000, 0x33), (0x9001, 0x22), (0x9002, 0x11)] (p4Pairs.drop 3) agenda

/-- Step 7: byte 0x9004 reads 0x00 or 0x33. -/
theorem test_racing_read :
    (nextOf (step (p4Half [.load 0x9004 false]))).map (fun t => t.hostData) = some 0x00 ∧
    (nextOf (step (p4Half [.load 0x9004 true]))).map (fun t => t.hostData) = some 0x33 := by decide

/-- An engine step writes the chosen pair; and with nothing pending it ends the command with STATUS 0x02. -/
theorem test_engine_steps :
    nextOf (step (p4 [] (p4Pairs.take 2) [.engine 1])) = some (p4 [(0x9001, 0x22)] [(0x9000, 0x33)] []) ∧
    (nextOf (step (p4 [] [] []))).map State.statusWord = some 0x00000002 := by decide

/-- A bus error leaves STATUS 0x32; reset while running leaves STATUS 0 and what was written. -/
theorem test_bus_error_and_reset :
    (nextOf (step (p4Half [.busError]))).map State.statusWord = some 0x00000032 ∧
    (nextOf (step (p4Half [.reset Descriptor.zero]))).map (fun t => (t.statusWord, t.mem)) =
      some (0x00000000, [(0x9000, 0x33), (0x9001, 0x22), (0x9002, 0x11)]) := by decide

/-- A running command of the descriptor `l` whose write set is empty, about to meet a bus error. -/
def emptyRunning (l : Descriptor) : State :=
  { State.reset with latched := l, phase := .running ⟨[], [], []⟩, agenda := [.busError] }

/-- The unmasked fill at opacity 0 makes no access (41_fill.md R150): a bus error does not end it, it completes with OK;
a mask byte of 0 is still read, so the masked one ends with BUS_ERROR. -/
theorem test_bus_error_needs_an_access :
    (nextOf (step (emptyRunning { p4Descriptor with opa := 0 }))).map State.statusWord = some 0x00000001 ∧
    (nextOf (step ((emptyRunning { p4Descriptor with opa := 0 }).setAgenda []))).map State.statusWord =
      some 0x00000002 ∧
    (nextOf (step (emptyRunning { p4Descriptor with cmd := 0x0000000D, opa := 0 }))).map State.statusWord =
      some 0x00000032 := by decide

/-- A host store to a footprint byte is refused, to another byte it is done (20_memory.md R80). -/
theorem test_host_store_while_running :
    refusalOfOutcome (step (p4Half [.store 0x9007 1])) = some .footprintWritten ∧
    (nextOf (step (p4Half [.store 0x9008 1]))).map (fun t => t.mem.read 0x9008) = some 1 := by decide

/-- Beyond the address space a host access faults; the engine's own block is no memory. -/
theorem test_host_access_stops :
    refusalOfOutcome (step { State.reset with agenda := [.load 0x40000000 false] }) = some .hostAccessNotMemory ∧
    nextOf (step { State.reset with agenda := [.load 0x100000000 false] }) = none := by decide

/-! ## Words of the opcode table, placed and run -/

theorem test_table_words_decode :
    decodeTableWord 32 0x00000001 = some (.fill false false 0 0) ∧
    decodeTableWord 32 0x00001032 = some (.imageArgb8888Mul false false) ∧
    decodeTableWord 32 0x00000003 = some (.illegalOp3 false false 0 0) ∧
    decodeTableWord 48 0x1040000000F = some (.wrCtrl 0xF) ∧
    decodeTableWord 48 0x00800000000 = some .rdStatus := by decide

/-- The first step after reset runs the placed word: a FILL over the empty region runs, the error words end. -/
theorem test_placed_words_run :
    (nextOf (step (State.reset.withFetchWord 32 0x00000001))).map State.statusWord = some 0x00000001 ∧
    (nextOf (step (State.reset.withFetchWord 32 0x00001202))).map State.statusWord = some 0x00000001 ∧
    (nextOf (step (State.reset.withFetchWord 32 0x00000E02))).map State.statusWord = some 0x00000012 ∧
    (nextOf (step (State.reset.withFetchWord 32 0x00000000))).map State.statusWord = some 0x00000022 ∧
    (nextOf (step (State.reset.withFetchWord 48 0x00000000000))).map (fun t => t.hostData) = some 0x0020FFFF := by decide

/-! ## Witnesses: concrete states and operands that meet the hypotheses of the statements -/

/-- A descriptor whose reserved bits are 0, checked register by register. -/
theorem fieldsOnly_of (c : Config) (d : Descriptor) (h : [DescReg.cmd, .destAddr, .destSize, .destStride, .color, .opa,
    .maskAddr, .maskStride, .srcAddr, .srcStride].all (fun r => decide (d.get r &&& ~~~(r.fieldMask c) = 0)) = true) :
    d.fieldsOnly c := by
  intro r
  have := List.all_eq_true.1 h r (by cases r <;> decide)
  exact of_decide_eq_true this

theorem witness_running_invariant : (p4 [] p4Pairs []).Inv where
  config := by decide
  memoryForm := by decide
  memoryRange := by decide
  registers := fieldsOnly_of _ _ (by decide)
  running := by
    intro job h
    cases h
    exact ⟨rfl, rfl, fieldsOnly_of _ _ (by decide),
      ⟨by decide, by decide, by decide, by decide, by decide, by decide, by decide, by decide⟩⟩

theorem witness_half_written_invariant : (p4Half []).Inv where
  config := by decide
  memoryForm := by decide
  memoryRange := by decide
  registers := fieldsOnly_of _ _ (by decide)
  running := by
    intro job h
    cases h
    exact ⟨rfl, rfl, fieldsOnly_of _ _ (by decide),
      ⟨by decide, by decide, by decide, by decide, by decide, by decide, by decide, by decide⟩⟩

/-- The agenda plays no part in the invariant. -/
theorem inv_of_agenda (s : State) (es : List Event) (h : s.Inv) : (s.setAgenda es).Inv :=
  ⟨h.config, h.memoryForm, h.memoryRange, h.registers, h.running⟩

/-- PlatformResetRestoresRegistersAndKeepsMemory: a running and an idle state. -/
theorem witness_reset_event :
    (p4Half [.reset p4Descriptor]).agenda = .reset p4Descriptor :: [] ∧
    (State.reset.setAgenda [.reset Descriptor.zero]).agenda = .reset Descriptor.zero :: [] := ⟨rfl, rfl⟩

/-- EveryStepKeepsTheInvariant: a step of the engine, and the step of an accepted START. -/
theorem witness_step_with_invariant :
    (p4Half []).Inv ∧ (nextOf (step (p4Half []))).isSome = true :=
  ⟨witness_half_written_invariant, by decide⟩

/-- DecodeOfEncodeIsTheInstruction: the boundary offsets and formats. -/
theorem witness_wellFormed :
    (Instr.wrReserved 0xFC 0xFFFFFFFF).wellFormed = true ∧ (Instr.rdReserved 0x34).wellFormed = true ∧
    (Instr.imageUnsupported true true 3 0x13).wellFormed = true := by decide

/-- EveryCommandWordIsExactlyOneRow: an overlap, and a word of the last image row alone. -/
theorem witness_overlapping_rows :
    CommandRow.imageUnsupported.fits 0x00001202 = true ∧ commandRow 0x00001202 = .imageRgb565Normal ∧
    CommandRow.imageUnsupported.fits 0x00000E02 = true ∧ commandRow 0x00000E02 = .imageUnsupported := by decide

/-- RegisterAccessesDecodeExactlyWhereDefined: the first and the last word slot. -/
theorem witness_defined_accesses :
    decodeAccess 0x1000 ⟨0x1000, 4, .read, 0⟩ = .ok .rdConfig ∧
    decodeAccess 0x1000 ⟨0x10FC, 4, .write, 9⟩ = .ok (.wrReserved 0xFC 9) := by decide

/-- UndefinedRegisterAccessesAreRefused: a byte access to the first slot, a misaligned one to the last byte, and an
access with both faults. -/
theorem witness_undefined_accesses :
    let s := State.reset.setAgenda [.reg ⟨0x40000000, 1, .read, 0⟩]
    let t := State.reset.setAgenda [.reg ⟨0x400000FF, 4, .write, 0⟩]
    let u := State.reset.setAgenda [.reg ⟨0x40000001, 2, .read, 0⟩]
    s.cfg.regBase ≤ 0x40000000 ∧ 0x400000FF < t.cfg.regBase + 0x100 ∧ (0x400000FF - t.cfg.regBase) % 4 ≠ 0 ∧
    refusalOfOutcome (step s) = some .registerWidth ∧ refusalOfOutcome (step t) = some .registerAlignment ∧
    (0x40000001 - u.cfg.regBase) % 4 ≠ 0 ∧ refusalOfOutcome (step u) = some .registerWidth := by decide

/-- A WR.CTRL of v by the host, in the configuration of State.reset. -/
def ctrlAccess (v : Word) : Access := ⟨0x40000004, 4, .write, v⟩

/-- AStepRunsTheDecodedRegisterAccess, AStartRunsTheCommandThatCmdDecodesTo: a START. -/
theorem witness_decoded_access :
    (p4Half [.reg (ctrlAccess 3)]).agenda = .reg (ctrlAccess 3) :: [] ∧
    decode (p4Half []).cfg.regBase (.access (ctrlAccess 3)) = .ok (.wrCtrl 3) ∧ (3 : Word).getLsbD 0 = true := by decide

/-- APlacedWordIsTheNextInstructionRun: the longest command word. -/
theorem witness_placed_word : 32 ≤ 32 ∧ (State.reset.withFetchWord 32 0xFFFFFFFF).desc.cmd = 0x0000FF3F := by decide

/-- ConfigCtrlAndStatusWordsHoldTheirFields: the largest ADDR_W of the spec. -/
theorem witness_addr_width : State.reset.cfg.addrW < 64 ∧ State.reset.cfg.addrW = 32 := by decide

/-- StatusWriteClearsDoneAndNothingElse: bit 1 set, bit 1 clear, a running command. -/
theorem witness_status_writes :
    (2 : Word).getLsbD 1 = true ∧ (0xFFFFFFFD : Word).getLsbD 1 = false ∧
    (p4Half []).busy = true ∧ (p4Half []).done = false := by decide

/-- StartWhileRunningIsDropped, DescriptorWritesDoNotTouchTheRunningCommand: a running state. -/
theorem witness_running_phase : (p4 [] p4Pairs []).phase = .running ⟨[], p4Pairs, p4Pairs⟩ := rfl

/-- The word in CMD of an otherwise reset state. -/
def withCmd (w : Word) : State := { State.reset with desc := { Descriptor.zero with cmd := w } }

/-- ACtrlWriteIsTheAcceptanceOfItsCommand: no START, START while running, and each way an acceptance goes. -/
theorem witness_acceptance :
    (2 : Word).getLsbD 0 = false ∧ (p4Half []).busy = true ∧ (1 : Word).getLsbD 0 = true ∧
    (withCmd 3).phase = .idle ∧ (withCmd 3).desc.cmd.extractLsb' 0 2 = 3 ∧
    (withCmd 0x1302).desc.cmd.extractLsb' 0 2 = 2 ∧ (withCmd 0x1302).desc.cmd.extractLsb' 8 8 = 0x13 ∧
    violation Config.reference { (withCmd 0x1202).desc with destSize := 0x00020002 } = some .rows ∧
    violation Config.reference (withCmd 1).desc = none := by decide

/-- FillIsAcceptedAndRuns and FillWritesWhatItsRegimeSays: each regime, at the opacities next to OPA_MAX. -/
theorem witness_fill :
    (onePixel 0xFF 0 []).phase = .idle ∧
    ∀ dpx maskEn : Bool, ∀ opa ∈ ([0xFE, 0xFF] : List Byte),
      violation Config.reference { (onePixel opa 0 []).desc with cmd := encodeFields 1 dpx maskEn 3 0xFF } = none := by
  decide

/-- The regimes of those fills (40_datapath.md R131). -/
theorem witness_fill_regimes :
    ({ (onePixel 0xFF 0 []).desc with cmd := 0x00000005 } : Descriptor).regime Config.reference = .nmFull ∧
    ({ (onePixel 0xFE 0 []).desc with cmd := 0x00000005 } : Descriptor).regime Config.reference = .nmPart ∧
    ({ (onePixel 0xFF 0 []).desc with cmd := 0x0000000D } : Descriptor).regime Config.reference = .mFull ∧
    ({ (onePixel 0xFE 0 []).desc with cmd := 0x0000000D } : Descriptor).regime Config.reference = .mPart ∧
    ({ (onePixel 0xFE 0 []).desc with cmd := 0x0000000D } : Descriptor).width = 1 ∧
    ({ (onePixel 0xFE 0 []).desc with cmd := 0x0000000D } : Descriptor).height = 1 ∧
    ({ (onePixel 0xFE 0 []).desc with cmd := 0x0000000D } : Descriptor).pixelSize = 4 ∧
    ({ (onePixel 0xFE 0 []).desc with cmd := 0x00000009 } : Descriptor).pixelSize = 3 := by decide

/-- ImageCommandsAreAcceptedAndRun, Rgb565CommandsWriteTheExpandedBlend, Rgb888CommandsWriteTheCopyOrTheBlend,
Xrgb8888CommandsWriteTheCopyOrTheBlend, Argb8888CommandsWriteTheAlphaBlend: every encoding, mode, size and mask. -/
theorem witness_image :
    ∀ fmt ∈ [SrcFmt.rgb565, .rgb888, .xrgb8888, .argb8888],
    ∀ mode ∈ [BlendMode.normal, .combine .additive, .combine .subtractive, .combine .multiply],
    ∀ dpx maskEn : Bool,
      violation Config.reference { (onePixel 0xFF 0 []).desc with cmd := encodeImage fmt mode dpx maskEn } = none := by
  decide

/-- The regimes of the image statements: the copy path and the others. -/
theorem witness_image_regimes :
    ({ (onePixel 0xFF 0 []).desc with cmd := encodeImage .rgb888 .normal true false } : Descriptor).regime
      Config.reference = .nmFull ∧
    ({ (onePixel 0xFF 0 []).desc with cmd := encodeImage .xrgb8888 .normal true true } : Descriptor).regime
      Config.reference ≠ .nmFull ∧
    ({ (onePixel 0xFF 0 []).desc with cmd := encodeImage .xrgb8888 .normal true false } : Descriptor).pixelSize = 4 := by
  decide

/-- Rgb565CommandsWriteTheExpandedBlend: the source value 0xF800 stored as 00 F8. -/
theorem witness_rgb565_value :
    (0xF800 : BitVec 16).toNat =
      (memRead8 Config.reference (onePixel 0xFF 0 [0x00, 0xF8]).mem 0x300).toNat
        + 256 * (memRead8 Config.reference (onePixel 0xFF 0 [0x00, 0xF8]).mem 0x301).toNat := by decide

/-- UnsupportedFormatEndsAtAcceptance and IllegalOpEndsAtAcceptance: an idle state, and a value with START. -/
theorem witness_error_commands : State.reset.phase = .idle ∧ (0xFFFFFFFF : Word).getLsbD 0 = true := by decide

/-- EngineStepWritesOneChosenPair: the first and the last index. -/
theorem witness_engine_pick :
    ((p4 [] p4Pairs []).setAgenda [.engine 0]).Inv ∧ 0 < p4Pairs.length ∧ 7 < p4Pairs.length ∧
    (nextOf (step ((p4 [] p4Pairs []).setAgenda [.engine 7]))).map (fun t => t.mem) = some [(0x9007, 0xFF)] :=
  ⟨inv_of_agenda _ _ witness_running_invariant, by decide, by decide, by decide⟩

/-- CompletionFollowsTheLastWrite: nothing pending, with an empty agenda and with an engine event. -/
theorem witness_completion :
    (p4 [] [] []).phase = .running ⟨[], p4Pairs, []⟩ ∧ (p4 [] [] []).agenda = [] ∧
    (p4 [] [] [.engine 5]).agenda = .engine 5 :: [] := ⟨rfl, rfl, rfl⟩

/-- AnAcceptedCommandRunsToItsResult: the whole write set pending, and part of it. -/
theorem witness_run :
    (p4 [] p4Pairs []).Inv ∧ (p4 [] p4Pairs []).agenda = [] ∧ (p4Half []).Inv ∧ (p4Half []).agenda = [] :=
  ⟨witness_running_invariant, rfl, witness_half_written_invariant, rfl⟩

/-- WriteOrderIsUnobservable: two different schedules of the five pairs left and the completion. -/
theorem witness_schedules :
    (p4Half []).Inv ∧ [4, 0, 2, 1, 0, 0].length = (p4Pairs.drop 3).length + 1 ∧
    [0, 0, 0, 0, 0, 9].length = (p4Pairs.drop 3).length + 1 :=
  ⟨witness_half_written_invariant, by decide, by decide⟩

/-- AnInterruptedCommandLeavesAnySubset: a part with a gap, where a bus error can happen. -/
theorem witness_part :
    (p4 [] p4Pairs []).Inv ∧ [(0x9001, 0x22), (0x9006, 0x11)].Sublist p4Pairs ∧
    (p4 [] p4Pairs []).cfg.busErrPossible = true ∧ makesAccesses Config.reference p4Descriptor = true :=
  ⟨witness_running_invariant, by decide, by decide, by decide⟩

/-- ABusErrorEndsTheCommandOrCannotHappen: an idle engine; a command that makes accesses, with BUS_ERR_POSSIBLE true and
false; an empty region; the unmasked fill at opacity 0, and at opacity 1, which does make accesses. -/
theorem witness_bus_error :
    (State.reset.setAgenda [.busError]).phase = .idle ∧ (p4Half [.busError]).agenda = .busError :: [] ∧
    (p4Half [.busError]).cfg.busErrPossible = true ∧ makesAccesses Config.reference p4Descriptor = true ∧
    ({ Config.reference with busErrPossible := false } : Config).busErrPossible = false ∧
    ({ p4Descriptor with destSize := 0x00010000 } : Descriptor).width = 0 ∧
    makesAccesses Config.reference { p4Descriptor with destSize := 0x00010000 } = false ∧
    makesAccesses Config.reference { p4Descriptor with opa := 0 } = false ∧
    makesAccesses Config.reference { p4Descriptor with opa := 1 } = true := by decide

/-- Mix3IsTheTruncatingMix, MixAndWeightLaws, CombinatorAddsSubtractsAndMultiplies,
Rgb565ChannelsExpandByTheirConstants: a legal configuration, the weights
next to 0 and to OPA_MAX, ordered colours, and channels on both sides of each other. -/
theorem witness_weights :
    Config.reference.wf = true ∧ (0 : Byte) = 0 ∧ (1 : Byte) ≠ 0 ∧ (1 : Byte).toNat < Config.reference.opaMax.toNat ∧
    (254 : Byte).toNat < Config.reference.opaMax.toNat ∧ (255 : Byte) ≠ 0 ∧
    Config.reference.opaMax.toNat ≤ (255 : Byte).toNat ∧ (10 : Byte).toNat ≤ (10 : Byte).toNat ∧
    (10 : Byte).toNat < (20 : Byte).toNat ∧ (0 : BitVec 5).toNat < (31 : BitVec 5).toNat ∧
    Triple.c2 ∈ [Triple.c0, Triple.c1, Triple.c2] := by
  refine ⟨by decide, by decide, by decide, by decide, by decide, by decide, by decide, by decide, by decide, by decide, ?_⟩
  simp

/-- The descriptor of program P1: rows of 3 pixels at a stride of 4. -/
def p1Descriptor : Descriptor :=
  { cmd := 0x00000009, destAddr := 0x1000, destSize := 0x00020003, destStride := 4, color := 0x00FF8000, opa := 0xC0
    maskAddr := 0x2000, maskStride := 3, srcAddr := 0, srcStride := 0 }

/-- ACommandTouchesOnlyItsFootprints: P1, two memories that differ only between W*P and DS*P of row 0. -/
theorem witness_footprints :
    violation Config.reference p1Descriptor = none ∧ p1Descriptor.width ≤ 3 ∧ 3 < p1Descriptor.destStep ∧
    1 < p1Descriptor.height ∧ 2 < p1Descriptor.pixelSize ∧
    ∀ a ∈ destFootprint Config.reference p1Descriptor ++ srcFootprint Config.reference p1Descriptor
      ++ maskFootprint Config.reference p1Descriptor, Memory.read [] a = Memory.read [(0x1009, 7)] a := by decide

/-- EachDestinationByteIsWrittenAtMostOnce and RawRowCopyAgreesWithTheGeneralPath: 4-byte and 3-byte pixels of which
each is the last of its row, in the regime NM_FULL. -/
theorem witness_write_sets :
    violation Config.reference p4Descriptor = none ∧ p4Descriptor.pixelSize = 4 ∧ 1 < p4Descriptor.width ∧
    0 < p4Descriptor.height ∧ p4Descriptor.regime Config.reference = .nmFull ∧
    ({ p4Descriptor with cmd := 0x00000F02, srcAddr := 0x300 } : Descriptor).pixelSize = 3 ∧
    ({ p4Descriptor with cmd := 0x00000F02, srcAddr := 0x300 } : Descriptor).regime Config.reference = .nmFull ∧
    violation Config.reference { p4Descriptor with cmd := 0x00001106, srcAddr := 0x300 } = none := by decide

/-- IgnoredFieldsHaveNoEffect: a fill, an image command, a command without a mask. -/
theorem witness_ignored_fields :
    p4Descriptor.cmd = encodeFields 1 true false 0 0 ∧ cmdOp 0x00001106 = 2 ∧ cmdMaskEn p4Descriptor.cmd = false := by
  decide

/-- PreconditionsDecideAcceptance: a violated precondition of a fill and of an image command in an idle engine. -/
theorem witness_violation :
    State.reset.phase = .idle ∧
    violation Config.reference
      { Descriptor.zero with cmd := encodeFields 1 false false 0 0, destSize := 0x00020002, destStride := 1 } =
      some .rows ∧
    violation Config.reference
      { Descriptor.zero with cmd := encodeImage .rgb888 .normal false false, destSize := 0x00010001 } =
      some .disjoint := by decide

/-- AHostStoreWhileRunningKeepsOffTheFootprints: the last footprint byte and the byte after it. -/
theorem witness_host_store :
    (p4Half [.store 0x9007 1]).agenda = .store 0x9007 1 :: [] ∧ (0x9008 : Nat) < 2 ^ (p4Half []).cfg.addrW ∧
    (p4Half []).cfg.ordinary 0x9007 = true ∧ (p4Half []).cfg.ordinary 0x9008 = true ∧
    0x9007 ∈ destFootprint Config.reference p4Descriptor ++ srcFootprint Config.reference p4Descriptor
      ++ maskFootprint Config.reference p4Descriptor ∧
    0x9008 ∉ destFootprint Config.reference p4Descriptor ++ srcFootprint Config.reference p4Descriptor
      ++ maskFootprint Config.reference p4Descriptor := by decide

/-- AHostStoreIntoAnIdleEngineWritesItsByte: the first and the last address, in a state that meets the invariant. -/
theorem witness_idle_store :
    (failed.setAgenda [.store 0xFFFFFFFF 1]).phase = .idle ∧ 0xFFFFFFFF < 2 ^ failed.cfg.addrW ∧
    failed.cfg.ordinary 0 = true ∧ failed.cfg.ordinary 0xFFFFFFFF = true ∧ failed.Inv :=
  ⟨rfl, by decide, by decide, by decide,
    ⟨by decide, by decide, by decide, fieldsOnly_of _ _ (by decide), fun _ h => by cases h⟩⟩

/-- A running image command with a mask: IMAGE.ARGB8888.NORMAL.D3.M of 95 section 2.6. -/
def maskedImage (agenda : List Event) : State :=
  let s := onePixel 200 200 [0x10, 0x20, 0x30, 0xC8]
  let l : Descriptor := { s.desc with cmd := 0x0000100A }
  let ws : List Host.Cell := [(0x100, 0x28), (0x101, 0x51), (0x102, 0x7A)]
  { s with desc := l, latched := l, phase := .running ⟨s.mem, ws, ws⟩, agenda := agenda }

theorem witness_masked_image_invariant : (maskedImage []).Inv where
  config := by decide
  memoryForm := by decide
  memoryRange := by decide
  registers := fieldsOnly_of _ _ (by decide)
  running := by
    intro job h
    cases h
    exact ⟨rfl, rfl, fieldsOnly_of _ _ (by decide),
      ⟨by decide, by decide, by decide, by decide, by decide, by decide, by decide, by decide⟩⟩

/-- AHostReadWhileRunningSeesTheOldOrTheFinalValue: a source, a mask and a destination byte of a running command that
meets the invariant, and an idle engine. -/
theorem witness_host_read :
    ((maskedImage []).setAgenda [.load 0x303 true]).Inv ∧ (maskedImage []).cfg.ordinary 0x303 = true ∧
    0x304 ∉ destFootprint Config.reference (maskedImage []).latched
      ++ srcFootprint Config.reference (maskedImage []).latched
      ++ maskFootprint Config.reference (maskedImage []).latched ∧
    0x303 ∈ srcFootprint Config.reference (maskedImage []).latched ∧
    0x200 ∈ maskFootprint Config.reference (maskedImage []).latched ∧
    0x100 ∈ destFootprint Config.reference (maskedImage []).latched ∧
    (State.reset.setAgenda [.load 0xFFFFFFFF false]).phase = .idle ∧
    State.reset.cfg.ordinary 0xFFFFFFFF = true ∧ 0xFFFFFFFF < 2 ^ State.reset.cfg.addrW :=
  ⟨inv_of_agenda _ _ witness_masked_image_invariant, by decide, by decide, by decide, by decide, by decide, rfl, by decide,
    by decide⟩

/-- NothingReadsLBeforeAnAcceptance: an idle engine whose step goes on, faults and is refused. -/
theorem witness_idle_steps :
    State.reset.phase = .idle ∧ (nextOf (step (State.reset.setAgenda [.reg (ctrlAccess 1)]))).isSome = true ∧
    (nextOf (step (State.reset.setAgenda [.load 0x100000000 false]))).isSome = false ∧
    refusalOfOutcome (step (State.reset.setAgenda [.reg ⟨0, 4, .read, 0⟩])) = some .outsideBlock := by decide

/-- NoInstructionWritesMemoryOrMoreThanItsOwn: one instruction of each kind goes on. -/
theorem witness_each_kind :
    ([Instr.fill true false 0 0, .rdStatus, .wrOpa 1, .wrCtrl 1, .wrStatus 2, .wrConfig 0].map fun i =>
      (instrKind i, (nextOf (exec i (onePixel 0xFF 0 []))).isSome)) =
    [(.command, true), (.read, true), (.descriptorWrite, true), (.ctrlWrite, true), (.statusWrite, true),
      (.ignoredWrite, true)] := by decide

/-- OnlyCompletionBusErrorOrResetEndsACommand: each of the three ends a running command. -/
theorem witness_ends :
    ([p4 [] [] [], p4Half [.busError], p4Half [.reset Descriptor.zero]].map fun s =>
      (nextOf (step s)).map fun t => decide (t.phase = .idle)) = [some true, some true, some true] := by decide

/-- ErrIsKeptUntilTheNextAcceptance and ConfigIsTheSameForEver: a failed, idle engine; STATUS read and acknowledged. -/
theorem witness_err_kept :
    failed.phase = .idle ∧
    (nextOf (step (failed.setAgenda [.reg ⟨0x40000008, 4, .read, 0⟩]))).map (fun t => t.err) =
      some .unsupportedFormat ∧
    (nextOf (step (failed.setAgenda [.reg ⟨0x40000008, 4, .write, 2⟩]))).map (fun t => (t.err, t.done)) =
      some (.unsupportedFormat, false) := by decide

/-- AnIdleEngineRunsNothing. -/
theorem witness_idle : State.reset.phase = .idle ∧ State.reset.agenda = [] := ⟨rfl, rfl⟩

/-- AStepStopsOnlyForTheReasonsNamed: each of its reasons. -/
theorem witness_stops :
    ([State.reset.setAgenda [.reg ⟨0x40000004, 1, .write, 1⟩],
      { State.reset with
        desc := { Descriptor.zero with cmd := 1, destSize := 0x00020002, destStride := 1 }
        agenda := [.reg (ctrlAccess 1)] },
      State.reset.setAgenda [.load 0x100000000 true], State.reset.setAgenda [.store 0x40000000 1],
      p4Half [.store 0x9000 1]].map fun s => (nextOf (step s)).isSome) = [false, false, false, false, false] := by decide

end Sys2Proof.Tests
end

section
/-! SUPPORT. One step by its next event, and the bits and the zeros of the words CTRL and STATUS. -/

namespace Sys2Proof.Machine

variable (s : State)

/-! ### One step -/

/-- With an empty agenda the step is the engine's own. -/
theorem step_of_agenda_nil (h : s.agenda = []) : step s = .next (engineStep 0 s) := by
  simp only [step, h]

/-- With an event ahead the step takes it off the agenda and handles it. -/
theorem step_of_agenda_cons (e : Event) (rest : List Event) (h : s.agenda = e :: rest) :
    step s = handle e (s.setAgenda rest) := by
  simp only [step, h]

/-! ### CTRL and STATUS (10_state.md R24, R25) -/

@[simp] theorem ctrlWord_bit_one : s.ctrlWord[1] = s.irqEn := by
  simp [State.ctrlWord, placeField]

@[simp] theorem statusWord_bit_one : s.statusWord[1] = s.done := by
  simp [State.statusWord, placeField]

theorem ctrlWord_eq_zero (h : s.irqEn = false) : s.ctrlWord = 0 := by
  simp [State.ctrlWord, placeField, h]

theorem statusWord_eq_zero (hb : s.busy = false) (hd : s.done = false) (he : s.err = .ok) : s.statusWord = 0 := by
  simp [State.statusWord, placeField, ErrCode.code, hb, hd, he]

@[simp] theorem platformReset_readReg (l : Descriptor) (r : DescReg) : (s.platformReset l).readReg r = 0 := by
  simp [State.readReg, get_zero]

end Sys2Proof.Machine
end

section
/-! PROOF. The interrupt output and the platform reset (10_state.md R36, R41; 70_reset_and_hazards.md R242). -/

namespace Sys2Proof.Machine

/-- Settles O37: IRQ is DONE AND IRQ_EN, and bit 1 of STATUS is DONE, bit 1 of CTRL is IRQ_EN. -/
theorem irqIsDoneAndEnable : Obligations.IrqIsDoneAndEnable :=
  ⟨fun s => by simp [State.irq], rfl⟩

/-- Settles O2: the step is the platform reset, whose fields are the reset values. -/
theorem platformResetRestoresRegistersAndKeepsMemory :
    Obligations.PlatformResetRestoresRegistersAndKeepsMemory := fun s l rest h =>
  let t := (s.setAgenda rest).platformReset l
  have hidle : t.phase = .idle := rfl
  ⟨t, step_of_agenda_cons s _ rest h, rfl, ctrlWord_eq_zero t rfl,
    statusWord_eq_zero t (busy_idle t hidle) rfl rfl, platformReset_readReg _ l, rfl, hidle, rfl, rfl⟩

end Sys2Proof.Machine
end

section
/-! PROOF. L is noninterfering in an IDLE engine (10_state.md R37). An acceptance overwrites L before anything looks at it
(43_command_control.md R202), and every other operation of an IDLE engine carries L along unread. -/

namespace Sys2Proof.Machine

/-- The state with other contents of L. -/
def State.withLatched (s : State) (l : Descriptor) : State := { s with latched := l }

/-- Two outcomes that differ at most in the L of a next state. -/
inductive AgreeUpToLatched :
    Host.Outcome State Fault Refusal → Host.Outcome State Fault Refusal → Prop
  | same (o : Host.Outcome State Fault Refusal) : AgreeUpToLatched o o
  | relatched (t : State) (l : Descriptor) : AgreeUpToLatched (.next t) (.next (t.withLatched l))

/-! ### What agreement gives -/

/-- Against a next state stands a next state that is the same once both have the same L. -/
theorem AgreeUpToLatched.of_next {t : State} {o : Host.Outcome State Fault Refusal}
    (h : AgreeUpToLatched (.next t) o) : ∃ t', o = .next t' ∧ ∀ z, t'.withLatched z = t.withLatched z := by
  cases h with
  | same => exact ⟨t, rfl, fun _ => rfl⟩
  | relatched _ l => exact ⟨t.withLatched l, rfl, fun _ => rfl⟩

theorem AgreeUpToLatched.of_fault {r : Fault} {o : Host.Outcome State Fault Refusal}
    (h : AgreeUpToLatched (.fault r) o) : o = .fault r := by
  cases h; rfl

theorem AgreeUpToLatched.of_refused {r : Refusal} {o : Host.Outcome State Fault Refusal}
    (h : AgreeUpToLatched (.refused r) o) : o = .refused r := by
  cases h; rfl

/-! ### The operations of an IDLE engine -/

variable (s : State) (l : Descriptor)

@[simp] theorem withLatched_cfg : (s.withLatched l).cfg = s.cfg := rfl
@[simp] theorem withLatched_phase : (s.withLatched l).phase = s.phase := rfl

/-- The latch of an acceptance overwrites L. -/
@[simp] theorem withLatched_latch (w : Word) : (s.withLatched l).latch w = s.latch w := rfl

/-- An acceptance in an IDLE engine does not depend on L. -/
theorem accept_withLatched (w : Word) (body : State → Host.Outcome State Fault Refusal) (h : s.phase = .idle) :
    accept w (s.withLatched l) body = accept w s body := by
  rw [accept_idle w (s.withLatched l) h, accept_idle w s h, withLatched_latch]

theorem accept_agree (w : Word) (body : State → Host.Outcome State Fault Refusal) (h : s.phase = .idle) :
    AgreeUpToLatched (accept w s body) (accept w (s.withLatched l) body) := by
  rw [accept_withLatched s l w body h]
  exact .same _

theorem start_agree (h : s.phase = .idle) : AgreeUpToLatched (start s) (start (s.withLatched l)) := by
  simp only [start, runRow_accept]
  exact accept_agree s l _ _ h

/-- A CTRL write starts the command in CMD, or changes IRQ_EN alone. -/
theorem execWrCtrl_agree (v : Word) (h : s.phase = .idle) :
    AgreeUpToLatched (execWrCtrl v s) (execWrCtrl v (s.withLatched l)) := by
  unfold execWrCtrl
  split
  · exact start_agree (s.setIrqEn _) l h
  · exact .relatched (s.setIrqEn _) l

theorem execWrStatus_agree (v : Word) : AgreeUpToLatched (execWrStatus v s) (execWrStatus v (s.withLatched l)) := by
  unfold execWrStatus
  split
  · exact .relatched s.clearDone l
  · exact .relatched s l

/-- A command is an acceptance; a register access reads and writes other fields than L. -/
theorem exec_agree (i : Instr) (h : s.phase = .idle) : AgreeUpToLatched (exec i s) (exec i (s.withLatched l)) := by
  cases i with
  | fill | imageUnsupported | illegalOp0 | illegalOp3
  | imageRgb565Normal | imageRgb565Add | imageRgb565Sub | imageRgb565Mul
  | imageRgb888Normal | imageRgb888Add | imageRgb888Sub | imageRgb888Mul
  | imageXrgb8888Normal | imageXrgb8888Add | imageXrgb8888Sub | imageXrgb8888Mul
  | imageArgb8888Normal | imageArgb8888Add | imageArgb8888Sub | imageArgb8888Mul => exact accept_agree s l _ _ h
  | rdConfig | rdCtrl | rdStatus | rdCmd | rdDestAddr | rdDestSize | rdDestStride | rdColor | rdOpa
  | rdMaskAddr | rdMaskStride | rdSrcAddr | rdSrcStride | rdReserved => exact .relatched (s.setHostData _) l
  | wrCmd | wrDestAddr | wrDestSize | wrDestStride | wrColor | wrOpa
  | wrMaskAddr | wrMaskStride | wrSrcAddr | wrSrcStride => exact .relatched (s.setReg _ _) l
  | wrCtrl v => exact execWrCtrl_agree s l v h
  | wrStatus v => exact execWrStatus_agree s l v
  | wrConfig | wrReserved => exact .relatched s l

theorem hostAccess_agree (a : Access) (h : s.phase = .idle) :
    AgreeUpToLatched (hostAccess a s) (hostAccess a (s.withLatched l)) := by
  simp only [hostAccess, withLatched_cfg]
  cases decode s.cfg.regBase (.access a) with
  | ok i => exact exec_agree s l i h
  | error r => exact .same _

/-- Which addresses the host may load or store does not depend on L. -/
theorem hostMemory_withLatched (a : Nat) (k : Host.Outcome State Fault Refusal) :
    hostMemory a (s.withLatched l) k = hostMemory a s k := rfl

/-- The host's accesses to memory agree where what they do on a byte of memory agrees. -/
theorem hostMemory_agree (a : Nat) {k k' : Host.Outcome State Fault Refusal} (h : AgreeUpToLatched k k') :
    AgreeUpToLatched (hostMemory a s k) (hostMemory a (s.withLatched l) k') := by
  rw [hostMemory_withLatched]
  unfold hostMemory
  split
  · exact .same _
  · split
    · exact h
    · exact .same _

/-- While IDLE no byte lies in a footprint of a running command. -/
theorem inRunningFootprint_idle (a : Nat) (s : State) (h : s.phase = .idle) : inRunningFootprint a s = false := by
  simp [inRunningFootprint, h]

theorem hostStore_agree (a : Nat) (v : Byte) (h : s.phase = .idle) :
    AgreeUpToLatched (hostStore a v s) (hostStore a v (s.withLatched l)) := by
  apply hostMemory_agree
  rw [inRunningFootprint_idle a s h, inRunningFootprint_idle a (s.withLatched l) h]
  exact .relatched (s.storeByte a v) l

theorem handle_agree (e : Event) (h : s.phase = .idle) :
    AgreeUpToLatched (handle e s) (handle e (s.withLatched l)) := by
  cases e with
  | reg a => exact hostAccess_agree s l a h
  | load a sawFinal => exact hostMemory_agree s l a (.relatched (s.setHostData _) l)
  | store a v => exact hostStore_agree s l a v h
  | engine pick =>
    simp only [handle, engineStep_idle pick s h, engineStep_idle pick (s.withLatched l) h]
    exact .relatched s l
  | busError =>
    simp only [handle, busErrorStep_idle s h, busErrorStep_idle (s.withLatched l) h]
    exact .relatched s l
  | reset latched => exact .same _

/-- From an IDLE state with other contents of L the step's outcome differs at most in L. -/
theorem step_agree (h : s.phase = .idle) : AgreeUpToLatched (step s) (step (s.withLatched l)) := by
  cases ha : s.agenda with
  | nil =>
    rw [step_of_agenda_nil s ha, step_of_agenda_nil (s.withLatched l) ha, engineStep_idle 0 s h,
      engineStep_idle 0 (s.withLatched l) h]
    exact .relatched s l
  | cons e rest =>
    rw [step_of_agenda_cons s e rest ha, step_of_agenda_cons (s.withLatched l) e rest ha]
    exact handle_agree (s.setAgenda rest) l e h

/-- Settles O51: the outcomes agree up to L, read off for each of the three outcomes. -/
theorem nothingReadsLBeforeAnAcceptance : Obligations.NothingReadsLBeforeAnAcceptance := by
  intro s l h
  have hagree := step_agree s l h
  refine ⟨fun t ht => ?_, fun r hr => ?_, fun r hr => ?_⟩
  · rw [ht] at hagree
    exact hagree.of_next
  · rw [hr] at hagree
    exact hagree.of_fault
  · rw [hr] at hagree
    exact hagree.of_refused

end Sys2Proof.Machine
end

section
/-! SUPPORT. The footprints of a command, its write set in them, and the pairs of a list that holds each address once. -/

namespace Sys2Proof.Machine

theorem mem_destFootprint (c : Config) (l : Descriptor) (a : Nat) :
    a ∈ destFootprint c l ↔
      ∃ x y k, x < l.width ∧ y < l.height ∧ k < l.pixelSize ∧ a = c.port (destByte c l x y k) := by
  simp only [destFootprint_eq, mem_overRegion, mem_pixelAddresses]
  constructor
  · rintro ⟨x, y, hx, hy, k, hk, ha⟩; exact ⟨x, y, k, hx, hy, hk, ha⟩
  · rintro ⟨x, y, k, hx, hy, hk, ha⟩; exact ⟨x, y, hx, hy, k, hk, ha⟩

/-- A pixel has its three colour bytes (30_encoding.md R93). -/
theorem three_le_pixelSize (l : Descriptor) : 3 ≤ l.pixelSize := by
  rcases pixelSize_cases l with h | h <;> omega

theorem destFootprint_lt (c : Config) (l : Descriptor) (a : Nat) (h : a ∈ destFootprint c l) : a < c.space := by
  obtain ⟨x, y, k, -, -, -, rfl⟩ := (mem_destFootprint c l a).1 h
  exact port_lt c _

/-- While a command runs, the bytes kept from the host's stores are its three footprints (20_memory.md R80). -/
theorem inRunningFootprint_iff (s : State) (job : Job) (h : s.phase = .running job) (a : Nat) :
    inRunningFootprint a s = true ↔
      a ∈ destFootprint s.cfg s.latched ++ srcFootprint s.cfg s.latched ++ maskFootprint s.cfg s.latched := by
  simp [inRunningFootprint, busy_running s job h]

/-- A command's write set lies in its destination footprint (20_memory.md R73). -/
theorem commandWriteSet_inDest (c : Config) (l : Descriptor) (m0 : Memory) :
    ∀ cell ∈ commandWriteSet c l m0, cell.1 ∈ destFootprint c l := by
  obtain ⟨f, hf, hws⟩ := commandWriteSet_shape c l m0
  rw [hws]
  exact hf.inDest

/-- Where its preconditions hold, a command's write set holds each address once (20_memory.md R74). -/
theorem commandWriteSet_once (c : Config) (l : Descriptor) (m0 : Memory) (h : violation c l = none) :
    ((commandWriteSet c l m0).map fun cell => cell.1).Nodup := by
  obtain ⟨f, hf, hws⟩ := commandWriteSet_shape c l m0
  obtain ⟨hnoWrap, hrows, -, -⟩ := (violation_none c l).1 h
  rw [hws]
  exact hf.once hnoWrap hrows

/-- An address is held by a list exactly where it has a value. -/
theorem mem_addresses_iff (ws : List Host.Cell) (a : Nat) :
    a ∈ ws.map (fun cell => cell.1) ↔ finalValue ws a ≠ none := by
  refine ⟨fun hm hnone => ?_, fun hsome => ?_⟩
  · obtain ⟨cell, hc, rfl⟩ := List.mem_map.1 hm
    simp only [finalValue, Option.map_eq_none_iff, List.find?_eq_none] at hnone
    exact hnone cell hc (decide_eq_true rfl)
  · obtain ⟨v, hv⟩ := Option.ne_none_iff_exists'.1 hsome
    exact List.mem_map_of_mem (mem_of_finalValue ws a v hv)

/-- Where each address is held once, a pair is determined by its address. -/
theorem cell_eq_of_address_eq {ws : List Host.Cell} (h : (ws.map fun cell => cell.1).Nodup) {p q : Host.Cell}
    (hp : p ∈ ws) (hq : q ∈ ws) (he : p.1 = q.1) : p = q :=
  List.inj_on_of_nodup_map h hp hq he

/-- What is left once a pair is taken out of a list that holds each address once. -/
theorem mem_eraseIdx_iff {ws : List Host.Cell} (h : (ws.map fun cell => cell.1).Nodup) (k : Nat) (hk : k < ws.length)
    (cell : Host.Cell) : cell ∈ ws.eraseIdx k ↔ cell ≠ ws[k] ∧ cell ∈ ws := by
  rw [← (List.Nodup.of_map _ h).erase_getElem k hk, (List.Nodup.of_map _ h).mem_erase_iff]

end Sys2Proof.Machine
end

section
/-! PROOF. The invariant of the machine is kept by every step (20_memory.md R73, R74, R80; 43_command_control.md R204).
Reserved register bits, the running command and the memory are each followed through the operations that touch them. -/

namespace Sys2Proof.Machine

/-! ### Reserved bits of the registers -/

theorem fieldsOnly_zero (c : Config) : Descriptor.zero.fieldsOnly c := fun r => by
  rw [get_zero]
  exact BitVec.zero_and

theorem Descriptor.fieldsOnly.set {c : Config} {d : Descriptor} (h : d.fieldsOnly c) (r : DescReg) (v : Word)
    (hv : v &&& ~~~(r.fieldMask c) = 0) : (d.set r v).fieldsOnly c := by
  intro q
  by_cases hq : q = r
  · subst hq
    rw [get_set_same, hv]
  · rw [get_set_other d r q v hq]
    exact h q

/-- A value under a mask has no bit outside it. -/
theorem and_mask_reserved (v m : Word) : (v &&& m) &&& ~~~m = 0 := by
  rw [BitVec.and_assoc, BitVec.and_not_self]
  exact BitVec.and_zero

/-! ### The running command -/

/-- At its acceptance a command has written nothing, and memory is M0. -/
theorem JobOk.launched (c : Config) (l : Descriptor) (mem : Memory) (h : violation c l = none) :
    JobOk c l mem ⟨mem, commandWriteSet c l mem, commandWriteSet c l mem⟩ where
  accepted := h
  writeSet := rfl
  inDest := commandWriteSet_inDest c l mem
  once := commandWriteSet_once c l mem h
  position := .refl _
  oldValue := fun _ _ => rfl
  newValue := fun _ hc hn => absurd hc hn
  restKept := fun _ _ _ => rfl

variable {c : Config} {l : Descriptor} {mem : Memory} {job : Job}

theorem JobOk.pending_once (h : JobOk c l mem job) : (job.pending.map fun cell => cell.1).Nodup :=
  h.once.sublist (h.position.map _)

theorem JobOk.pending_lt (h : JobOk c l mem job) (cell : Host.Cell) (hc : cell ∈ job.pending) : cell.1 < c.space :=
  destFootprint_lt c l _ (h.inDest cell (h.position.subset hc))

/-- Only the footprint bytes of memory matter to it. -/
theorem JobOk.of_read_eq (h : JobOk c l mem job) (mem' : Memory)
    (he : ∀ a ∈ destFootprint c l ++ srcFootprint c l ++ maskFootprint c l, mem'.read a = mem.read a) :
    JobOk c l mem' job := by
  have hws : ∀ cell ∈ job.ws, mem'.read cell.1 = mem.read cell.1 := fun cell hc =>
    he _ (List.mem_append_left _ (List.mem_append_left _ (h.inDest cell hc)))
  exact { h with
    oldValue := fun cell hc => (hws cell (h.position.subset hc)).trans (h.oldValue cell hc)
    newValue := fun cell hc hn => (hws cell hc).trans (h.newValue cell hc hn)
    restKept := fun a ha hn => (he a ha).trans (h.restKept a ha hn) }

/-- One pending pair is written: its byte has its final value, and no other byte of the footprints changes. -/
theorem JobOk.commit (h : JobOk c l mem job) (hwf : mem.wf = true) (k : Nat) (hk : k < job.pending.length) :
    JobOk c l (mem.write (c.port job.pending[k].1) job.pending[k].2)
      { job with pending := job.pending.eraseIdx k } := by
  have hmem : job.pending[k] ∈ job.pending := List.getElem_mem hk
  have hws : job.pending[k] ∈ job.ws := h.position.subset hmem
  have hother : ∀ cell ∈ job.ws, cell ≠ job.pending[k] →
      (mem.write job.pending[k].1 job.pending[k].2).read cell.1 = mem.read cell.1 := fun cell hc hne =>
    read_write_other mem _ _ _ hwf fun he => hne (cell_eq_of_address_eq h.once hc hws he)
  rw [port_of_lt c _ (h.pending_lt _ hmem)]
  refine { h with
    position := (List.eraseIdx_sublist ..).trans h.position
    oldValue := ?_
    newValue := ?_
    restKept := ?_ }
  · intro cell hc
    obtain ⟨hne, hpend⟩ := (mem_eraseIdx_iff h.pending_once k hk cell).1 hc
    rw [hother cell (h.position.subset hpend) hne]
    exact h.oldValue cell hpend
  · intro cell hc hn
    by_cases hne : cell = job.pending[k]
    · rw [hne]
      exact read_write_same mem _ _ hwf
    · rw [hother cell hc hne]
      exact h.newValue cell hc fun hpend => hn ((mem_eraseIdx_iff h.pending_once k hk cell).2 ⟨hne, hpend⟩)
  · intro a ha hn
    rw [read_write_other mem _ a _ hwf fun he => hn (he ▸ List.mem_map_of_mem hws)]
    exact h.restKept a ha hn

/-! ### The operations on the state -/

variable {s t : State}

/-- In an IDLE engine there is no running command to speak of. -/
theorem State.Inv.of_idle (h : s.phase = .idle) (config : s.cfg.wf = true) (memoryForm : s.mem.wf = true)
    (memoryRange : ∀ cell ∈ s.mem, cell.1 < s.cfg.space) (registers : s.desc.fieldsOnly s.cfg) : s.Inv where
  config := config
  memoryForm := memoryForm
  memoryRange := memoryRange
  registers := registers
  running := fun job hjob => by
    rw [h] at hjob
    cases hjob

/-- The agenda plays no part in it; nor do what the host sees next and IRQ_EN. -/
theorem State.Inv.setAgenda (h : s.Inv) (es : List Event) : (s.setAgenda es).Inv :=
  ⟨h.config, h.memoryForm, h.memoryRange, h.registers, h.running⟩

theorem State.Inv.setHostData (h : s.Inv) (v : Word) : (s.setHostData v).Inv :=
  ⟨h.config, h.memoryForm, h.memoryRange, h.registers, h.running⟩

theorem State.Inv.setIrqEn (h : s.Inv) (b : Bool) : (s.setIrqEn b).Inv :=
  ⟨h.config, h.memoryForm, h.memoryRange, h.registers, h.running⟩

theorem State.Inv.setReg (h : s.Inv) (r : DescReg) (v : Word) : (s.setReg r v).Inv :=
  ⟨h.config, h.memoryForm, h.memoryRange, h.registers.set r _ (and_mask_reserved v _), h.running⟩

theorem State.Inv.clearDone (h : s.Inv) : s.clearDone.Inv where
  config := h.config
  memoryForm := h.memoryForm
  memoryRange := h.memoryRange
  registers := h.registers
  running := fun job hjob =>
    let ⟨_, herr, hlatched, hok⟩ := h.running job hjob
    ⟨rfl, herr, hlatched, hok⟩

theorem State.Inv.terminate (h : s.Inv) (code : ErrCode) : (s.terminate code).Inv :=
  .of_idle rfl h.config h.memoryForm h.memoryRange h.registers

theorem State.Inv.platformReset (h : s.Inv) (latched : Descriptor) : (s.platformReset latched).Inv :=
  .of_idle rfl h.config h.memoryForm h.memoryRange (fieldsOnly_zero _)

/-- An acceptance that runs: L is the registers, memory is M0. -/
theorem State.Inv.launched (h : s.Inv) (w : Word) (hw : w &&& ~~~cmdFieldMask = 0)
    (hv : violation s.cfg { s.desc with cmd := w } = none) :
    ((s.latch w).begin (commandWriteSet s.cfg { s.desc with cmd := w } s.mem)).Inv where
  config := h.config
  memoryForm := h.memoryForm
  memoryRange := h.memoryRange
  registers := h.registers
  running := fun job hjob => by
    cases hjob
    exact ⟨rfl, rfl, h.registers.set .cmd w hw, JobOk.launched s.cfg _ s.mem hv⟩

/-- A host store keeps off the footprints of a running command (20_memory.md R80). -/
theorem State.Inv.storeByte (h : s.Inv) (a : Nat) (v : Byte) (ha : a < s.cfg.space)
    (hfree : inRunningFootprint a s = false) : (s.storeByte a v).Inv where
  config := h.config
  memoryForm := write_wf s.mem a v h.memoryForm
  memoryRange := write_range s.mem a _ v h.memoryRange ha
  registers := h.registers
  running := fun job hjob => by
    obtain ⟨hdone, herr, hlatched, hok⟩ := h.running job hjob
    refine ⟨hdone, herr, hlatched, hok.of_read_eq _ fun b hb => read_write_other s.mem a b v h.memoryForm ?_⟩
    rintro rfl
    rw [(inRunningFootprint_iff s job hjob b).2 hb] at hfree
    cases hfree

/-- The engine writes one pending pair. -/
theorem State.Inv.commit (h : s.Inv) (job : Job) (hp : s.phase = .running job) (k : Nat)
    (hk : k < job.pending.length) : (s.commit job job.pending[k] (job.pending.eraseIdx k)).Inv where
  config := h.config
  memoryForm := write_wf s.mem _ _ h.memoryForm
  memoryRange := write_range s.mem _ _ _ h.memoryRange (port_lt s.cfg _)
  registers := h.registers
  running := fun job' hjob' => by
    cases hjob'
    obtain ⟨hdone, herr, hlatched, hok⟩ := h.running job hp
    exact ⟨hdone, herr, hlatched, hok.commit h.memoryForm k hk⟩

/-! ### The step -/

theorem State.Inv.engineStep (h : s.Inv) (pick : Nat) : (engineStep pick s).Inv := by
  cases hp : s.phase with
  | idle =>
    rw [engineStep_idle pick s hp]
    exact h
  | running job =>
    by_cases hnil : job.pending = []
    · rw [engineStep_done pick s job hp hnil]
      exact h.terminate .ok
    · rw [engineStep_write pick s job hp hnil]
      exact h.commit job hp _ (pick_lt _ pick hnil)

theorem State.Inv.busErrorStep (h : s.Inv) : (busErrorStep s).Inv := by
  rcases busErrorStep_cases s with he | he <;> rw [he]
  · exact h.terminate .busError
  · exact h

theorem State.Inv.exec (h : s.Inv) (i : Instr) (he : exec i s = .next t) : t.Inv := by
  cases exec_effect i s t he with
  | same => exact h
  | returned v => exact h.setHostData v
  | written r v => exact h.setReg r v
  | acknowledged => exact h.clearDone
  | enabled b => exact h.setIrqEn b
  | ended b w e _ => exact .of_idle rfl h.config h.memoryForm h.memoryRange h.registers
  | started b w _ hw hv => exact (h.setIrqEn b).launched w hw hv

theorem State.Inv.hostAccess (h : s.Inv) (a : Access) (he : hostAccess a s = .next t) : t.Inv := by
  unfold Machine.hostAccess at he
  split at he
  · exact h.exec _ he
  · cases he

theorem State.Inv.handle (h : s.Inv) (e : Event) (he : handle e s = .next t) : t.Inv := by
  cases e with
  | reg a => exact h.hostAccess a he
  | load a sawFinal =>
    obtain ⟨-, -, rfl⟩ := (hostLoad_next ..).1 he
    exact h.setHostData _
  | store a v =>
    obtain ⟨ha, -, hfree, rfl⟩ := (hostStore_next ..).1 he
    exact h.storeByte a v ha hfree
  | engine pick => cases he; exact h.engineStep pick
  | busError => cases he; exact h.busErrorStep
  | reset latched => cases he; exact h.platformReset latched

/-- Settles O4: the step is the next event's or the engine's own, and each keeps the invariant. -/
theorem everyStepKeepsTheInvariant : Obligations.EveryStepKeepsTheInvariant := by
  intro s t h hstep
  cases ha : s.agenda with
  | nil =>
    rw [step_of_agenda_nil s ha] at hstep
    cases hstep
    exact h.engineStep 0
  | cons e rest =>
    rw [step_of_agenda_cons s e rest ha] at hstep
    exact (h.setAgenda rest).handle e hstep

end Sys2Proof.Machine
end

section
/-! PROOF. The order of a command's writes cannot be observed (20_memory.md R77; 43_command_control.md R204). Every
schedule that writes all pending pairs and completes leaves each byte at its pending value, or as it was where none is
pending; and a memory in canonical form is determined by its reads. -/

namespace Sys2Proof.Machine

theorem finalValue_eq_some_iff {ws : List Host.Cell} (h : (ws.map fun cell => cell.1).Nodup) (a : Nat) (v : Byte) :
    finalValue ws a = some v ↔ (a, v) ∈ ws :=
  ⟨mem_of_finalValue ws a v, finalValue_of_mem ws h (a, v)⟩

/-- Once a pair is taken out of the list its address has no value, and every other address the one it had. -/
theorem finalValue_eraseIdx {ws : List Host.Cell} (h : (ws.map fun cell => cell.1).Nodup) (k : Nat)
    (hk : k < ws.length) (a : Nat) :
    finalValue (ws.eraseIdx k) a = if a = ws[k].1 then none else finalValue ws a := by
  have herase : ((ws.eraseIdx k).map fun cell => cell.1).Nodup := h.sublist ((List.eraseIdx_sublist ..).map _)
  ext v
  rw [finalValue_eq_some_iff herase, mem_eraseIdx_iff h k hk]
  split
  · next ha =>
    have hsame : (a, v) ∈ ws → (a, v) = ws[k] := fun hm => cell_eq_of_address_eq h hm (List.getElem_mem hk) ha
    simp only [reduceCtorEq, iff_false]
    exact fun ⟨hne, hm⟩ => hne (hsame hm)
  · next ha =>
    rw [finalValue_eq_some_iff h, and_iff_right]
    exact fun he => ha (congrArg Prod.fst he)

/-- Writing one pair now or leaving it to the rest of the command comes to the same. -/
theorem afterCommand_eraseIdx {ws : List Host.Cell} {m : Memory} (h : (ws.map fun cell => cell.1).Nodup)
    (hwf : m.wf = true) (k : Nat) (hk : k < ws.length) (a : Nat) :
    afterCommand (ws.eraseIdx k) (m.write ws[k].1 ws[k].2) a = afterCommand ws m a := by
  simp only [afterCommand, finalValue_eraseIdx h k hk]
  split
  · next ha =>
    rw [ha, read_write_same m _ _ hwf, finalValue_of_mem ws h _ (List.getElem_mem hk)]
    rfl
  · next ha => rw [read_write_other m _ _ _ hwf ha]

/-- The state a command ends in with OK, its agenda used up. -/
def State.completed (s : State) (m : Memory) : State :=
  { s with mem := m, phase := .idle, done := true, err := .ok, agenda := [] }

/-- A schedule as long as the pending pairs plus one writes them all, in whatever order, and completes. -/
theorem runSteps_schedule (p : List Nat) (s : State) (job : Job) (hinv : s.Inv) (hp : s.phase = .running job)
    (hlen : p.length = job.pending.length + 1) :
    ∃ m : Memory, runSteps p.length (s.setAgenda (p.map Event.engine)) = .next (s.completed m) ∧
      m.wf = true ∧ ∀ a, m.read a = afterCommand job.pending s.mem a := by
  induction p generalizing s job with
  | nil => cases hlen
  | cons pick p ih =>
    have hrun : runSteps (pick :: p).length (s.setAgenda ((pick :: p).map Event.engine)) =
        runSteps p.length (engineStep pick (s.setAgenda (p.map Event.engine))) := rfl
    have hphase : (s.setAgenda (p.map Event.engine)).phase = .running job := hp
    rw [hrun]
    by_cases hnil : job.pending = []
    · have hend : p = [] := List.length_eq_zero_iff.1 (by simpa [hnil] using hlen)
      subst hend
      rw [engineStep_done pick _ job hphase hnil, hnil]
      exact ⟨s.mem, rfl, hinv.memoryForm, fun _ => rfl⟩
    · obtain ⟨-, -, -, hok⟩ := hinv.running job hp
      have hk := pick_lt job.pending pick hnil
      rw [engineStep_write pick _ job hphase hnil]
      have hport := port_of_lt s.cfg _ (hok.pending_lt _ (List.getElem_mem hk))
      obtain ⟨m, hm, hwf, hread⟩ := ih _ _ (hinv.commit job hp _ hk) rfl (by
        rw [List.length_eraseIdx_of_lt hk]
        simp only [List.length_cons] at hlen
        omega)
      refine ⟨m, hm, hwf, fun a => (hread a).trans ?_⟩
      rw [commit_mem, hport]
      exact afterCommand_eraseIdx hok.pending_once hinv.memoryForm _ hk a

/-- Settles O33: both schedules complete, in memories that read the same everywhere. -/
theorem writeOrderIsUnobservable : Obligations.WriteOrderIsUnobservable := by
  intro s job p q hinv hphase hp hq
  obtain ⟨m, hm, hmwf, hmread⟩ := runSteps_schedule p s job hinv hphase hp
  obtain ⟨n, hn, hnwf, hnread⟩ := runSteps_schedule q s job hinv hphase hq
  have hmn : m = n := memory_ext m n hmwf hnwf fun a => (hmread a).trans (hnread a).symm
  rw [hm, hn, hmn]

end Sys2Proof.Machine
end

section
/-! PROOF. The preconditions of a command in the words of 20_memory.md R69 to R72, and that they alone decide whether an
IDLE engine refuses it (60_exceptions.md R224). -/

namespace Sys2Proof.Machine

/-! ### The four preconditions -/

/-- NOWRAP (R69): over a non-empty region every buffer the command has ends below the end of the address space. -/
theorem noWrapOk_iff (c : Config) (l : Descriptor) :
    noWrapOk c l = true ↔ (l.width ≠ 0 → l.height ≠ 0 → ∀ a ∈ lastBytes c l, a < c.space) := by
  simp only [noWrapOk, Bool.or_eq_true, decide_eq_true_eq, List.all_eq_true]
  tauto

/-- The buffers the command has are its destination, its source if it has one, and its mask if it has one. -/
theorem forall_mem_lastBytes (c : Config) (l : Descriptor) (p : Nat → Prop) :
    (∀ a ∈ lastBytes c l, p a) ↔
      p (lastByte l (baseAddress c l.destAddr) l.destStep l.pixelSize) ∧
      (∀ fmt, l.source = some fmt → p (lastByte l (baseAddress c l.srcAddr) l.srcStep (srcPixelSize fmt))) ∧
      (l.maskEn = true → p (lastByte l (baseAddress c l.maskAddr) l.maskStep 1)) := by
  unfold lastBytes
  cases l.source <;> cases l.maskEn <;> simp

/-- ROWS (R70). -/
theorem rowsOk_iff (l : Descriptor) : rowsOk l = true ↔ (2 ≤ l.height → l.width ≤ l.destStep) := by
  simp only [rowsOk, Bool.or_eq_true, decide_eq_true_eq]
  omega

/-- DISJOINT (R71). -/
theorem disjointOk_iff (c : Config) (l : Descriptor) :
    disjointOk c l = true ↔ ∀ a ∈ destFootprint c l, a ∉ srcFootprint c l ∧ a ∉ maskFootprint c l := by
  simp [disjointOk]

/-- MEMORY (R72). -/
theorem memoryOk_iff (c : Config) (l : Descriptor) :
    memoryOk c l = true ↔
      ∀ a ∈ destFootprint c l ++ srcFootprint c l ++ maskFootprint c l, c.ordinary a = true :=
  List.all_eq_true

/-! ### Refusal -/

/-- A launch is refused exactly by the precondition it violates. -/
theorem launch_refused (ws : Config → Descriptor → Memory → List Host.Cell) (s : State) (r : Refusal) :
    launch ws s = .refused r ↔ violation s.cfg s.latched = some r := by
  unfold launch
  cases violation s.cfg s.latched <;> simp

/-- In an IDLE engine a command that launches is refused exactly by the precondition its descriptor violates. -/
theorem accept_launch_refused (w : Word) (ws : Config → Descriptor → Memory → List Host.Cell) (s : State) (r : Refusal)
    (h : s.phase = .idle) :
    accept w s (launch ws) = .refused r ↔ violation s.cfg { s.desc with cmd := w } = some r := by
  rw [accept_idle w s h, launch_refused]
  rfl

theorem exec_imageInstr (fmt : SrcFmt) (mode : BlendMode) (dpx maskEn : Bool) (s : State) :
    exec (imageInstr fmt mode dpx maskEn) s = runImage fmt mode dpx maskEn s := by
  rcases mode with _ | k
  · cases fmt <;> rfl
  · cases fmt <;> cases k <;> rfl

/-- Settles O47: the preconditions one by one, and both kinds of command launch. -/
theorem preconditionsDecideAcceptance : Obligations.PreconditionsDecideAcceptance := by
  refine ⟨fun c l => ?_, fun s dpx maskEn blend srcFmt r h => accept_launch_refused _ _ s r h,
    fun s fmt mode dpx maskEn r h => ?_⟩
  · rw [violation_none, noWrapOk_iff, rowsOk_iff, disjointOk_iff, memoryOk_iff, forall_mem_lastBytes]
    simp only [lastByte, Nat.mul_one, Nat.sub_self, Nat.add_zero, Config.space]
  · rw [exec_imageInstr]
    exact accept_launch_refused _ _ s r h

end Sys2Proof.Machine
end

section
/-! PROOF. What the host's accesses do (20_memory.md R80, R81, R86): an undefined register access is refused, a store to
ordinary memory writes its byte unless a running command keeps it, and a load returns the old or the final value. -/

namespace Sys2Proof.Machine

/-! ### Register accesses -/

/-- Inside the block an access of another width, and then one at a misaligned offset, is rejected by name. -/
theorem decode_undefined_access (regBase : Nat) (a : Access) (hlo : regBase ≤ a.addr)
    (hhi : a.addr < regBase + blockSize) :
    (a.width ≠ 4 → decode regBase (.access a) = .error .wrongWidth) ∧
    (a.width = 4 → (a.addr - regBase) % 4 ≠ 0 → decode regBase (.access a) = .error .misaligned) := by
  have hin : ¬(a.addr < regBase ∨ regBase + blockSize ≤ a.addr) := by omega
  simp only [decode, decodeAccess, if_neg hin]
  exact ⟨fun hw => if_pos hw, fun hw ho => by rw [if_neg (not_not.2 hw), if_pos ho]⟩

/-- Settles O10: the access is the next event, and decoding it names the fault. -/
theorem undefinedRegisterAccessesAreRefused : Obligations.UndefinedRegisterAccessesAreRefused := by
  intro s a rest ha hlo hhi
  obtain ⟨hwidth, halign⟩ := decode_undefined_access s.cfg.regBase a hlo hhi
  rw [step_of_agenda_cons s _ rest ha]
  simp only [handle, hostAccess, setAgenda_cfg]
  exact ⟨fun hw => by rw [hwidth hw]; rfl, fun hw ho => by rw [halign hw ho]; rfl⟩

/-! ### Stores -/

theorem hostMemory_ordinary (a : Nat) (s : State) (k : Host.Outcome State Fault Refusal) (ha : a < s.cfg.space)
    (ho : s.cfg.ordinary a = true) : hostMemory a s k = k := by
  rw [hostMemory, if_neg (Nat.not_le.2 ha), if_pos ho]

/-- The next event is a host store to ordinary memory: a kept byte is refused, any other is written. -/
theorem step_store (s : State) (a : Nat) (v : Byte) (rest : List Event) (he : s.agenda = .store a v :: rest)
    (ha : a < s.cfg.space) (ho : s.cfg.ordinary a = true) :
    step s = if inRunningFootprint a s then .refused .footprintWritten
      else .next { s with agenda := rest, mem := s.mem.write a v } := by
  rw [step_of_agenda_cons s _ rest he]
  exact hostMemory_ordinary a (s.setAgenda rest) _ ha ho

/-- What memory reads as after a write, in a state that meets the invariant. -/
theorem State.Inv.read_write {s : State} (h : s.Inv) (a : Nat) (v : Byte) :
    (s.mem.write a v).read a = v ∧ ∀ b : Nat, b ≠ a → (s.mem.write a v).read b = s.mem.read b :=
  ⟨read_write_same s.mem a v h.memoryForm, fun b => read_write_other s.mem a b v h.memoryForm⟩

/-- Settles O48: what the running command keeps is its three footprints. -/
theorem aHostStoreWhileRunningKeepsOffTheFootprints : Obligations.AHostStoreWhileRunningKeepsOffTheFootprints := by
  intro s job a v rest hp he ha ho
  rw [step_store s a v rest he ha ho]
  have hkept := inRunningFootprint_iff s job hp a
  exact ⟨fun hin => if_pos (hkept.2 hin), fun hout => ⟨if_neg (mt hkept.1 hout), fun h => h.read_write a v⟩⟩

/-- Settles O58: an IDLE engine keeps no byte from the host. -/
theorem aHostStoreIntoAnIdleEngineWritesItsByte : Obligations.AHostStoreIntoAnIdleEngineWritesItsByte := by
  intro s a v rest hp he ha ho
  rw [step_store s a v rest he ha ho, inRunningFootprint_idle a s hp]
  exact ⟨rfl, fun h => h.read_write a v⟩

/-! ### Loads -/

/-- The next event is a host load from ordinary memory: it returns its value and changes nothing else. -/
theorem step_load (s : State) (a : Nat) (sawFinal : Bool) (rest : List Event)
    (he : s.agenda = .load a sawFinal :: rest) (ha : a < s.cfg.space) (ho : s.cfg.ordinary a = true) :
    step s = .next { s with agenda := rest, hostData := (loadValue a sawFinal s).setWidth 32 } := by
  rw [step_of_agenda_cons s _ rest he]
  exact hostMemory_ordinary a (s.setAgenda rest) _ ha ho

theorem loadValue_idle (a : Nat) (sawFinal : Bool) (s : State) (h : s.phase = .idle) :
    loadValue a sawFinal s = s.mem.read a := by
  simp only [loadValue, h]

variable {s : State} {job : Job}

/-- A byte outside the destination footprint is read from memory. -/
theorem loadValue_outside (hok : JobOk s.cfg s.latched s.mem job) (hp : s.phase = .running job) (a : Nat)
    (sawFinal : Bool) (ha : a ∉ destFootprint s.cfg s.latched) : loadValue a sawFinal s = s.mem.read a := by
  have hnot : a ∉ job.ws.map fun cell => cell.1 := fun hm => by
    obtain ⟨cell, hc, rfl⟩ := List.mem_map.1 hm
    exact ha (hok.inDest cell hc)
  simp only [loadValue, hp, finalValue_of_not_mem job.ws a hnot]

/-- A destination byte is read as in M0 or at its final value; where the command does not write it these are the same. -/
theorem loadValue_dest (hok : JobOk s.cfg s.latched s.mem job) (hp : s.phase = .running job) (a : Nat)
    (sawFinal : Bool) (ha : a ∈ destFootprint s.cfg s.latched) :
    loadValue a sawFinal s = if sawFinal then afterCommand job.ws job.m0 a else job.m0.read a := by
  simp only [loadValue, hp, afterCommand]
  cases hv : finalValue job.ws a with
  | some v => rfl
  | none =>
    have hnot : a ∉ job.ws.map fun cell => cell.1 := fun hm => (mem_addresses_iff job.ws a).1 hm hv
    have hkept := hok.restKept a (List.mem_append_left _ (List.mem_append_left _ ha)) hnot
    simp [hkept]

/-- No source or mask byte of an accepted command is a destination byte (20_memory.md R71). -/
theorem not_mem_dest_of_accepted {c : Config} {l : Descriptor} (h : violation c l = none) (a : Nat)
    (ha : a ∈ srcFootprint c l ++ maskFootprint c l) : a ∉ destFootprint c l := by
  obtain ⟨-, -, hdisjoint, -⟩ := (violation_none c l).1 h
  intro hdest
  obtain ⟨hsrc, hmask⟩ := (disjointOk_iff c l).1 hdisjoint a hdest
  exact (List.mem_append.1 ha).elim hsrc hmask

/-- Settles O49: the value loaded, for each place the byte can have. -/
theorem aHostReadWhileRunningSeesTheOldOrTheFinalValue :
    Obligations.AHostReadWhileRunningSeesTheOldOrTheFinalValue := by
  intro s a sawFinal rest hinv he ha ho
  rw [step_load s a sawFinal rest he ha ho]
  refine ⟨fun hp => by rw [loadValue_idle a sawFinal s hp], fun job hp => ?_⟩
  obtain ⟨-, -, -, hok⟩ := hinv.running job hp
  refine ⟨fun hin => ?_, fun hin => ?_, fun hout => ?_⟩
  · rw [loadValue_outside hok hp a sawFinal (not_mem_dest_of_accepted hok.accepted a hin)]
  · rw [loadValue_dest hok hp a sawFinal hin]
  · have hdest : a ∉ destFootprint s.cfg s.latched := fun h =>
      hout (List.mem_append_left _ (List.mem_append_left _ h))
    rw [loadValue_outside hok hp a sawFinal hdest]

end Sys2Proof.Machine
end

section
/-! PROOF. The frame of every instruction (20_memory.md R87; 43_command_control.md R200 to R203, R207): a kind of
instruction changes only what is its own, and none stores to memory. -/

namespace Sys2Proof.Machine

/-! ### What no instruction changes -/

/-- Memory, the parameters and the agenda are no instruction's. -/
theorem ExecEffect.keeps {s t : State} (h : ExecEffect s t) :
    t.mem = s.mem ∧ t.cfg = s.cfg ∧ t.agenda = s.agenda := by
  cases h <;> exact ⟨rfl, rfl, rfl⟩

/-! ### What the other kinds of instruction change -/

/-- What an instruction of kind `k` leaves as it was. -/
structure KeepsOthers (k : InstrKind) (s t : State) : Prop where
  registers : k ≠ .descriptorWrite → t.desc = s.desc
  hostData : k ≠ .read → t.hostData = s.hostData
  irqEn : k ≠ .ctrlWrite → t.irqEn = s.irqEn
  command : k ≠ .command → k ≠ .ctrlWrite →
    t.latched = s.latched ∧ t.phase = s.phase ∧ t.err = s.err ∧ (k ≠ .statusWrite → t.done = s.done)

theorem KeepsOthers.refl (k : InstrKind) (s : State) : KeepsOthers k s s :=
  ⟨fun _ => rfl, fun _ => rfl, fun _ => rfl, fun _ _ => ⟨rfl, rfl, rfl, fun _ => rfl⟩⟩

theorem KeepsOthers.setHostData (s : State) (v : Word) : KeepsOthers .read s (s.setHostData v) :=
  ⟨fun _ => rfl, fun hk => absurd rfl hk, fun _ => rfl, fun _ _ => ⟨rfl, rfl, rfl, fun _ => rfl⟩⟩

theorem KeepsOthers.setReg (s : State) (r : DescReg) (v : Word) : KeepsOthers .descriptorWrite s (s.setReg r v) :=
  ⟨fun hk => absurd rfl hk, fun _ => rfl, fun _ => rfl, fun _ _ => ⟨rfl, rfl, rfl, fun _ => rfl⟩⟩

theorem KeepsOthers.clearDone (s : State) : KeepsOthers .statusWrite s s.clearDone :=
  ⟨fun _ => rfl, fun _ => rfl, fun _ => rfl, fun _ _ => ⟨rfl, rfl, rfl, fun hk => absurd rfl hk⟩⟩

theorem KeepsOthers.setIrqEn (s : State) (b : Bool) : KeepsOthers .ctrlWrite s (s.setIrqEn b) :=
  ⟨fun _ => rfl, fun _ => rfl, fun hk => absurd rfl hk, fun _ hk => absurd rfl hk⟩

/-- A command run once IRQ_EN is written changes no more than a CTRL write may (43_command_control.md R202). -/
theorem KeepsOthers.ctrlWrite {s t : State} {b : Bool} (h : KeepsOthers .command (s.setIrqEn b) t) :
    KeepsOthers .ctrlWrite s t :=
  ⟨fun _ => h.registers (by decide), fun _ => h.hostData (by decide), fun hk => absurd rfl hk,
    fun _ hk => absurd rfl hk⟩

/-- What a command does once it has latched keeps the registers, the host's value and IRQ_EN. -/
def KeepsHostSide (body : State → Host.Outcome State Fault Refusal) : Prop :=
  ∀ s t, body s = .next t → t.desc = s.desc ∧ t.hostData = s.hostData ∧ t.irqEn = s.irqEn

theorem launch_keepsHostSide (ws : Config → Descriptor → Memory → List Host.Cell) : KeepsHostSide (launch ws) := by
  intro s t h
  obtain ⟨-, rfl⟩ := (launch_next ws s t).1 h
  exact ⟨rfl, rfl, rfl⟩

theorem rejectWith_keepsHostSide (code : ErrCode) : KeepsHostSide (rejectWith code) := by
  intro s t h
  cases h
  exact ⟨rfl, rfl, rfl⟩

theorem rowBody_keepsHostSide (r : CommandRow) : KeepsHostSide (rowBody r) := by
  cases r
  case imageUnsupported => exact rejectWith_keepsHostSide .unsupportedFormat
  case illegalOp0 => exact rejectWith_keepsHostSide .illegalOp
  case illegalOp3 => exact rejectWith_keepsHostSide .illegalOp
  all_goals exact launch_keepsHostSide _

/-- An acceptance changes what is a command's: it is dropped, or latches and goes on. -/
theorem accept_keepsOthers {w : Word} {body : State → Host.Outcome State Fault Refusal} (hb : KeepsHostSide body)
    {s t : State} (h : accept w s body = .next t) : KeepsOthers .command s t := by
  cases hp : s.phase with
  | running job =>
    rw [accept_running w s job hp] at h
    cases h
    exact .refl _ s
  | idle =>
    rw [accept_idle w s hp] at h
    obtain ⟨hdesc, hdata, hirq⟩ := hb _ _ h
    exact ⟨fun _ => hdesc, fun _ => hdata, fun _ => hirq, fun hk => absurd rfl hk⟩

theorem execWrCtrl_keepsOthers {v : Word} {s t : State} (h : execWrCtrl v s = .next t) :
    KeepsOthers .ctrlWrite s t := by
  unfold execWrCtrl at h
  split at h
  · rw [start, runRow_accept] at h
    exact (accept_keepsOthers (rowBody_keepsHostSide _) h).ctrlWrite
  · cases h
    exact .setIrqEn s _

theorem execWrStatus_keepsOthers {v : Word} {s t : State} (h : execWrStatus v s = .next t) :
    KeepsOthers .statusWrite s t := by
  unfold execWrStatus at h
  cases h
  split
  · exact .clearDone s
  · exact .refl _ s

theorem exec_keepsOthers (i : Instr) (s t : State) (h : exec i s = .next t) : KeepsOthers (instrKind i) s t := by
  cases i with
  | imageUnsupported | illegalOp0 | illegalOp3 => exact accept_keepsOthers (rejectWith_keepsHostSide _) h
  | fill
  | imageRgb565Normal | imageRgb565Add | imageRgb565Sub | imageRgb565Mul
  | imageRgb888Normal | imageRgb888Add | imageRgb888Sub | imageRgb888Mul
  | imageXrgb8888Normal | imageXrgb8888Add | imageXrgb8888Sub | imageXrgb8888Mul
  | imageArgb8888Normal | imageArgb8888Add | imageArgb8888Sub | imageArgb8888Mul =>
    exact accept_keepsOthers (launch_keepsHostSide _) h
  | rdConfig | rdCtrl | rdStatus | rdCmd | rdDestAddr | rdDestSize | rdDestStride | rdColor | rdOpa
  | rdMaskAddr | rdMaskStride | rdSrcAddr | rdSrcStride | rdReserved => cases h; exact .setHostData s _
  | wrCmd | wrDestAddr | wrDestSize | wrDestStride | wrColor | wrOpa
  | wrMaskAddr | wrMaskStride | wrSrcAddr | wrSrcStride => cases h; exact .setReg s _ _
  | wrCtrl v => exact execWrCtrl_keepsOthers h
  | wrStatus v => exact execWrStatus_keepsOthers h
  | wrConfig | wrReserved => cases h; exact .refl _ s

/-- Settles O52: what no instruction changes, and what the instruction's kind leaves to the others. -/
theorem noInstructionWritesMemoryOrMoreThanItsOwn : Obligations.NoInstructionWritesMemoryOrMoreThanItsOwn := by
  intro i s t h
  obtain ⟨hmem, hcfg, hagenda⟩ := (exec_effect i s t h).keeps
  obtain ⟨hregisters, hdata, hirq, hcommand⟩ := exec_keepsOthers i s t h
  exact ⟨hmem, hcfg, hagenda, hregisters, hdata, hirq, hcommand⟩

end Sys2Proof.Machine
end

section
/-! SUPPORT. The rows of the commands that run: the fill, and one row for each source encoding and mode; and the write set
of each. -/

namespace Sys2Proof.Machine

/-- The row of a supported image command (30_encoding.md R107). -/
def imageRow (fmt : SrcFmt) (mode : BlendMode) : CommandRow :=
  match fmt, mode with
  | .rgb565, .normal => .imageRgb565Normal
  | .rgb565, .combine .additive => .imageRgb565Add
  | .rgb565, .combine .subtractive => .imageRgb565Sub
  | .rgb565, .combine .multiply => .imageRgb565Mul
  | .rgb888, .normal => .imageRgb888Normal
  | .rgb888, .combine .additive => .imageRgb888Add
  | .rgb888, .combine .subtractive => .imageRgb888Sub
  | .rgb888, .combine .multiply => .imageRgb888Mul
  | .xrgb8888, .normal => .imageXrgb8888Normal
  | .xrgb8888, .combine .additive => .imageXrgb8888Add
  | .xrgb8888, .combine .subtractive => .imageXrgb8888Sub
  | .xrgb8888, .combine .multiply => .imageXrgb8888Mul
  | .argb8888, .normal => .imageArgb8888Normal
  | .argb8888, .combine .additive => .imageArgb8888Add
  | .argb8888, .combine .subtractive => .imageArgb8888Sub
  | .argb8888, .combine .multiply => .imageArgb8888Mul

/-- The three sorts of rows. -/
inductive RowSort : CommandRow → Prop
  | fill : RowSort .fill
  | image (fmt : SrcFmt) (mode : BlendMode) : RowSort (imageRow fmt mode)
  | error {r : CommandRow} (e : ErrCode) (h : rowError r = some e) : RowSort r

theorem rowSort (r : CommandRow) : RowSort r := by
  cases r with
  | fill => exact .fill
  | imageRgb565Normal => exact .image .rgb565 .normal
  | imageRgb565Add => exact .image .rgb565 (.combine .additive)
  | imageRgb565Sub => exact .image .rgb565 (.combine .subtractive)
  | imageRgb565Mul => exact .image .rgb565 (.combine .multiply)
  | imageRgb888Normal => exact .image .rgb888 .normal
  | imageRgb888Add => exact .image .rgb888 (.combine .additive)
  | imageRgb888Sub => exact .image .rgb888 (.combine .subtractive)
  | imageRgb888Mul => exact .image .rgb888 (.combine .multiply)
  | imageXrgb8888Normal => exact .image .xrgb8888 .normal
  | imageXrgb8888Add => exact .image .xrgb8888 (.combine .additive)
  | imageXrgb8888Sub => exact .image .xrgb8888 (.combine .subtractive)
  | imageXrgb8888Mul => exact .image .xrgb8888 (.combine .multiply)
  | imageArgb8888Normal => exact .image .argb8888 .normal
  | imageArgb8888Add => exact .image .argb8888 (.combine .additive)
  | imageArgb8888Sub => exact .image .argb8888 (.combine .subtractive)
  | imageArgb8888Mul => exact .image .argb8888 (.combine .multiply)
  | imageUnsupported => exact .error .unsupportedFormat rfl
  | illegalOp0 => exact .error .illegalOp rfl
  | illegalOp3 => exact .error .illegalOp rfl

theorem imageRow_mask (fmt : SrcFmt) (mode : BlendMode) : (imageRow fmt mode).mask = 0x0000FF33 := by
  rcases mode with _ | k
  · cases fmt <;> rfl
  · cases fmt <;> cases k <;> rfl

theorem imageRow_pattern (fmt : SrcFmt) (mode : BlendMode) :
    (imageRow fmt mode).pattern = encodeFields 2 false false mode.code fmt.code := by
  rcases mode with _ | k
  · cases fmt <;> rfl
  · cases fmt <;> cases k <;> rfl

theorem ofCode_code (fmt : SrcFmt) : SrcFmt.ofCode fmt.code = some fmt := by
  cases fmt <;> rfl

/-- The source buffer of a supported image command has the encoding of its row (30_encoding.md R96). -/
theorem source_of_imageRow {l : Descriptor} {fmt : SrcFmt} {mode : BlendMode}
    (h : commandRow l.cmd = imageRow fmt mode) : l.source = some fmt := by
  have hfits : l.cmd &&& (imageRow fmt mode).mask = (imageRow fmt mode).pattern :=
    of_decide_eq_true (h ▸ commandRow_fits l.cmd)
  rw [imageRow_mask, imageRow_pattern] at hfits
  obtain ⟨hop, hfmt, -⟩ := (and_image_eq ..).1 hfits
  rw [Descriptor.source, if_pos hop, hfmt, ofCode_code]

variable {l : Descriptor}

theorem commandWriteSet_fill (h : commandRow l.cmd = .fill) (c : Config) (m0 : Memory) :
    commandWriteSet c l m0 = overRegion l (fillPixel c l m0) := by
  rw [commandWriteSet, h]
  rfl

theorem commandWriteSet_image {fmt : SrcFmt} {mode : BlendMode} (h : commandRow l.cmd = imageRow fmt mode)
    (c : Config) (m0 : Memory) : commandWriteSet c l m0 = overRegion l (commandImagePixel fmt mode c l m0) := by
  rw [← imageWriteSet_eq, commandWriteSet, h]
  rcases mode with _ | k
  · cases fmt <;> rfl
  · cases fmt <;> cases k <;> rfl

theorem commandWriteSet_error {e : ErrCode} (h : rowError (commandRow l.cmd) = some e) (c : Config) (m0 : Memory) :
    commandWriteSet c l m0 = [] := by
  unfold commandWriteSet
  revert h
  cases commandRow l.cmd
  case imageUnsupported => exact fun _ => rfl
  case illegalOp0 => exact fun _ => rfl
  case illegalOp3 => exact fun _ => rfl
  all_goals exact fun h => nomatch h

/-- Where the copy path is taken (42_image.md R171, R182). -/
theorem takesCopyPath_iff (c : Config) (l : Descriptor) (fmt : SrcFmt) (mode : BlendMode) :
    takesCopyPath c l fmt mode = true ↔ mode = .normal ∧ (fmt = .rgb888 ∨ fmt = .xrgb8888) ∧ l.regime c = .nmFull := by
  rcases mode with _ | k
  · cases fmt <;> simp [takesCopyPath]
  · simp [takesCopyPath]

end Sys2Proof.Machine
end

section
/-! PROOF. A command reads only its three footprints and writes only its destination footprint (20_memory.md R73): each
value a pixel is computed from is read at an address of a footprint, so two memories that agree there give every pixel
the same pairs. -/

namespace Sys2Proof.Machine

/-- Two memories hold the same bytes in the command's footprints. -/
def AgreeOnFootprints (c : Config) (l : Descriptor) (m m' : Memory) : Prop :=
  ∀ a ∈ destFootprint c l ++ srcFootprint c l ++ maskFootprint c l, m.read a = m'.read a

variable {c : Config} {l : Descriptor} {m m' : Memory} {x y : Nat}

/-! ### What is read at a pixel -/

theorem destRead_congr (h : AgreeOnFootprints c l m m') (hx : x < l.width) (hy : y < l.height) (k : Nat)
    (hk : k < l.pixelSize) : memRead8 c m (destAddress c l x y + k) = memRead8 c m' (destAddress c l x y + k) := by
  have hmem : c.port (destAddress c l x y + k) ∈ destFootprint c l :=
    (mem_overRegion ..).2 ⟨x, y, hx, hy, List.mem_map_of_mem (List.mem_range.2 hk)⟩
  exact h _ (List.mem_append_left _ (List.mem_append_left _ hmem))

theorem srcRead_congr (h : AgreeOnFootprints c l m m') (hx : x < l.width) (hy : y < l.height) {fmt : SrcFmt}
    (hs : l.source = some fmt) (k : Nat) (hk : k < srcPixelSize fmt) :
    memRead8 c m (srcAddress c l (srcPixelSize fmt) x y + k) =
      memRead8 c m' (srcAddress c l (srcPixelSize fmt) x y + k) := by
  have hmem : c.port (srcAddress c l (srcPixelSize fmt) x y + k) ∈ srcFootprint c l := by
    simp only [srcFootprint, hs]
    exact (mem_overRegion ..).2 ⟨x, y, hx, hy, List.mem_map_of_mem (List.mem_range.2 hk)⟩
  exact h _ (List.mem_append_left _ (List.mem_append_right _ hmem))

theorem destPixel_congr (h : AgreeOnFootprints c l m m') (hx : x < l.width) (hy : y < l.height) :
    destPixel c l m x y = destPixel c l m' x y := by
  have hread := fun k (hk : k < 3) => destRead_congr h hx hy k (hk.trans_le (three_le_pixelSize l))
  simp only [destPixel, Triple.mk.injEq]
  exact ⟨hread 0 (by decide), hread 1 (by decide), hread 2 (by decide)⟩

theorem maskValue_congr (h : AgreeOnFootprints c l m m') (hx : x < l.width) (hy : y < l.height) :
    maskValue c l m x y = maskValue c l m' x y := by
  unfold maskValue
  split
  · next hmask =>
    have hmem : maskAddress c l x y ∈ maskFootprint c l := by
      rw [maskFootprint, if_pos hmask]
      exact (mem_overRegion ..).2 ⟨x, y, hx, hy, List.mem_singleton_self _⟩
    have hport : c.port (maskAddress c l x y) = maskAddress c l x y := port_port c _
    rw [memRead8, memRead8, hport]
    exact h _ (List.mem_append_right _ hmem)
  · rfl

theorem srcColour_congr (h : AgreeOnFootprints c l m m') (hx : x < l.width) (hy : y < l.height) {fmt : SrcFmt}
    (hs : l.source = some fmt) : srcColour c l m fmt x y = srcColour c l m' fmt x y := by
  have hread := srcRead_congr h hx hy hs
  have htriple : 3 ≤ srcPixelSize fmt → srcTriple c m (srcAddress c l (srcPixelSize fmt) x y) =
      srcTriple c m' (srcAddress c l (srcPixelSize fmt) x y) := fun hq => by
    simp only [srcTriple, Triple.mk.injEq]
    exact ⟨hread 0 (by omega), hread 1 (by omega), hread 2 (by omega)⟩
  cases fmt with
  | rgb565 => exact congrArg expand565 (congr (congrArg _ (hread 1 (by decide))) (hread 0 (by decide)))
  | rgb888 => exact htriple (by decide)
  | xrgb8888 => exact htriple (by decide)
  | argb8888 => exact htriple (by decide)

/-! ### What is written at a pixel -/

theorem fillPixel_congr (h : AgreeOnFootprints c l m m') (hx : x < l.width) (hy : y < l.height) :
    fillPixel c l m x y = fillPixel c l m' x y := by
  simp only [fillPixel, maskValue_congr h hx hy, destPixel_congr h hx hy]

theorem imageWeight_congr (h : AgreeOnFootprints c l m m') (hx : x < l.width) (hy : y < l.height) {fmt : SrcFmt}
    (hs : l.source = some fmt) (mode : BlendMode) :
    imageWeight c l m fmt mode x y = imageWeight c l m' fmt mode x y := by
  unfold imageWeight
  rw [maskValue_congr h hx hy]
  cases fmt with
  | rgb565 | rgb888 | xrgb8888 => rfl
  | argb8888 =>
    have halpha : srcAlpha c l m x y = srcAlpha c l m' x y := srcRead_congr h hx hy hs 3 (by decide)
    simp only [halpha]

theorem imagePixel_congr (h : AgreeOnFootprints c l m m') (hx : x < l.width) (hy : y < l.height) {fmt : SrcFmt}
    (hs : l.source = some fmt) (mode : BlendMode) :
    imagePixel c l m fmt mode x y = imagePixel c l m' fmt mode x y := by
  simp only [imagePixel, imageColour, imageWeight_congr h hx hy hs, srcColour_congr h hx hy hs, destPixel_congr h hx hy]

theorem commandImagePixel_congr (h : AgreeOnFootprints c l m m') (hx : x < l.width) (hy : y < l.height) {fmt : SrcFmt}
    (hs : l.source = some fmt) (mode : BlendMode) :
    commandImagePixel fmt mode c l m x y = commandImagePixel fmt mode c l m' x y := by
  have hread := srcRead_congr h hx hy hs
  unfold commandImagePixel
  split
  · next hcopy =>
    split
    · next hsize =>
      rw [← hsize, copyWhole, copyWhole, ← hsize]
      exact List.map_congr_left fun k hk => Prod.ext rfl (hread k (List.mem_range.1 hk))
    · have hthree : 3 ≤ srcPixelSize fmt := by
        obtain ⟨-, rfl | rfl, -⟩ := (takesCopyPath_iff ..).1 hcopy
        · exact Nat.le_refl 3
        · exact Nat.le_succ 3
      exact List.map_congr_left fun k hk => Prod.ext rfl (hread k ((List.mem_range.1 hk).trans_le hthree))
  · exact imagePixel_congr h hx hy hs mode

/-! ### The command -/

theorem commandWriteSet_congr (h : AgreeOnFootprints c l m m') : commandWriteSet c l m = commandWriteSet c l m' := by
  generalize hrow : commandRow l.cmd = r
  cases rowSort r with
  | fill =>
    rw [commandWriteSet_fill hrow, commandWriteSet_fill hrow]
    exact overRegion_congr l _ _ fun x y hx hy => fillPixel_congr h hx hy
  | image fmt mode =>
    rw [commandWriteSet_image hrow, commandWriteSet_image hrow]
    exact overRegion_congr l _ _ fun x y hx hy => commandImagePixel_congr h hx hy (source_of_imageRow hrow) mode
  | error e he =>
    rw [commandWriteSet_error (hrow ▸ he), commandWriteSet_error (hrow ▸ he)]

/-- The index of the pixel a byte belongs to, in pixels from the base. -/
theorem destByte_index (c : Config) (l : Descriptor) (x y k : Nat) (hk : k < l.pixelSize) :
    (destByte c l x y k - baseAddress c l.destAddr) / l.pixelSize = y * l.destStep + x := by
  rw [destByte, Nat.add_assoc, Nat.add_sub_cancel_left, Nat.mul_comm, Nat.mul_add_div (pixelSize_pos l),
    Nat.div_eq_of_lt hk, Nat.add_zero]

/-- Under NOWRAP the bytes between the end of a row and the next row are no destination bytes (20_memory.md R68). -/
theorem gap_not_mem_destFootprint (hn : noWrapOk c l = true) (k : Nat) (hx : l.width ≤ x) (hxs : x < l.destStep)
    (hk : k < l.pixelSize) : destByte c l x y k ∉ destFootprint c l := by
  intro hmem
  obtain ⟨x', y', k', hx', hy', hk', he⟩ := (mem_destFootprint ..).1 hmem
  rw [port_of_lt c _ (destByte_lt c l hn x' y' k' hx' hy' hk')] at he
  have hindex : y * l.destStep + x = y' * l.destStep + x' := by
    rw [← destByte_index c l x y k hk, he, destByte_index c l x' y' k' hk']
  have hcolumn : x = x' := by
    simpa only [Nat.mul_add_mod_self_right, Nat.mod_eq_of_lt hxs, Nat.mod_eq_of_lt (show x' < l.destStep by omega)]
      using congrArg (· % l.destStep) hindex
  omega

/-- Settles O43: writes lie in DestFP, reads in the footprints, and DestFP has gaps. -/
theorem aCommandTouchesOnlyItsFootprints : Obligations.ACommandTouchesOnlyItsFootprints := by
  intro c l m m' h
  obtain ⟨hnoWrap, -, -, -⟩ := (violation_none c l).1 h
  refine ⟨commandWriteSet_inDest c l m, commandWriteSet_congr, fun cell hc x y k hx hxs _ hk he => ?_⟩
  exact gap_not_mem_destFootprint hnoWrap k hx hxs hk (he ▸ commandWriteSet_inDest c l m cell hc)

end Sys2Proof.Machine
end

section
/-! PROOF. No destination byte is written twice, and byte 3 of a 4-byte pixel is written by two paths alone: the unmasked
full-opacity fill and the raw copy of XRGB8888 (20_memory.md R74). -/

namespace Sys2Proof.Machine

variable {c : Config} {l : Descriptor} {m0 : Memory} {x y : Nat}

/-- A byte of a pixel is written exactly where the pixel's own pairs write it. -/
theorem PixelShape.mem_addresses {f : Nat → Nat → List Host.Cell} (h : PixelShape c l f) (hn : noWrapOk c l = true)
    (hr : rowsOk l = true) (hx : x < l.width) (hy : y < l.height) {a : Nat} (ha : a ∈ pixelAddresses c l x y) :
    a ∈ (overRegion l f).map (fun cell => cell.1) ↔ a ∈ (f x y).map (fun cell => cell.1) := by
  rw [mem_addresses_iff, mem_addresses_iff, h.finalValue hn hr x y a hx hy ha]

/-! ### Byte 3 of a 4-byte pixel -/

/-- Byte 3 is no colour byte of its pixel. -/
theorem padByte_not_mem_colour (hn : noWrapOk c l = true) (h4 : l.pixelSize = 4) (hx : x < l.width) (hy : y < l.height) :
    c.port (destAddress c l x y + 3) ∉
      [c.port (destAddress c l x y), c.port (destAddress c l x y + 1), c.port (destAddress c l x y + 2)] := by
  have hnodup := pixelAddresses_nodup c l hn x y hx hy
  rw [pixelAddresses_eq, if_pos h4] at hnodup
  exact fun hm => (List.nodup_append.1 hnodup).2.2 _ hm _ (List.mem_singleton_self _) rfl

theorem mixedPixel_leaves_padByte (hn : noWrapOk c l = true) (h4 : l.pixelSize = 4) (hx : x < l.width)
    (hy : y < l.height) (w : Byte) (r : Triple) :
    c.port (destAddress c l x y + 3) ∉ (mixedPixel c (destAddress c l x y) w r).map (fun cell => cell.1) := by
  unfold mixedPixel
  split
  · exact List.not_mem_nil
  · exact padByte_not_mem_colour hn h4 hx hy

theorem fillPixel_padByte (hn : noWrapOk c l = true) (h4 : l.pixelSize = 4) (hx : x < l.width) (hy : y < l.height) :
    c.port (destAddress c l x y + 3) ∈ (fillPixel c l m0 x y).map (fun cell => cell.1) ↔ l.regime c = .nmFull := by
  unfold fillPixel
  cases l.regime c with
  | nmFull => simp [fillOverwrite, h4]
  | nmPart | mFull | mPart => simpa using mixedPixel_leaves_padByte hn h4 hx hy _ _

/-- Of the image commands' pixels only the whole copy of a 4-byte source pixel writes byte 3 (42_image.md R177, R185). -/
theorem commandImagePixel_padByte (hn : noWrapOk c l = true) (h4 : l.pixelSize = 4) (hx : x < l.width)
    (hy : y < l.height) (fmt : SrcFmt) (mode : BlendMode) :
    c.port (destAddress c l x y + 3) ∈ (commandImagePixel fmt mode c l m0 x y).map (fun cell => cell.1) ↔
      (fmt = .xrgb8888 ∧ mode = .normal) ∧ l.regime c = .nmFull := by
  unfold commandImagePixel
  split
  · next hcopy =>
    obtain ⟨rfl, rfl | rfl, hregime⟩ := (takesCopyPath_iff ..).1 hcopy
    · have hcolour := padByte_not_mem_colour hn h4 hx hy
      simpa [srcPixelSize, h4, copyPixel, List.range_succ] using hcolour
    · simp [srcPixelSize, h4, copyWhole, hregime, List.range_succ]
  · next hcopy =>
    refine iff_of_false (mixedPixel_leaves_padByte hn h4 hx hy _ _) ?_
    rintro ⟨⟨rfl, rfl⟩, hregime⟩
    exact hcopy ((takesCopyPath_iff ..).2 ⟨rfl, .inr rfl, hregime⟩)

theorem imageRow_ne_fill (fmt : SrcFmt) (mode : BlendMode) : imageRow fmt mode ≠ .fill := by
  rcases mode with _ | k
  · cases fmt <;> nofun
  · cases fmt <;> cases k <;> nofun

theorem imageRow_eq_xrgb8888Normal (fmt : SrcFmt) (mode : BlendMode) :
    imageRow fmt mode = .imageXrgb8888Normal ↔ fmt = .xrgb8888 ∧ mode = .normal := by
  rcases mode with _ | k
  · cases fmt <;> simp [imageRow]
  · cases fmt <;> cases k <;> simp [imageRow]

/-- Byte 3 of a 4-byte pixel is written by two commands, both in the regime NM_FULL. -/
theorem commandWriteSet_padByte (h : violation c l = none) (h4 : l.pixelSize = 4) (hx : x < l.width)
    (hy : y < l.height) :
    c.port (destAddress c l x y + 3) ∈ (commandWriteSet c l m0).map (fun cell => cell.1) ↔
      (commandRow l.cmd = .fill ∨ commandRow l.cmd = .imageXrgb8888Normal) ∧ l.regime c = .nmFull := by
  obtain ⟨hn, hr, -, -⟩ := (violation_none c l).1 h
  have hpad : c.port (destAddress c l x y + 3) ∈ pixelAddresses c l x y :=
    List.mem_map_of_mem (f := fun k => c.port (destAddress c l x y + k)) (List.mem_range.2 (by omega))
  generalize hrow : commandRow l.cmd = r
  cases rowSort r with
  | fill =>
    rw [commandWriteSet_fill hrow, (fillPixel_shape c l m0).mem_addresses hn hr hx hy hpad,
      fillPixel_padByte hn h4 hx hy]
    simp
  | image fmt mode =>
    rw [commandWriteSet_image hrow, (commandImagePixel_shape fmt mode c l m0).mem_addresses hn hr hx hy hpad,
      commandImagePixel_padByte hn h4 hx hy, imageRow_eq_xrgb8888Normal]
    simp [imageRow_ne_fill]
  | error e he =>
    rw [commandWriteSet_error (hrow ▸ he)]
    refine iff_of_false List.not_mem_nil ?_
    rintro ⟨rfl | rfl, -⟩ <;> cases he

/-- Settles O44: each address once by the geometry of the region, byte 3 by the row's sort. -/
theorem eachDestinationByteIsWrittenAtMostOnce : Obligations.EachDestinationByteIsWrittenAtMostOnce := by
  intro c l m0 h
  refine ⟨commandWriteSet_once c l m0 h, fun h4 x y hx hy => ?_⟩
  obtain ⟨hn, -, -, -⟩ := (violation_none c l).1 h
  have hport : c.port (destAddress c l x y + 3) = destAddress c l x y + 3 := by
    have hfirst : destAddress c l x y = destByte c l x y 0 :=
      port_of_lt c _ (destByte_lt c l hn x y 0 hx hy (pixelSize_pos l))
    rw [hfirst]
    exact port_of_lt c _ (destByte_lt c l hn x y 3 hx hy (by omega))
  rw [← hport]
  exact commandWriteSet_padByte h h4 hx hy

end Sys2Proof.Machine
end

section
/-! PROOF. Every command word is exactly one row of the opcode map (30_encoding.md R107, R108): the fields of a word
that a row other than IMAGE.UNSUPPORTED fits are the ones that select this row. -/

namespace Sys2Proof.Machine

/-- A row that looks at OP alone fits the words of its OP. -/
theorem fits_iff_of_opMask {r : CommandRow} {k : BitVec 2} (hm : r.mask = 0x00000003)
    (hp : r.pattern = k.setWidth 32) (w : Word) : r.fits w = true ↔ cmdOp w = k := by
  rw [CommandRow.fits, hm, hp, decide_eq_true_iff]
  exact and_op_eq w k

/-- The row of a supported image command fits the words of its OP, SRC_FMT and BLEND. -/
theorem imageRow_fits_iff (fmt : SrcFmt) (mode : BlendMode) (w : Word) :
    (imageRow fmt mode).fits w = true ↔ cmdOp w = 2 ∧ cmdSrcFmt w = fmt.code ∧ cmdBlend w = mode.code := by
  rw [CommandRow.fits, imageRow_mask, imageRow_pattern, decide_eq_true_iff]
  exact and_image_eq w mode.code fmt.code

theorem rowOf_image (fmt : SrcFmt) (mode : BlendMode) : rowOf 2 mode.code fmt.code = imageRow fmt mode := by
  rcases mode with _ | k
  · cases fmt <;> rfl
  · cases fmt <;> cases k <;> rfl

/-- The rows that end with an error at once (30_encoding.md R98). -/
theorem cases_of_rowError {r : CommandRow} {e : ErrCode} (h : rowError r = some e) :
    r = .imageUnsupported ∨ r = .illegalOp0 ∨ r = .illegalOp3 := by
  cases r
  case imageUnsupported => exact .inl rfl
  case illegalOp0 => exact .inr (.inl rfl)
  case illegalOp3 => exact .inr (.inr rfl)
  all_goals cases h

/-- A row that fits a word is the row found, or IMAGE.UNSUPPORTED. -/
theorem eq_commandRow_of_fits {r : CommandRow} {w : Word} (h : r.fits w = true) :
    r = commandRow w ∨ r = .imageUnsupported := by
  rw [commandRow_eq]
  cases rowSort r with
  | fill =>
    have hop := (fits_iff_of_opMask (k := 1) rfl rfl w).1 h
    exact .inl (by rw [hop]; rfl)
  | image fmt mode =>
    obtain ⟨hop, hfmt, hblend⟩ := (imageRow_fits_iff fmt mode w).1 h
    exact .inl (by rw [hop, hfmt, hblend, rowOf_image])
  | error e he =>
    obtain rfl | rfl | rfl := cases_of_rowError he
    · exact .inr rfl
    · have hop := (fits_iff_of_opMask (k := 0) rfl rfl w).1 h
      exact .inl (by rw [hop]; rfl)
    · have hop := (fits_iff_of_opMask (k := 3) rfl rfl w).1 h
      exact .inl (by rw [hop]; rfl)

/-- Settles O6: the row found fits, and it is the only one that fits besides IMAGE.UNSUPPORTED. -/
theorem everyCommandWordIsExactlyOneRow : Obligations.EveryCommandWordIsExactlyOneRow := fun w =>
  ⟨commandRow_fits w, fun _ => eq_commandRow_of_fits,
    fun hrow _ hr => (eq_commandRow_of_fits hr).elim (·.trans hrow) id⟩

end Sys2Proof.Machine
end

section
/-! PROOF. The fields and registers a command ignores have no effect (30_encoding.md R99). Two descriptors with the same
operands, each as far as the command uses it, have the same footprints, preconditions and write set; and the fields
ignored are no operands. -/

namespace Sys2Proof.Machine

/-- The operands a command uses (30_encoding.md R99, R100) are the same in both descriptors: the colour of a fill, the
source of a command that has one, the mask of a command under a mask, and all others of every command. -/
structure SameOperands (l l' : Descriptor) : Prop where
  row : commandRow l'.cmd = commandRow l.cmd
  pixelSize : l'.pixelSize = l.pixelSize
  maskEn : l'.maskEn = l.maskEn
  source : l'.source = l.source
  destAddr : l'.destAddr = l.destAddr
  destSize : l'.destSize = l.destSize
  destStride : l'.destStride = l.destStride
  opa : l'.opa = l.opa
  color : commandRow l.cmd = .fill → l'.color = l.color
  src : ∀ fmt, l.source = some fmt → l'.srcAddr = l.srcAddr ∧ l'.srcStride = l.srcStride
  mask : l.maskEn = true → l'.maskAddr = l.maskAddr ∧ l'.maskStride = l.maskStride

namespace SameOperands

variable {l l' : Descriptor} {c : Config} {m0 : Memory} {x y : Nat} {fmt : SrcFmt}

protected theorem refl (l : Descriptor) : SameOperands l l where
  row := rfl
  pixelSize := rfl
  maskEn := rfl
  source := rfl
  destAddr := rfl
  destSize := rfl
  destStride := rfl
  opa := rfl
  color := fun _ => rfl
  src := fun _ _ => ⟨rfl, rfl⟩
  mask := fun _ => ⟨rfl, rfl⟩

/-! ### The region and its addresses -/

theorem width_eq (h : SameOperands l l') : l'.width = l.width := by
  rw [Descriptor.width, h.destSize]; rfl

theorem height_eq (h : SameOperands l l') : l'.height = l.height := by
  rw [Descriptor.height, h.destSize]; rfl

theorem destStep_eq (h : SameOperands l l') : l'.destStep = l.destStep := by
  rw [Descriptor.destStep, h.destStride]; rfl

theorem overRegion_eq {α : Type} (h : SameOperands l l') (f : Nat → Nat → List α) :
    overRegion l' f = overRegion l f := by
  rw [overRegion, h.width_eq, h.height_eq]; rfl

theorem lastByte_eq (h : SameOperands l l') (base stride size : Nat) :
    lastByte l' base stride size = lastByte l base stride size := by
  rw [lastByte, h.width_eq, h.height_eq]; rfl

theorem destAddress_eq (h : SameOperands l l') : destAddress c l' x y = destAddress c l x y := by
  rw [destAddress, h.destAddr, h.destStep_eq, h.pixelSize]; rfl

theorem srcStep_eq (h : SameOperands l l') (hs : l.source = some fmt) : l'.srcStep = l.srcStep := by
  rw [Descriptor.srcStep, (h.src fmt hs).2]; rfl

theorem srcAddress_eq (h : SameOperands l l') (hs : l.source = some fmt) (q : Nat) :
    srcAddress c l' q x y = srcAddress c l q x y := by
  rw [srcAddress, (h.src fmt hs).1, h.srcStep_eq hs]; rfl

theorem maskStep_eq (h : SameOperands l l') (hm : l.maskEn = true) : l'.maskStep = l.maskStep := by
  rw [Descriptor.maskStep, (h.mask hm).2]; rfl

theorem maskAddress_eq (h : SameOperands l l') (hm : l.maskEn = true) : maskAddress c l' x y = maskAddress c l x y := by
  rw [maskAddress, (h.mask hm).1, h.maskStep_eq hm]; rfl

/-! ### Footprints and preconditions -/

theorem destFootprint_eq (h : SameOperands l l') : destFootprint c l' = destFootprint c l := by
  simp only [destFootprint, h.overRegion_eq, h.pixelSize, h.destAddress_eq]

theorem srcFootprint_eq (h : SameOperands l l') : srcFootprint c l' = srcFootprint c l := by
  rw [srcFootprint, srcFootprint, h.source]
  cases hs : l.source with
  | none => rfl
  | some fmt => simp only [h.overRegion_eq, h.srcAddress_eq hs]

theorem maskFootprint_eq (h : SameOperands l l') : maskFootprint c l' = maskFootprint c l := by
  rw [maskFootprint, maskFootprint, h.maskEn]
  cases hm : l.maskEn with
  | false => rfl
  | true => simp only [h.overRegion_eq, h.maskAddress_eq hm]

/-- The buffers are the same, each where the command has it. -/
theorem lastBytes_eq (h : SameOperands l l') : lastBytes c l' = lastBytes c l := by
  rw [lastBytes, lastBytes, h.source, h.maskEn, h.lastByte_eq, h.destAddr, h.destStep_eq, h.pixelSize]
  congr 1
  · congr 1
    cases hs : l.source with
    | none => rfl
    | some fmt => simp only [h.lastByte_eq, h.src fmt hs, h.srcStep_eq hs]
  · cases hm : l.maskEn with
    | false => rfl
    | true => simp only [h.lastByte_eq, h.mask hm, h.maskStep_eq hm]

theorem noWrapOk_eq (h : SameOperands l l') : noWrapOk c l' = noWrapOk c l := by
  rw [noWrapOk, h.width_eq, h.height_eq, h.lastBytes_eq]; rfl

theorem rowsOk_eq (h : SameOperands l l') : rowsOk l' = rowsOk l := by
  rw [rowsOk, h.width_eq, h.height_eq, h.destStep_eq]; rfl

theorem disjointOk_eq (h : SameOperands l l') : disjointOk c l' = disjointOk c l := by
  rw [disjointOk, h.destFootprint_eq, h.srcFootprint_eq, h.maskFootprint_eq]; rfl

theorem memoryOk_eq (h : SameOperands l l') : memoryOk c l' = memoryOk c l := by
  rw [memoryOk, h.destFootprint_eq, h.srcFootprint_eq, h.maskFootprint_eq]; rfl

theorem violation_eq (h : SameOperands l l') : violation c l' = violation c l := by
  rw [violation, h.noWrapOk_eq, h.rowsOk_eq, h.disjointOk_eq, h.memoryOk_eq]; rfl

/-! ### What is written at a pixel -/

theorem opacity_eq (h : SameOperands l l') : l'.opacity = l.opacity := by
  rw [Descriptor.opacity, h.opa]; rfl

theorem regime_eq (h : SameOperands l l') : l'.regime c = l.regime c := by
  rw [Descriptor.regime, h.opacity_eq, h.maskEn]; rfl

theorem destPixel_eq (h : SameOperands l l') : destPixel c l' m0 x y = destPixel c l m0 x y := by
  rw [destPixel, h.destAddress_eq]; rfl

theorem maskValue_eq (h : SameOperands l l') : maskValue c l' m0 x y = maskValue c l m0 x y := by
  rw [maskValue, maskValue, h.maskEn]
  cases hm : l.maskEn with
  | false => rfl
  | true => rw [h.maskAddress_eq hm]

theorem colour_eq (h : SameOperands l l') (hrow : commandRow l.cmd = .fill) : l'.colour = l.colour := by
  rw [Descriptor.colour, h.color hrow]; rfl

theorem fillPixel_eq (h : SameOperands l l') (hrow : commandRow l.cmd = .fill) :
    fillPixel c l' m0 x y = fillPixel c l m0 x y := by
  simp only [fillPixel, fillOverwrite, h.destAddress_eq, h.regime_eq, h.opacity_eq, h.maskValue_eq, h.destPixel_eq,
    h.pixelSize, h.colour_eq hrow]

theorem imagePixel_eq (h : SameOperands l l') (hs : l.source = some fmt) (mode : BlendMode) :
    imagePixel c l' m0 fmt mode x y = imagePixel c l m0 fmt mode x y := by
  simp only [imagePixel, imageWeight, imageColour, srcColour, srcAlpha, h.destAddress_eq, h.regime_eq, h.opacity_eq,
    h.maskEn, h.maskValue_eq, h.destPixel_eq, h.srcAddress_eq hs]

theorem takesCopyPath_eq (h : SameOperands l l') (mode : BlendMode) :
    takesCopyPath c l' fmt mode = takesCopyPath c l fmt mode := by
  rw [Bool.eq_iff_iff, takesCopyPath_iff, takesCopyPath_iff, h.regime_eq]

theorem copyPixel_eq (h : SameOperands l l') (hs : l.source = some fmt) (q : Nat) :
    copyPixel c l' m0 q x y = copyPixel c l m0 q x y := by
  rw [copyPixel, h.destAddress_eq, h.srcAddress_eq hs]; rfl

theorem copyWhole_eq (h : SameOperands l l') (hs : l.source = some fmt) (q : Nat) :
    copyWhole c l' m0 q x y = copyWhole c l m0 q x y := by
  rw [copyWhole, h.pixelSize, h.destAddress_eq, h.srcAddress_eq hs]; rfl

theorem commandImagePixel_eq (h : SameOperands l l') (hs : l.source = some fmt) (mode : BlendMode) :
    commandImagePixel fmt mode c l' m0 x y = commandImagePixel fmt mode c l m0 x y := by
  rw [commandImagePixel, h.takesCopyPath_eq, h.pixelSize, h.copyWhole_eq hs, h.copyPixel_eq hs, h.imagePixel_eq hs]
  rfl

/-! ### The command -/

theorem commandWriteSet_eq (h : SameOperands l l') : commandWriteSet c l' m0 = commandWriteSet c l m0 := by
  have hrow' := h.row
  generalize hrow : commandRow l.cmd = r at hrow'
  cases rowSort r with
  | fill =>
    rw [commandWriteSet_fill hrow, commandWriteSet_fill hrow', h.overRegion_eq]
    exact overRegion_congr l _ _ fun _ _ _ _ => h.fillPixel_eq hrow
  | image fmt mode =>
    rw [commandWriteSet_image hrow, commandWriteSet_image hrow', h.overRegion_eq]
    exact overRegion_congr l _ _ fun _ _ _ _ => h.commandImagePixel_eq (source_of_imageRow hrow) mode
  | error e he =>
    rw [commandWriteSet_error (hrow'.symm ▸ he), commandWriteSet_error (hrow.symm ▸ he)]

/-- The operands decide everything a command does. -/
theorem same_command (h : SameOperands l l') (c : Config) (m0 : Memory) :
    commandRow l'.cmd = commandRow l.cmd ∧ violation c l' = violation c l ∧
      commandWriteSet c l' m0 = commandWriteSet c l m0 ∧ destFootprint c l' = destFootprint c l ∧
      srcFootprint c l' = srcFootprint c l ∧ maskFootprint c l' = maskFootprint c l :=
  ⟨h.row, h.violation_eq, h.commandWriteSet_eq, h.destFootprint_eq, h.srcFootprint_eq, h.maskFootprint_eq⟩

end SameOperands

/-! ### The fields that are no operands -/

variable {l : Descriptor}

theorem commandRow_encodeFields_fill (dpx maskEn : Bool) (blend : BitVec 2) (srcFmt : Byte) :
    commandRow (encodeFields 1 dpx maskEn blend srcFmt) = .fill := by
  rw [commandRow_eq, cmdOp_encodeFields]; rfl

/-- A fill uses neither BLEND nor SRC_FMT, and it has no source buffer. -/
theorem sameOperands_fill {dpx maskEn : Bool} {blend : BitVec 2} {srcFmt : Byte}
    (hl : l.cmd = encodeFields 1 dpx maskEn blend srcFmt) (blend' : BitVec 2) (srcFmt' : Byte) (p q : Word) :
    SameOperands l { l with cmd := encodeFields 1 dpx maskEn blend' srcFmt', srcAddr := p, srcStride := q } where
  __ := SameOperands.refl l
  row := by simp only [hl, commandRow_encodeFields_fill]
  pixelSize := by simp only [Descriptor.pixelSize, hl, cmdDpx_encodeFields]
  maskEn := by simp only [Descriptor.maskEn, hl, cmdMaskEn_encodeFields]
  source := by simp [Descriptor.source, hl]
  src := by simp [Descriptor.source, hl]

/-- An image command uses no colour. -/
theorem sameOperands_image (hop : cmdOp l.cmd = 2) (p : Word) : SameOperands l { l with color := p } where
  __ := SameOperands.refl l
  color := fun hrow => by
    have hfits : CommandRow.fill.fits l.cmd = true := hrow ▸ commandRow_fits l.cmd
    have hfill := (fits_iff_of_opMask (k := 1) rfl rfl l.cmd).1 hfits
    rw [hop] at hfill
    cases hfill

/-- A command without a mask uses no mask buffer. -/
theorem sameOperands_unmasked (hm : cmdMaskEn l.cmd = false) (p q : Word) :
    SameOperands l { l with maskAddr := p, maskStride := q } where
  __ := SameOperands.refl l
  mask := fun hmask => absurd hmask (Bool.eq_false_iff.1 hm)

/-- Settles O46: in each case the operands are the same. -/
theorem ignoredFieldsHaveNoEffect : Obligations.IgnoredFieldsHaveNoEffect := fun c _ m0 p q =>
  ⟨fun _ _ _ blend' _ srcFmt' hl => (sameOperands_fill hl blend' srcFmt' p q).same_command c m0,
    fun hop => (sameOperands_image hop p).same_command c m0,
    fun hm => (sameOperands_unmasked hm p q).same_command c m0⟩

end Sys2Proof.Machine
end

section
/-! SUPPORT. The arithmetic of the datapath on naturals (00_scope.md R15; 40_datapath.md R120 to R134): no narrowing to
8 bits loses anything, and the mix is a weighted mean of its two channels, rounded down. -/

namespace Sys2Proof.Machine

/-! ### Products of bytes -/

/-- A number of at most `8 + k` bits, shifted right by `k`, fits a byte. -/
theorem toNat_ofNat_shiftRight {n k : Nat} (h : n < 2 ^ (8 + k)) :
    (BitVec.ofNat 8 (n >>> k)).toNat = n / 2 ^ k := by
  rw [BitVec.toNat_ofNat, Nat.shiftRight_eq_div_pow]
  exact Nat.mod_eq_of_lt (Nat.div_lt_of_lt_mul (by rwa [← Nat.pow_add, Nat.add_comm k 8]))

theorem byte_le (a : Byte) : a.toNat ≤ 255 := Nat.le_of_lt_succ a.isLt

/-- A product of two bytes needs 16 bits. -/
theorem byte_mul_le (a b : Byte) : a.toNat * b.toNat ≤ 255 * 255 := Nat.mul_le_mul (byte_le a) (byte_le b)

theorem scale_toNat (a b : Byte) : (scale a b).toNat = a.toNat * b.toNat / 256 :=
  toNat_ofNat_shiftRight (k := 8) (Nat.lt_of_le_of_lt (byte_mul_le a b) (by decide))

@[simp] theorem scale_zero_right (a : Byte) : scale a 0#8 = 0#8 := by simp [scale]

@[simp] theorem scale_zero_left (b : Byte) : scale 0#8 b = 0#8 := by simp [scale]

/-! ### One channel of the mix -/

theorem mixSum_mono {s s' d d' : Nat} (hs : s ≤ s') (hd : d ≤ d') (w : Nat) :
    s * w + d * (255 - w) ≤ s' * w + d' * (255 - w) :=
  Nat.add_le_add (Nat.mul_le_mul_right w hs) (Nat.mul_le_mul_right (255 - w) hd)

/-- The two weights of a mix add up to 255. -/
theorem mixSum_self (x : Nat) (w : Byte) : x * w.toNat + x * (255 - w.toNat) = x * 255 := by
  rw [← Nat.mul_add, Nat.add_sub_of_le (byte_le w)]

/-- No intermediate of the mix overflows (40_datapath.md R121). -/
theorem mixChannel_toNat (w s d : Byte) :
    (mixChannel w s d).toNat = (s.toNat * w.toNat + d.toNat * (255 - w.toNat)) / 256 := by
  have hsum : s.toNat * w.toNat + d.toNat * (255 - w.toNat) ≤ 255 * 255 :=
    (mixSum_mono (byte_le s) (byte_le d) w.toNat).trans_eq (mixSum_self 255 w)
  exact toNat_ofNat_shiftRight (k := 8) (Nat.lt_of_le_of_lt hsum (by decide))

theorem mixChannel_mono {s s' d d' : Byte} (w : Byte) (hs : s.toNat ≤ s'.toNat) (hd : d.toNat ≤ d'.toNat) :
    (mixChannel w s d).toNat ≤ (mixChannel w s' d').toNat := by
  rw [mixChannel_toNat, mixChannel_toNat]
  exact Nat.div_le_div_right (mixSum_mono hs hd w.toNat)

/-- The downward bias of the mix: one less, but 0 at 0 (90_conflicts.md C2). -/
theorem mixChannel_self_toNat (w x : Byte) : (mixChannel w x x).toNat = x.toNat - 1 := by
  rw [mixChannel_toNat, mixSum_self]
  have := byte_le x
  omega

theorem mixChannel_self (w x : Byte) : mixChannel w x x = x - (if x = 0 then 0 else 1) := by
  apply BitVec.eq_of_toNat_eq
  rw [mixChannel_self_toNat]
  split
  case isTrue h => simp [h]
  case isFalse h => bv_omega

/-- A mix lies between the mixes of the smaller and of the larger channel with itself. -/
theorem mixChannel_bounds (w s d : Byte) :
    min s.toNat d.toNat ≤ (mixChannel w s d).toNat + 1 ∧ (mixChannel w s d).toNat ≤ max s.toNat d.toNat ∧
      (mixChannel w s d).toNat ≤ 254 := by
  have hs := byte_le s
  have hd := byte_le d
  have hss := mixChannel_self_toNat w s
  have hdd := mixChannel_self_toNat w d
  rcases Nat.le_total s.toNat d.toNat with h | h
  · have hlo := mixChannel_mono w (Nat.le_refl s.toNat) h
    have hhi := mixChannel_mono w h (Nat.le_refl d.toNat)
    omega
  · have hlo := mixChannel_mono w h (Nat.le_refl d.toNat)
    have hhi := mixChannel_mono w (Nat.le_refl s.toNat) h
    omega

/-! ### The three cases of MIX3 -/

variable {c : Config} {w : Byte}

theorem full_iff (c : Config) (w : Byte) : full c w = true ↔ c.opaMax.toNat ≤ w.toNat := decide_eq_true_iff

theorem mix3_zero (c : Config) (s d : Triple) : mix3 c s d 0 = d := if_pos rfl

theorem mix3_opaque (hw : w ≠ 0) (h : c.opaMax.toNat ≤ w.toNat) (s d : Triple) : mix3 c s d w = s := by
  rw [mix3, if_neg hw, if_pos ((full_iff c w).2 h)]

theorem mix3_partial (hw : w ≠ 0) (h : w.toNat < c.opaMax.toNat) (s d : Triple) :
    mix3 c s d w = Triple.zipWith (mixChannel w) s d := by
  rw [mix3, if_neg hw, if_neg (mt (full_iff c w).1 (Nat.not_le.2 h))]

/-- In a legal configuration weight 0 is not opaque (00_scope.md R7). -/
theorem ne_zero_of_opaque (hwf : c.wf = true) (h : c.opaMax.toNat ≤ w.toNat) : w ≠ 0 := by
  rintro rfl
  have hmax : c.opaMax ≠ 0 := by
    simp only [Config.wf, Bool.and_eq_true, decide_eq_true_eq] at hwf
    exact hwf.1.1
  exact hmax (BitVec.eq_of_toNat_eq (Nat.le_zero.1 h))

theorem channel_zipWith {ch : Triple → Byte} (hch : ch ∈ [Triple.c0, Triple.c1, Triple.c2]) (f : Byte → Byte → Byte)
    (s d : Triple) : ch (Triple.zipWith f s d) = f (ch s) (ch d) := by
  simp only [List.mem_cons, List.not_mem_nil, or_false] at hch
  rcases hch with rfl | rfl | rfl <;> rfl

theorem mix3_channel_mono {ch : Triple → Byte} (hch : ch ∈ [Triple.c0, Triple.c1, Triple.c2]) {s s' d d' : Triple}
    (c : Config) (w : Byte) (hs : (ch s).toNat ≤ (ch s').toNat) (hd : (ch d).toNat ≤ (ch d').toNat) :
    (ch (mix3 c s d w)).toNat ≤ (ch (mix3 c s' d' w)).toNat := by
  by_cases hw : w = 0
  · rwa [hw, mix3_zero, mix3_zero]
  rcases Nat.lt_or_ge w.toNat c.opaMax.toNat with h | h
  · rw [mix3_partial hw h, mix3_partial hw h, channel_zipWith hch, channel_zipWith hch]
    exact mixChannel_mono w hs hd
  · rwa [mix3_opaque hw h, mix3_opaque hw h]

end Sys2Proof.Machine
end

section
/-! PROOF. The mixer and its laws (40_datapath.md R120, R137). -/

namespace Sys2Proof.Machine

/-- Settles O38: the three cases of MIX3, and the partial one channel by channel. -/
theorem mix3IsTheTruncatingMix : Obligations.Mix3IsTheTruncatingMix := by
  intro c s d w
  refine ⟨fun hw => hw ▸ mix3_zero c s d, fun hw h => mix3_opaque hw h s d, fun hw h => ?_⟩
  rw [mix3_partial hw h]
  exact ⟨mixChannel_toNat .., mixChannel_toNat .., mixChannel_toNat ..⟩

/-- Law 3: a colour mixed with itself. -/
theorem mix3_self (c : Config) (s : Triple) (w : Byte) :
    (w = 0 ∨ c.opaMax.toNat ≤ w.toNat → mix3 c s s w = s) ∧
      (w ≠ 0 → w.toNat < c.opaMax.toNat → mix3 c s s w =
        ⟨s.c0 - (if s.c0 = 0 then 0 else 1), s.c1 - (if s.c1 = 0 then 0 else 1),
          s.c2 - (if s.c2 = 0 then 0 else 1)⟩) := by
  constructor
  · intro h
    by_cases hw : w = 0
    · rw [hw, mix3_zero]
    · exact mix3_opaque hw (h.resolve_left hw) s s
  · intro hw h
    rw [mix3_partial hw h, Triple.zipWith, mixChannel_self, mixChannel_self, mixChannel_self]

/-- Law 6: no coverage and no alpha give weight 0 in every regime. -/
theorem weights_zero (isFull : Bool) (a opa m : Byte) :
    wRgb (regimeOf true isFull) opa 0 = 0 ∧ wArgb (regimeOf true isFull) a opa 0 = 0 ∧ wNn true opa 0 = 0 ∧
      ∀ r : Regime, wArgb r 0 opa m = 0 := by
  refine ⟨?_, ?_, scale_zero_right opa, fun r => ?_⟩
  · cases isFull <;> simp [regimeOf, wRgb]
  · cases isFull <;> simp [regimeOf, wArgb]
  · cases r <;> simp [wArgb]

/-- Settles O39: each law from its lemma; a legal OPA_MAX is at least 1, for law 1, and at most 255, for law 7. -/
theorem mixAndWeightLaws : Obligations.MixAndWeightLaws := by
  intro c hwf
  refine ⟨fun s d w h => mix3_opaque (ne_zero_of_opaque hwf h) h s d, mix3_zero c, mix3_self c, ?_, ?_, weights_zero,
    fun s d _ _ => ⟨rfl, mix3_opaque (w := 255) (by decide) (byte_le c.opaMax) s d⟩⟩
  · intro s d w ch hch hw h
    rw [mix3_partial hw h, channel_zipWith hch]
    exact mixChannel_bounds w (ch s) (ch d)
  · intro s s' d d' w hs0 hs1 hs2 hd0 hd1 hd2
    exact ⟨mix3_channel_mono (by simp) c w hs0 hd0, mix3_channel_mono (by simp) c w hs1 hd1,
      mix3_channel_mono (by simp) c w hs2 hd2⟩

end Sys2Proof.Machine
end

section
/-! PROOF. The blend_mode_combinator (40_datapath.md R126 to R129). -/

namespace Sys2Proof.Machine

theorem comb_additive_toNat (d s : Byte) : (comb .additive d s).toNat = min (d.toNat + s.toNat) 255 := by
  rw [comb, BitVec.toNat_ofNat]
  omega

/-- Saturation at 0 is the subtraction of naturals. -/
theorem comb_subtractive_toNat (d s : Byte) : (comb .subtractive d s).toNat = d.toNat - s.toNat := by
  rw [comb, BitVec.toNat_ofNat]
  exact Nat.mod_eq_of_lt (Nat.lt_of_le_of_lt (Nat.sub_le _ _) d.isLt)

theorem comb_multiply_toNat (d s : Byte) : (comb .multiply d s).toNat = d.toNat * s.toNat / 256 := scale_toNat d s

/-- Settles O41: the three combinations on naturals, and the mix of the combined triple by the cases of MIX3. -/
theorem combinatorAddsSubtractsAndMultiplies : Obligations.CombinatorAddsSubtractsAndMultiplies := by
  refine ⟨fun d s => ⟨comb_additive_toNat d s, fun _ => comb_subtractive_toNat d s, fun hlt => ?_,
    comb_multiply_toNat d s, ?_⟩, fun c k d s w => ⟨rfl, fun hw => hw ▸ mix3_zero c _ d, fun hw h => ?_⟩⟩
  · apply BitVec.eq_of_toNat_eq
    rw [comb_subtractive_toNat]
    exact Nat.sub_eq_zero_of_le (Nat.le_of_lt hlt)
  · rw [comb_multiply_toNat]
    exact Nat.div_le_div_right (c := 256) (byte_mul_le d s)
  · exact mix3_opaque hw h _ d

end Sys2Proof.Machine
end

section
/-! PROOF. The coverage regimes and the effective weights (40_datapath.md R131 to R134). -/

namespace Sys2Proof.Machine

/-- The regime by MASK_EN and FULL (40_datapath.md R131). -/
theorem regime_eq_ite (c : Config) (l : Descriptor) :
    l.regime c = if l.maskEn then (if full c l.opacity then .mFull else .mPart)
      else if full c l.opacity then .nmFull else .nmPart := by
  rw [Descriptor.regime]
  cases l.maskEn <;> cases full c l.opacity <;> rfl

/-- The triple product needs 24 bits and is floored once (40_datapath.md R133). -/
theorem wArgb_mPart_toNat (a opa m : Byte) :
    (wArgb .mPart a opa m).toNat = a.toNat * m.toNat * opa.toNat / 65536 := by
  have hprod : a.toNat * m.toNat * opa.toNat ≤ 255 * 255 * 255 := Nat.mul_le_mul (byte_mul_le a m) (byte_le opa)
  exact toNat_ofNat_shiftRight (k := 16) (Nat.lt_of_le_of_lt hprod (by decide))

/-- Settles O42: a weight is one of its arguments, 255, or a floored product. -/
theorem effectiveWeightsAreTheirFormulas : Obligations.EffectiveWeightsAreTheirFormulas :=
  ⟨fun _ _ => rfl, regime_eq_ite,
    fun a opa m => ⟨rfl, rfl, rfl, scale_toNat opa m, rfl, scale_toNat a opa, scale_toNat a m,
      wArgb_mPart_toNat a opa m, rfl, scale_toNat opa m⟩,
    by decide⟩

end Sys2Proof.Machine
end

section
/-! PROOF. The RGB565 channel expansion (40_datapath.md R123 to R125). -/

namespace Sys2Proof.Machine

theorem e5_toNat (v : BitVec 5) : (e5 v).toNat = v.toNat * 2106 / 256 :=
  toNat_ofNat_shiftRight (k := 8) (by omega)

theorem e6_toNat (v : BitVec 6) : (e6 v).toNat = v.toNat * 1037 / 256 :=
  toNat_ofNat_shiftRight (k := 8) (by omega)

/-- A multiplier of more than 256 keeps different values apart under the shift by 8. -/
theorem e5_strictMono {u v : BitVec 5} (h : u.toNat < v.toNat) : (e5 u).toNat < (e5 v).toNat := by
  rw [e5_toNat, e5_toNat]
  omega

theorem e6_strictMono {u v : BitVec 6} (h : u.toNat < v.toNat) : (e6 u).toNat < (e6 v).toNat := by
  rw [e6_toNat, e6_toNat]
  omega

/-- Settles O40: the formulas, from which both functions increase strictly; the printed tables by evaluation. -/
theorem rgb565ChannelsExpandByTheirConstants : Obligations.Rgb565ChannelsExpandByTheirConstants :=
  ⟨e5_toNat, e6_toNat, by decide, by decide, fun _ _ => e5_strictMono, fun _ _ => e6_strictMono, fun _ => rfl⟩

end Sys2Proof.Machine
end

section
/-! SUPPORT. What an accepted command that runs leaves in a destination pixel of its region, read off the pairs that the
pixel itself contributes to the write set (20_memory.md R70, R74; 40_datapath.md R136). -/

namespace Sys2Proof.Machine

/-- In an IDLE engine whose preconditions hold, a command that launches starts running (43_command_control.md R202). -/
theorem accept_launch_runs (w : Word) (ws : Config → Descriptor → Memory → List Host.Cell) (s : State)
    (hidle : s.phase = .idle) (h : violation s.cfg { s.desc with cmd := w } = none) :
    accept w s (launch ws) = .next ((s.latch w).begin (ws s.cfg { s.desc with cmd := w } s.mem)) := by
  rw [accept_idle w s hidle]
  exact (launch_next ..).2 ⟨h, rfl⟩

variable {c : Config} {l : Descriptor} {m0 : Memory} {x y : Nat}

/-- Under NOWRAP the port reduces no byte address of a pixel of the region. -/
theorem port_pixelByte (hn : noWrapOk c l = true) (hx : x < l.width) (hy : y < l.height) {k : Nat}
    (hk : k < l.pixelSize) : c.port (destAddress c l x y + k) = destAddress c l x y + k := by
  have hfirst : destAddress c l x y = destByte c l x y 0 :=
    port_of_lt c _ (destByte_lt c l hn x y 0 hx hy (pixelSize_pos l))
  rw [hfirst]
  exact port_of_lt c _ (destByte_lt c l hn x y k hx hy hk)

/-- The pairs that give the colour bytes of the pixel at address `a` the colour `r`. -/
def colourCells (c : Config) (a : Nat) (r : Triple) : List Host.Cell :=
  [(c.port a, r.c0), (c.port (a + 1), r.c1), (c.port (a + 2), r.c2)]

theorem mixedPixel_zero (c : Config) (a : Nat) (r : Triple) : mixedPixel c a 0 r = [] := if_pos rfl

theorem mixedPixel_of_ne_zero {w : Byte} (hw : w ≠ 0) (c : Config) (a : Nat) (r : Triple) :
    mixedPixel c a w r = colourCells c a r := if_neg hw

/-- Outside the regime NM_FULL no command writes byte 3 of a 4-byte pixel (20_memory.md R74). -/
theorem padUntouched_of_not_nmFull (h : violation c l = none) (hx : x < l.width) (hy : y < l.height)
    (hregime : l.regime c ≠ .nmFull) : padUntouched c l m0 x y := by
  intro h4
  obtain ⟨hn, -, -, -⟩ := (violation_none c l).1 h
  apply finalValue_of_not_mem
  rw [← port_pixelByte hn hx hy (by omega), commandWriteSet_padByte h h4 hx hy]
  exact fun hpad => hregime hpad.2

section OwnPairs

/-! ### A write set built pixel by pixel from `f` -/

variable {f : Nat → Nat → List Host.Cell} (h : violation c l = none) (hx : x < l.width) (hy : y < l.height)
  (hws : commandWriteSet c l m0 = overRegion l f)

include h hx hy hws

/-- A pair of the pixel's own is the final value of its byte. -/
theorem finalValue_of_mem_pixel {k : Nat} {v : Byte} (hk : k < l.pixelSize)
    (hm : (c.port (destAddress c l x y + k), v) ∈ f x y) :
    finalValue (commandWriteSet c l m0) (destAddress c l x y + k) = some v := by
  obtain ⟨hn, -, -, -⟩ := (violation_none c l).1 h
  rw [← port_pixelByte hn hx hy hk]
  exact finalValue_of_mem _ (commandWriteSet_once c l m0 h) _ (hws ▸ (mem_overRegion ..).2 ⟨x, y, hx, hy, hm⟩)

/-- A pixel that writes a colour has that colour afterwards, whatever it writes to byte 3. -/
theorem pixelAfter_of_colourCells {r : Triple} (hr : colourCells c (destAddress c l x y) r ⊆ f x y) :
    pixelAfter c l m0 x y = r := by
  have hbyte : ∀ k < 3, ∀ v, (c.port (destAddress c l x y + k), v) ∈ colourCells c (destAddress c l x y) r →
      afterCommand (commandWriteSet c l m0) m0 (destAddress c l x y + k) = v := fun k hk v hm => by
    have hk : k < l.pixelSize := hk.trans_le (three_le_pixelSize l)
    rw [afterCommand, finalValue_of_mem_pixel h hx hy hws hk (hr hm), Option.getD_some]
  have hbytes : pixelAfter c l m0 x y = ⟨r.c0, r.c1, r.c2⟩ := by
    simp only [pixelAfter, Triple.mk.injEq]
    exact ⟨hbyte 0 (by decide) _ (by simp [colourCells]), hbyte 1 (by decide) _ (by simp [colourCells]),
      hbyte 2 (by decide) _ (by simp [colourCells])⟩
  exact hbytes

/-- A pixel that writes nothing keeps the colour it had. -/
theorem pixelAfter_of_nil (hf : PixelShape c l f) (hnil : f x y = []) :
    pixelAfter c l m0 x y = destPixel c l m0 x y := by
  obtain ⟨hn, hr, -, -⟩ := (violation_none c l).1 h
  have hbyte : ∀ k < 3, afterCommand (commandWriteSet c l m0) m0 (destAddress c l x y + k) =
      memRead8 c m0 (destAddress c l x y + k) := fun k hk => by
    have hk : k < l.pixelSize := hk.trans_le (three_le_pixelSize l)
    have hport := port_pixelByte hn hx hy hk
    have hown : destAddress c l x y + k ∈ pixelAddresses c l x y :=
      List.mem_map.2 ⟨k, List.mem_range.2 hk, hport⟩
    rw [afterCommand, hws, hf.finalValue hn hr x y _ hx hy hown, hnil, memRead8, hport]
    rfl
  simp only [pixelAfter, destPixel, Triple.mk.injEq]
  exact ⟨hbyte 0 (by decide), hbyte 1 (by decide), hbyte 2 (by decide)⟩

/-- A mixed pixel has the mixed colour afterwards, also at weight 0, where that is the colour it had and nothing is
written (40_datapath.md R136). -/
theorem pixelAfter_of_mixedPixel (hf : PixelShape c l f) {w : Byte} {r : Triple}
    (hmixed : f x y = mixedPixel c (destAddress c l x y) w r) (hzero : w = 0 → r = destPixel c l m0 x y) :
    pixelAfter c l m0 x y = r := by
  by_cases hw : w = 0
  · rw [hzero hw]
    exact pixelAfter_of_nil h hx hy hws hf (by rw [hmixed, hw, mixedPixel_zero])
  · refine pixelAfter_of_colourCells h hx hy hws ?_
    rw [hmixed, mixedPixel_of_ne_zero hw]
    exact List.Subset.refl _

end OwnPairs

end Sys2Proof.Machine
end

section
/-! PROOF. BLEND_FILL (41_fill.md): its acceptance, and what it leaves in each pixel, by the coverage regime of the
command (R151 to R154). -/

namespace Sys2Proof.Machine

/-- Settles O21: the fill is a command that launches. -/
theorem fillIsAcceptedAndRuns : Obligations.FillIsAcceptedAndRuns :=
  fun s _ _ _ _ hidle h => accept_launch_runs _ fillWriteSet s hidle h

variable {c : Config} {l : Descriptor} {m0 : Memory} {x y : Nat}

/-- In the regime NM_FULL the pixel is overwritten (R151). -/
theorem fillPixel_nmFull (hregime : l.regime c = .nmFull) :
    fillPixel c l m0 x y = fillOverwrite c l (destAddress c l x y) := by
  simp only [fillPixel, hregime]

/-- The weight of the fill at a pixel (R152 to R154). -/
def fillWeight (c : Config) (l : Descriptor) (m0 : Memory) (x y : Nat) : Byte :=
  wRgb (l.regime c) l.opacity (maskValue c l m0 x y)

/-- In the other regimes it is mixed at its weight (R152 to R154). -/
theorem fillPixel_mixed (hregime : l.regime c ≠ .nmFull) :
    fillPixel c l m0 x y = mixedPixel c (destAddress c l x y) (fillWeight c l m0 x y)
      (mix3 c l.colour (destPixel c l m0 x y) (fillWeight c l m0 x y)) := by
  unfold fillPixel fillWeight
  cases hr : l.regime c with
  | nmFull => exact absurd hr hregime
  | nmPart | mFull | mPart => rfl

/-- The overwriting fill leaves its colour, and FILL_PAD in byte 3 of a 4-byte pixel (R151). -/
theorem fill_overwrites (hrow : commandRow l.cmd = .fill) (h : violation c l = none) (hx : x < l.width)
    (hy : y < l.height) (hregime : l.regime c = .nmFull) :
    pixelAfter c l m0 x y = l.colour ∧
      (l.pixelSize = 4 → finalValue (commandWriteSet c l m0) (destAddress c l x y + 3) = some c.fillPad) := by
  have hws := commandWriteSet_fill hrow c m0
  have hpixel := fillPixel_nmFull (m0 := m0) (x := x) (y := y) hregime
  constructor
  · refine pixelAfter_of_colourCells h hx hy hws ?_
    rw [hpixel]
    exact List.subset_append_left _ _
  · intro h4
    refine finalValue_of_mem_pixel h hx hy hws (by omega) ?_
    simp [hpixel, fillOverwrite, h4]

/-- A mixing fill leaves the mix of its colour and the pixel at the weight, and leaves byte 3 alone (R152 to R154). -/
theorem fill_mixes (hrow : commandRow l.cmd = .fill) (h : violation c l = none) (hx : x < l.width) (hy : y < l.height)
    (hregime : l.regime c ≠ .nmFull) {w : Byte} (hweight : fillWeight c l m0 x y = w) :
    pixelAfter c l m0 x y = mix3 c l.colour (destPixel c l m0 x y) w ∧ padUntouched c l m0 x y := by
  subst hweight
  refine ⟨?_, padUntouched_of_not_nmFull h hx hy hregime⟩
  refine pixelAfter_of_mixedPixel h hx hy (commandWriteSet_fill hrow c m0) (fillPixel_shape c l m0)
    (fillPixel_mixed hregime) fun hw => ?_
  rw [hw, mix3_zero]

/-- FULL where it fails (40_datapath.md R131). -/
theorem full_eq_false {w : Byte} (h : w.toNat < c.opaMax.toNat) : full c w = false :=
  decide_eq_false (Nat.not_le.2 h)

/-- Settles O25: MASK_EN and FULL select the regime, and the regime the weight. -/
theorem fillWritesWhatItsRegimeSays : Obligations.FillWritesWhatItsRegimeSays := by
  intro c l m0 dpx maskEn blend srcFmt x y hl h hx hy a d m
  have hrow : commandRow l.cmd = .fill := hl ▸ commandRow_encodeFields_fill dpx maskEn blend srcFmt
  have hmaskEn : l.maskEn = maskEn := by rw [Descriptor.maskEn, hl, cmdMaskEn_encodeFields]
  have hregime {isFull : Bool} (hfull : full c l.opacity = isFull) : l.regime c = regimeOf maskEn isFull := by
    rw [Descriptor.regime, hmaskEn, hfull]
  have hmasked (hm : maskEn = true) : maskValue c l m0 x y = m := if_pos (hmaskEn.trans hm)
  refine ⟨?nmFull, ?nmPart, ?mFull, ?mPart⟩
  case nmFull =>
    rintro rfl hfull
    exact fill_overwrites hrow h hx hy (hregime ((full_iff ..).2 hfull))
  case nmPart =>
    rintro rfl hpart
    have hr : l.regime c = .nmPart := hregime (full_eq_false hpart)
    exact fill_mixes hrow h hx hy (by simp [hr]) (by rw [fillWeight, hr]; rfl)
  case mFull =>
    rintro rfl hfull
    have hr : l.regime c = .mFull := hregime ((full_iff ..).2 hfull)
    exact fill_mixes hrow h hx hy (by simp [hr]) (by rw [fillWeight, hr, hmasked rfl]; rfl)
  case mPart =>
    rintro rfl hpart w hw
    have hr : l.regime c = .mPart := hregime (full_eq_false hpart)
    have hscale : scale l.opacity m = w := BitVec.eq_of_toNat_eq ((scale_toNat l.opacity m).trans hw.symm)
    exact fill_mixes hrow h hx hy (by simp [hr]) (by rw [fillWeight, hr, hmasked rfl]; exact hscale)

end Sys2Proof.Machine
end

section
/-! SUPPORT. What a supported image command leaves in a destination pixel: on the general path the blend at its weight
(42_image.md R171), on the copy path the source's bytes (R182 to R184). -/

namespace Sys2Proof.Machine

theorem commandRow_encodeImage (fmt : SrcFmt) (mode : BlendMode) (dpx maskEn : Bool) :
    commandRow (encodeImage fmt mode dpx maskEn) = imageRow fmt mode := by
  rw [encodeImage, commandRow_eq, cmdOp_encodeFields, cmdBlend_encodeFields, cmdSrcFmt_encodeFields, rowOf_image]

variable {c : Config} {l : Descriptor} {m0 : Memory} {x y : Nat} {fmt : SrcFmt} {mode : BlendMode}

theorem maskEn_of_encodeImage {dpx maskEn : Bool} (hl : l.cmd = encodeImage fmt mode dpx maskEn) :
    l.maskEn = maskEn := by
  rw [Descriptor.maskEn, hl, encodeImage, cmdMaskEn_encodeFields]

/-- No image command but the raw copy of XRGB8888 writes byte 3 of a 4-byte pixel (20_memory.md R74). -/
theorem padUntouched_image (hrow : commandRow l.cmd = imageRow fmt mode) (h : violation c l = none) (hx : x < l.width)
    (hy : y < l.height) (hnoRawCopy : fmt = .xrgb8888 → mode = .normal → l.regime c ≠ .nmFull) :
    padUntouched c l m0 x y := by
  intro h4
  obtain ⟨hn, -, -, -⟩ := (violation_none c l).1 h
  apply finalValue_of_not_mem
  rw [← port_pixelByte hn hx hy (by omega), commandWriteSet_padByte h h4 hx hy, hrow, imageRow_eq_xrgb8888Normal]
  rintro ⟨hfill | ⟨hfmt, hmode⟩, hregime⟩
  · exact imageRow_ne_fill fmt mode hfill
  · exact hnoRawCopy hfmt hmode hregime

/-! ### The general path -/

/-- At weight 0 the blend is the destination pixel (40_datapath.md R136). -/
theorem imageColour_zero (c : Config) (l : Descriptor) (m0 : Memory) (fmt : SrcFmt) (mode : BlendMode) (x y : Nat) :
    imageColour c l m0 fmt mode x y 0 = destPixel c l m0 x y := by
  cases mode with
  | normal => exact mix3_zero c _ _
  | combine k => simp only [imageColour, nonnormal, mix3_zero]

/-- Off the copy path a pixel has the blend at its weight afterwards (R171). -/
theorem pixelAfter_general (hrow : commandRow l.cmd = imageRow fmt mode) (h : violation c l = none) (hx : x < l.width)
    (hy : y < l.height) (hgeneral : ¬ takesCopyPath c l fmt mode = true) :
    pixelAfter c l m0 x y = imageColour c l m0 fmt mode x y (imageWeight c l m0 fmt mode x y) :=
  pixelAfter_of_mixedPixel h hx hy (commandWriteSet_image hrow c m0) (commandImagePixel_shape fmt mode c l m0)
    (if_neg hgeneral) fun hw => by rw [hw, imageColour_zero]

/-! ### The copy path -/

/-- The NORMAL mode of the two encodings with a copy path takes it in the regime NM_FULL alone (R182). -/
theorem takesCopyPath_normal_iff (c : Config) (l : Descriptor) (hfmt : fmt = .rgb888 ∨ fmt = .xrgb8888) :
    takesCopyPath c l fmt .normal = true ↔ l.regime c = .nmFull := by
  simp [takesCopyPath_iff, hfmt]

/-- On the copy path bytes 0 to 2 of a pixel are copied, and all its bytes where the pixel sizes match (R182). -/
theorem copied_mem_commandImagePixel (hcopy : takesCopyPath c l fmt mode = true) {k : Nat}
    (hk : k < 3 ∨ srcPixelSize fmt = l.pixelSize ∧ k < l.pixelSize) :
    (c.port (destAddress c l x y + k), memRead8 c m0 (srcAddress c l (srcPixelSize fmt) x y + k)) ∈
      commandImagePixel fmt mode c l m0 x y := by
  rw [commandImagePixel, if_pos hcopy]
  split
  case isTrue hsize =>
    have hk : k < l.pixelSize := hk.elim (·.trans_le (three_le_pixelSize l)) And.right
    rw [hsize]
    exact List.mem_map.2 ⟨k, List.mem_range.2 hk, rfl⟩
  case isFalse hsize =>
    have hk : k < 3 := hk.resolve_right fun hwhole => hsize hwhole.1
    exact List.mem_map.2 ⟨k, List.mem_range.2 hk, rfl⟩

/-- The 3-channel copy of a pixel is part of what the copy path writes there (R183, R184). -/
theorem copyPixel_subset (hcopy : takesCopyPath c l fmt mode = true) :
    copyPixel c l m0 (srcPixelSize fmt) x y ⊆ commandImagePixel fmt mode c l m0 x y := by
  intro cell hcell
  obtain ⟨k, hk, rfl⟩ := List.mem_map.1 hcell
  exact copied_mem_commandImagePixel hcopy (.inl (List.mem_range.1 hk))

theorem copyPixel_eq_colourCells (c : Config) (l : Descriptor) (m0 : Memory) (q x y : Nat) :
    copyPixel c l m0 q x y = colourCells c (destAddress c l x y) (srcTriple c m0 (srcAddress c l q x y)) := rfl

/-- On the copy path a pixel has the source's bytes 0 to 2 afterwards (R182). -/
theorem pixelAfter_copy (hrow : commandRow l.cmd = imageRow fmt mode) (h : violation c l = none) (hx : x < l.width)
    (hy : y < l.height) (hcopy : takesCopyPath c l fmt mode = true) :
    pixelAfter c l m0 x y = srcTriple c m0 (srcAddress c l (srcPixelSize fmt) x y) := by
  refine pixelAfter_of_colourCells h hx hy (commandWriteSet_image hrow c m0) ?_
  rw [← copyPixel_eq_colourCells]
  exact copyPixel_subset hcopy

/-- The raw row copy of XRGB8888 writes the source's pad byte into byte 3 of a 4-byte pixel (R184). -/
theorem imageWriteSet_copies_padByte (h : violation c l = none) (hx : x < l.width) (hy : y < l.height)
    (hregime : l.regime c = .nmFull) (h4 : l.pixelSize = 4) :
    finalValue (imageWriteSet .xrgb8888 .normal c l m0) (destAddress c l x y + 3) =
      some (memRead8 c m0 (srcAddress c l 4 x y + 3)) := by
  obtain ⟨hn, hr, -, -⟩ := (violation_none c l).1 h
  have hcopy : takesCopyPath c l .xrgb8888 .normal = true := (takesCopyPath_normal_iff c l (.inr rfl)).2 hregime
  have hmem := copied_mem_commandImagePixel (m0 := m0) (x := x) (y := y) (k := 3) hcopy (.inr ⟨h4.symm, by omega⟩)
  rw [imageWriteSet_eq, ← port_pixelByte hn hx hy (by omega)]
  exact finalValue_of_mem _ ((commandImagePixel_shape .xrgb8888 .normal c l m0).once hn hr) _
    ((mem_overRegion ..).2 ⟨x, y, hx, hy, hmem⟩)

end Sys2Proof.Machine
end

section
/-! PROOF. BLEND_IMAGE (42_image.md): its acceptance, and what each source encoding leaves in a destination pixel (R173 to
R180). -/

namespace Sys2Proof.Machine

/-- Settles O22: an image command is one that launches. -/
theorem imageCommandsAreAcceptedAndRun : Obligations.ImageCommandsAreAcceptedAndRun := by
  intro s fmt mode dpx maskEn hidle l h
  rw [exec_imageInstr]
  exact accept_launch_runs _ (imageWriteSet fmt mode) s hidle h

/-- A 16-bit value is the little-endian value of its two bytes (30_encoding.md R101). -/
theorem append_eq_of_littleEndian {lo hi : Byte} {v : BitVec 16} (hv : v.toNat = lo.toNat + 256 * hi.toNat) :
    hi ++ lo = v := by
  apply BitVec.eq_of_toNat_eq
  rw [BitVec.toNat_append, ← Nat.shiftLeft_add_eq_or_of_lt lo.isLt, Nat.shiftLeft_eq, hv]
  omega

/-- Settles O26: RGB565 always takes the general path, and its source is the expanded 16-bit value. -/
theorem rgb565CommandsWriteTheExpandedBlend : Obligations.Rgb565CommandsWriteTheExpandedBlend := by
  intro c l m0 mode dpx maskEn x y hl h hx hy a d m v hv
  have hrow : commandRow l.cmd = imageRow .rgb565 mode := hl ▸ commandRow_encodeImage .rgb565 mode dpx maskEn
  obtain rfl := maskEn_of_encodeImage hl
  have hgeneral : ¬ takesCopyPath c l .rgb565 mode = true := by simp [takesCopyPath_iff]
  have hsource : srcColour c l m0 .rgb565 x y = expand565 v := congrArg expand565 (append_eq_of_littleEndian hv)
  refine ⟨?_, padUntouched_image hrow h hx hy nofun⟩
  rw [pixelAfter_general hrow h hx hy hgeneral, ← hsource]
  cases mode with
  | normal => rfl
  | combine k => rfl

/-- Settles O27: NORMAL copies in the regime NM_FULL; everything else is the general path. -/
theorem rgb888CommandsWriteTheCopyOrTheBlend : Obligations.Rgb888CommandsWriteTheCopyOrTheBlend := by
  intro c l m0 mode dpx maskEn x y hl h hx hy a s d m
  have hrow : commandRow l.cmd = imageRow .rgb888 mode := hl ▸ commandRow_encodeImage .rgb888 mode dpx maskEn
  obtain rfl := maskEn_of_encodeImage hl
  refine ⟨?copy, ?mix, ?combine, padUntouched_image hrow h hx hy nofun⟩
  case copy =>
    rintro rfl hregime
    exact pixelAfter_copy hrow h hx hy ((takesCopyPath_normal_iff c l (.inl rfl)).2 hregime)
  case mix =>
    rintro rfl hregime
    exact pixelAfter_general hrow h hx hy (mt (takesCopyPath_normal_iff c l (.inl rfl)).1 hregime)
  case combine =>
    rintro k rfl
    exact pixelAfter_general hrow h hx hy nofun

/-- Settles O28: NORMAL copies in the regime NM_FULL, the pad byte too where the copy is raw; everything else is the
general path. -/
theorem xrgb8888CommandsWriteTheCopyOrTheBlend : Obligations.Xrgb8888CommandsWriteTheCopyOrTheBlend := by
  intro c l m0 mode dpx maskEn x y hl h hx hy a s d m
  have hrow : commandRow l.cmd = imageRow .xrgb8888 mode := hl ▸ commandRow_encodeImage .xrgb8888 mode dpx maskEn
  obtain rfl := maskEn_of_encodeImage hl
  refine ⟨?copy, ?mix, ?combine⟩
  case copy =>
    rintro rfl hregime
    refine ⟨pixelAfter_copy hrow h hx hy ((takesCopyPath_normal_iff c l (.inr rfl)).2 hregime), fun h4 => ?_⟩
    rw [commandWriteSet_image hrow, ← imageWriteSet_eq]
    exact imageWriteSet_copies_padByte h hx hy hregime h4
  case mix =>
    rintro rfl hregime
    exact ⟨pixelAfter_general hrow h hx hy (mt (takesCopyPath_normal_iff c l (.inr rfl)).1 hregime),
      padUntouched_image hrow h hx hy fun _ _ => hregime⟩
  case combine =>
    rintro k rfl
    exact ⟨pixelAfter_general hrow h hx hy nofun, padUntouched_image hrow h hx hy nofun⟩

/-- Settles O29: ARGB8888 always takes the general path, at the weight W_ARGB. -/
theorem argb8888CommandsWriteTheAlphaBlend : Obligations.Argb8888CommandsWriteTheAlphaBlend := by
  intro c l m0 mode dpx maskEn x y hl h hx hy a s d w
  have hrow : commandRow l.cmd = imageRow .argb8888 mode := hl ▸ commandRow_encodeImage .argb8888 mode dpx maskEn
  have hgeneral : ¬ takesCopyPath c l .argb8888 mode = true := by simp [takesCopyPath_iff]
  refine ⟨?_, padUntouched_image hrow h hx hy nofun⟩
  rw [pixelAfter_general hrow h hx hy hgeneral]
  cases mode with
  | normal => rfl
  | combine k => rfl

end Sys2Proof.Machine
end

section
/-! PROOF. The raw row copy agrees with the general path on bytes 0 to 2 of every pixel (42_image.md R185): in the regime
NM_FULL the general path of RGB888 and XRGB8888 is the 3-channel copy (R183). -/

namespace Sys2Proof.Machine

variable {c : Config} {l : Descriptor} {m0 : Memory} {x y : Nat} {fmt : SrcFmt}

/-- At weight 255 the mix is its source, and every pixel is written (40_datapath.md R120). -/
theorem imagePixel_nmFull (hfmt : fmt = .rgb888 ∨ fmt = .xrgb8888) (hregime : l.regime c = .nmFull) :
    imagePixel c l m0 fmt .normal x y = copyPixel c l m0 (srcPixelSize fmt) x y := by
  have hweight : imageWeight c l m0 fmt .normal x y = 255 := by
    obtain rfl | rfl := hfmt <;> simp only [imageWeight, hregime, wRgb]
  have hcolour : imageColour c l m0 fmt .normal x y 255 = srcColour c l m0 fmt x y :=
    mix3_opaque (by decide) (byte_le c.opaMax) _ _
  have hsource : srcColour c l m0 fmt x y = srcTriple c m0 (srcAddress c l (srcPixelSize fmt) x y) := by
    obtain rfl | rfl := hfmt <;> rfl
  simp only [imagePixel, hweight]
  rw [mixedPixel_of_ne_zero (by decide), hcolour, hsource, copyPixel_eq_colourCells]

/-- Settles O45: pixel by pixel the general path is the 3-channel copy, which the raw copy of a 3-byte pixel is and the
raw copy of a 4-byte pixel contains. -/
theorem rawRowCopyAgreesWithTheGeneralPath : Obligations.RawRowCopyAgreesWithTheGeneralPath := by
  intro c l m0 hregime
  refine ⟨fun h3 => ?rgb888, fun h4 => ⟨?xrgb8888, fun h x y hx hy =>
    ⟨imageWriteSet_copies_padByte h hx hy hregime h4, ?padByte⟩⟩⟩
  case rgb888 =>
    have hcopy : takesCopyPath c l .rgb888 .normal = true := (takesCopyPath_normal_iff c l (.inl rfl)).2 hregime
    have hsize : srcPixelSize .rgb888 = l.pixelSize := h3.symm
    rw [imageWriteSet_eq]
    refine overRegion_congr l _ _ fun x y _ _ => ?_
    rw [imagePixel_nmFull (.inl rfl) hregime, commandImagePixel, if_pos hcopy, if_pos hsize, copyWhole, h3]
    rfl
  case xrgb8888 =>
    have hcopy : takesCopyPath c l .xrgb8888 .normal = true := (takesCopyPath_normal_iff c l (.inr rfl)).2 hregime
    intro cell hcell
    obtain ⟨x, y, hx, hy, hpixel⟩ := (mem_overRegion ..).1 hcell
    rw [imagePixel_nmFull (.inr rfl) hregime] at hpixel
    rw [imageWriteSet_eq]
    exact (mem_overRegion ..).2 ⟨x, y, hx, hy, copyPixel_subset hcopy hpixel⟩
  case padByte =>
    obtain ⟨hn, hr, -, -⟩ := (violation_none c l).1 h
    have hpad : c.port (destAddress c l x y + 3) ∈ pixelAddresses c l x y :=
      List.mem_map.2 ⟨3, List.mem_range.2 (by omega), rfl⟩
    apply finalValue_of_not_mem
    rw [← port_pixelByte hn hx hy (by omega),
      (imagePixel_shape c l m0 .xrgb8888 .normal).mem_addresses hn hr hx hy hpad]
    exact mixedPixel_leaves_padByte hn h4 hx hy _ _

end Sys2Proof.Machine
end

section
/-! SUPPORT. What a CTRL write, a START while RUNNING, the accesses to the descriptor registers and one engine step do
(43_command_control.md R200 to R206), and how a command word's fields decide whether it ends at once. -/

namespace Sys2Proof.Machine

variable (s : State)

/-! ### Descriptor registers -/

theorem exec_readInstr (r : DescReg) : exec r.readInstr s = .next (s.setHostData (s.readReg r)) := by
  cases r <;> rfl

theorem exec_writeInstr (r : DescReg) (v : Word) : exec (r.writeInstr v) s = .next (s.setReg r v) := by
  cases r <;> rfl

/-! ### CTRL and START -/

theorem exec_wrCtrl_start (v : Word) (h : v.getLsbD 0 = true) :
    exec (.wrCtrl v) s = start (s.setIrqEn (v.getLsbD 1)) := if_pos h

theorem exec_wrCtrl_noStart (v : Word) (h : v.getLsbD 0 = false) :
    exec (.wrCtrl v) s = .next (s.setIrqEn (v.getLsbD 1)) := if_neg (Bool.eq_false_iff.1 h)

variable {s} {job : Job}

/-- While RUNNING the instruction of any command word is dropped (R203). -/
theorem exec_decodeCommand_running (w : Word) (h : s.phase = .running job) :
    exec (decodeCommand w) s = .next s := by
  rw [decodeCommand, ← runRow_eq, runRow_accept, accept_running _ s job h]

/-- While RUNNING a CTRL write stores IRQ_EN, and its START is dropped (R203). -/
theorem exec_wrCtrl_running (v : Word) (h : s.phase = .running job) :
    exec (.wrCtrl v) s = .next (s.setIrqEn (v.getLsbD 1)) := by
  cases hv : v.getLsbD 0 with
  | false => exact exec_wrCtrl_noStart s v hv
  | true =>
    rw [exec_wrCtrl_start s v hv, start_eq]
    exact exec_decodeCommand_running (s := s.setIrqEn (v.getLsbD 1)) _ h

/-! ### The error a command word ends with (30_encoding.md R95, R96, R98) -/

theorem exists_code_eq_blend (b : BitVec 2) : ∃ mode : BlendMode, mode.code = b := by
  rcases blend_cases b with rfl | rfl | rfl | rfl
  · exact ⟨.normal, rfl⟩
  · exact ⟨.combine .additive, rfl⟩
  · exact ⟨.combine .subtractive, rfl⟩
  · exact ⟨.combine .multiply, rfl⟩

theorem exists_code_eq_srcFmt {f : Byte} (h : f = 0x0F ∨ f = 0x10 ∨ f = 0x11 ∨ f = 0x12) :
    ∃ fmt : SrcFmt, fmt.code = f := by
  rcases h with rfl | rfl | rfl | rfl
  · exact ⟨.rgb888, rfl⟩
  · exact ⟨.argb8888, rfl⟩
  · exact ⟨.xrgb8888, rfl⟩
  · exact ⟨.rgb565, rfl⟩

theorem rowError_imageRow (fmt : SrcFmt) (mode : BlendMode) : rowError (imageRow fmt mode) = none := by
  rcases mode with _ | k
  · cases fmt <;> rfl
  · cases fmt <;> cases k <;> rfl

theorem rowError_illegalOp {w : Word} (h : cmdOp w = 0 ∨ cmdOp w = 3) :
    rowError (commandRow w) = some .illegalOp := by
  rw [commandRow_eq]
  rcases h with h | h <;> rw [h] <;> rfl

theorem rowError_unsupported {w : Word} (hop : cmdOp w = 2)
    (hfmt : cmdSrcFmt w ≠ 0x0F ∧ cmdSrcFmt w ≠ 0x10 ∧ cmdSrcFmt w ≠ 0x11 ∧ cmdSrcFmt w ≠ 0x12) :
    rowError (commandRow w) = some .unsupportedFormat := by
  obtain ⟨h0F, h10, h11, h12⟩ := hfmt
  rw [commandRow_eq, hop, rowOf, if_neg (by decide), if_pos rfl, if_neg h12, if_neg h0F, if_neg h11, if_neg h10]
  rfl

/-- A fill and an image command with a supported SRC_FMT end with no error at acceptance. -/
theorem rowError_none {w : Word} (h : cmdOp w = 1 ∨ cmdOp w = 2 ∧
    ¬(cmdSrcFmt w ≠ 0x0F ∧ cmdSrcFmt w ≠ 0x10 ∧ cmdSrcFmt w ≠ 0x11 ∧ cmdSrcFmt w ≠ 0x12)) :
    rowError (commandRow w) = none := by
  rw [commandRow_eq]
  rcases h with hop | ⟨hop, hfmt⟩
  · rw [hop]
    rfl
  · obtain ⟨fmt, hf⟩ := exists_code_eq_srcFmt (f := cmdSrcFmt w) (by tauto)
    obtain ⟨mode, hm⟩ := exists_code_eq_blend (cmdBlend w)
    rw [hop, ← hf, ← hm, rowOf_image, rowError_imageRow]

/-- An IDLE engine stays IDLE at the end of a command. -/
theorem terminate_of_idle (h : s.phase = .idle) (e : ErrCode) : s.terminate e = { s with done := true, err := e } := by
  rw [State.terminate, ← h]

/-- START of a word that ends at once with an error, in an IDLE engine (R202). -/
theorem start_rejected (hidle : s.phase = .idle) {e : ErrCode} (he : rowError (commandRow s.desc.cmd) = some e) :
    start s = .next { s.latch (s.desc.cmd &&& cmdFieldMask) with done := true, err := e } := by
  rw [start_idle s hidle, he]
  exact congrArg Host.Outcome.next (terminate_of_idle (s := s.latch _) hidle e)

/-- START of a word that runs, in an IDLE engine (R202). -/
theorem start_launched (hidle : s.phase = .idle) (he : rowError (commandRow s.desc.cmd) = none) :
    start s = launch commandWriteSet (s.latch (s.desc.cmd &&& cmdFieldMask)) := by
  rw [start_idle s hidle, he]

/-! ### The engine's step -/

/-- An index below the number of pending pairs is the one written. -/
theorem engineStep_pick (k : Nat) (h : s.phase = .running job) (hk : k < job.pending.length) :
    engineStep k s = s.commit job job.pending[k] (job.pending.eraseIdx k) := by
  simp [engineStep, h, Nat.mod_eq_of_lt hk, List.getElem?_eq_getElem hk]

/-- The engine's step passes by an update of the state that its two operations pass by and that leaves the phase. -/
theorem engineStep_comm (f : State → State) (hphase : ∀ s, (f s).phase = s.phase)
    (hend : ∀ s : State, (f s).terminate .ok = f (s.terminate .ok))
    (hwrite : ∀ (s : State) (job : Job) (cell : Host.Cell) (rest : List Host.Cell),
      (f s).commit job cell rest = f (s.commit job cell rest))
    (k : Nat) (s : State) : engineStep k (f s) = f (engineStep k s) := by
  cases hp : s.phase with
  | idle => rw [engineStep_idle k s hp, engineStep_idle k (f s) ((hphase s).trans hp)]
  | running job =>
    have hp' : (f s).phase = .running job := (hphase s).trans hp
    by_cases hnil : job.pending = []
    · rw [engineStep_done k s job hp hnil, engineStep_done k (f s) job hp' hnil, hend]
    · rw [engineStep_write k s job hp hnil, engineStep_write k (f s) job hp' hnil, hwrite]

/-- The engine's step neither reads nor changes the agenda. -/
theorem engineStep_setAgenda (k : Nat) (s : State) (es : List Event) :
    engineStep k (s.setAgenda es) = (engineStep k s).setAgenda es :=
  engineStep_comm (·.setAgenda es) (fun _ => rfl) (fun _ => rfl) (fun _ _ _ _ => rfl) k s

/-- The engine's step neither reads nor changes the registers (R208). -/
theorem engineStep_setReg (k : Nat) (s : State) (r : DescReg) (v : Word) :
    engineStep k (s.setReg r v) = { engineStep k s with desc := (s.setReg r v).desc } :=
  engineStep_comm (fun t => { t with desc := (s.setReg r v).desc }) (fun _ => rfl) (fun _ => rfl)
    (fun _ _ _ _ => rfl) k s

end Sys2Proof.Machine
end

section
/-! PROOF. The host's register accesses (43_command_control.md R200, R201, R207, R208) and the CTRL write with the START
it may carry (R202, R203). -/

namespace Sys2Proof.Machine

/-- Settles O14: each read returns its word to the host. -/
theorem registerReadsReturnTheFields : Obligations.RegisterReadsReturnTheFields := fun s _ =>
  ⟨rfl, rfl, rfl, exec_readInstr s .cmd, exec_readInstr s .destAddr, exec_readInstr s .destSize,
    exec_readInstr s .destStride, exec_readInstr s .color, exec_readInstr s .opa, exec_readInstr s .maskAddr,
    exec_readInstr s .maskStride, exec_readInstr s .srcAddr, exec_readInstr s .srcStride, rfl⟩

/-- Settles O16: each write stores its field bits in its register. -/
theorem registerWritesStoreTheFieldBits : Obligations.RegisterWritesStoreTheFieldBits := fun s v _ =>
  ⟨exec_writeInstr s .cmd v, exec_writeInstr s .destAddr v, exec_writeInstr s .destSize v,
    exec_writeInstr s .destStride v, exec_writeInstr s .color v, exec_writeInstr s .opa v,
    exec_writeInstr s .maskAddr v, exec_writeInstr s .maskStride v, exec_writeInstr s .srcAddr v,
    exec_writeInstr s .srcStride v, rfl, rfl⟩

theorem exec_wrStatus_clears (s : State) (v : Word) (h : v.getLsbD 1 = true) :
    exec (.wrStatus v) s = .next s.clearDone :=
  congrArg Host.Outcome.next (if_pos h)

theorem exec_wrStatus_same (s : State) (v : Word) (h : v.getLsbD 1 = false) : exec (.wrStatus v) s = .next s :=
  congrArg Host.Outcome.next (if_neg (Bool.eq_false_iff.1 h))

/-- Settles O18: bit 1 decides between clearing DONE and nothing; where DONE is 0 already these are the same. -/
theorem statusWriteClearsDoneAndNothingElse : Obligations.StatusWriteClearsDoneAndNothingElse := by
  intro s v
  refine ⟨fun h => ⟨s.clearDone, exec_wrStatus_clears s v h, rfl, by simp [State.irq]⟩, exec_wrStatus_same s v,
    fun _ hdone => ?_⟩
  cases hv : v.getLsbD 1 with
  | false => exact exec_wrStatus_same s v hv
  | true =>
    have hsame : s.clearDone = s := by rw [State.clearDone, ← hdone]
    rw [exec_wrStatus_clears s v hv, hsame]

/-- Settles O50: the write changes the registers alone, and the engine's step does not look at them. -/
theorem descriptorWritesDoNotTouchTheRunningCommand : Obligations.DescriptorWritesDoNotTouchTheRunningCommand :=
  fun s _ r v k hp =>
    ⟨s.setReg r v, exec_writeInstr s r v, setReg_readReg s r v, rfl, hp, rfl, engineStep_setReg k s r v⟩

/-- Settles O12: the access is the next event, and its START runs the instruction of CMD. -/
theorem aStartRunsTheCommandThatCmdDecodesTo : Obligations.AStartRunsTheCommandThatCmdDecodesTo := by
  intro s a rest v ha hdecode hstart
  have haccess : hostAccess a (s.setAgenda rest) = exec (.wrCtrl v) (s.setAgenda rest) := by
    rw [hostAccess, setAgenda_cfg, hdecode]
  rw [step_of_agenda_cons s _ rest ha, handle, haccess, exec_wrCtrl_start _ v hstart, start_eq]
  rfl

/-- Settles O19: the START is dropped, by a CTRL write and by the command instruction itself. -/
theorem startWhileRunningIsDropped : Obligations.StartWhileRunningIsDropped := fun _ _ hp =>
  ⟨fun v => exec_wrCtrl_running v hp, fun w => exec_decodeCommand_running w hp⟩

/-- Settles O20: the START is dropped or absent, or the fields of CMD say whether it ends at once or launches. -/
theorem aCtrlWriteIsTheAcceptanceOfItsCommand : Obligations.ACtrlWriteIsTheAcceptanceOfItsCommand := by
  intro s v
  refine ⟨fun hdropped => ?_, fun hstart hidle => ?_⟩
  · rcases hdropped with hv | hbusy
    · exact exec_wrCtrl_noStart s v hv
    · obtain ⟨job, hp⟩ := (busy_iff s).1 hbusy
      exact exec_wrCtrl_running v hp
  · have hidle' : (s.setIrqEn (v.getLsbD 1)).phase = .idle := hidle
    rw [exec_wrCtrl_start s v hstart]
    refine ⟨fun hop => start_rejected hidle' (rowError_illegalOp hop),
      fun hop hfmt => start_rejected hidle' (rowError_unsupported hop hfmt), fun hruns => ?_⟩
    rw [start_launched hidle' (rowError_none hruns)]
    exact ⟨fun r hr => (launch_refused ..).2 hr, fun hnone => (launch_next ..).2 ⟨hnone, rfl⟩⟩

end Sys2Proof.Machine
end

section
/-! PROOF. The engine's steps while RUNNING and the end of a command (43_command_control.md R204 to R206, R209;
60_exceptions.md R223). -/

namespace Sys2Proof.Machine

/-! ### One step -/

/-- Settles O31: by an engine event or with an empty agenda, the engine's step ends the command. -/
theorem completionFollowsTheLastWrite : Obligations.CompletionFollowsTheLastWrite := by
  intro s job hp hnil
  refine ⟨fun ha => ?_, fun k rest ha => ?_⟩
  · rw [step_of_agenda_nil s ha, engineStep_done 0 s job hp hnil]
    rfl
  · rw [step_of_agenda_cons s _ rest ha, handle, engineStep_setAgenda, engineStep_done k s job hp hnil]
    rfl

/-- Settles O30: the step writes the pair of the index, whose address the port does not reduce. -/
theorem engineStepWritesOneChosenPair : Obligations.EngineStepWritesOneChosenPair := by
  intro s job rest k hk hinv hp ha
  obtain ⟨-, -, -, hok⟩ := hinv.running job hp
  have hport : s.cfg.port job.pending[k].1 = job.pending[k].1 :=
    port_of_lt s.cfg _ (hok.pending_lt _ (List.getElem_mem hk))
  refine ⟨s.mem.write job.pending[k].1 job.pending[k].2, ?_, hinv.read_write _ _⟩
  rw [step_of_agenda_cons s _ rest ha, handle, engineStep_setAgenda, engineStep_pick k hp hk, State.commit, hport]
  rfl

/-! ### The end of a command (R209) -/

variable {s t : State} {job : Job}

/-- No instruction ends a running command. -/
theorem ExecEffect.phase_of_running (h : ExecEffect s t) (hp : s.phase = .running job) : t.phase = .running job := by
  cases h with
  | same | returned | written | acknowledged | enabled => exact hp
  | ended _ _ _ hidle | started _ _ hidle => cases hp.symm.trans hidle

theorem hostAccess_phase_of_running (a : Access) (hp : s.phase = .running job) (h : hostAccess a s = .next t) :
    t.phase = .running job := by
  unfold hostAccess at h
  split at h
  · exact (exec_effect _ s t h).phase_of_running hp
  · cases h

/-- An engine step ends a command only where nothing is pending, with OK. -/
theorem engineStep_ends (k : Nat) (hp : s.phase = .running job) (hidle : (engineStep k s).phase = .idle) :
    job.pending = [] ∧ (engineStep k s).done = true ∧ (engineStep k s).err = .ok := by
  by_cases hnil : job.pending = []
  · rw [engineStep_done k s job hp hnil]
    exact ⟨hnil, rfl, rfl⟩
  · rw [engineStep_write k s job hp hnil] at hidle
    cases hidle

/-- A bus error ends a command with BUS_ERROR. -/
theorem busErrorStep_ends (hp : s.phase = .running job) (hidle : (busErrorStep s).phase = .idle) :
    (busErrorStep s).done = true ∧ (busErrorStep s).err = .busError := by
  rcases busErrorStep_cases s with he | he
  · rw [he]
    exact ⟨rfl, rfl⟩
  · rw [he, hp] at hidle
    cases hidle

/-- Settles O53: the host's accesses keep the command running; the engine's step, a bus error and a reset remain. -/
theorem onlyCompletionBusErrorOrResetEndsACommand : Obligations.OnlyCompletionBusErrorOrResetEndsACommand := by
  intro s t job hp hstep hidle
  have hkept : t.phase ≠ .running job := by rw [hidle]; exact nofun
  cases ha : s.agenda with
  | nil =>
    rw [step_of_agenda_nil s ha] at hstep
    cases hstep
    obtain ⟨hnil, hdone, herr⟩ := engineStep_ends 0 hp hidle
    exact .inl ⟨hnil, hdone, herr, .inl rfl⟩
  | cons e rest =>
    rw [step_of_agenda_cons s e rest ha] at hstep
    have hp' : (s.setAgenda rest).phase = .running job := hp
    cases e with
    | reg a => exact absurd (hostAccess_phase_of_running a hp' hstep) hkept
    | load a sawFinal =>
      obtain ⟨-, -, rfl⟩ := (hostLoad_next ..).1 hstep
      exact absurd hp hkept
    | store a v =>
      obtain ⟨-, -, -, rfl⟩ := (hostStore_next ..).1 hstep
      exact absurd hp hkept
    | engine k =>
      cases hstep
      obtain ⟨hnil, hdone, herr⟩ := engineStep_ends k hp' hidle
      exact .inl ⟨hnil, hdone, herr, .inr ⟨k, rest, rfl⟩⟩
    | busError =>
      cases hstep
      obtain ⟨hdone, herr⟩ := busErrorStep_ends hp' hidle
      exact .inr (.inl ⟨hdone, herr, rest, rfl⟩)
    | reset l => exact .inr (.inr ⟨l, rest, rfl⟩)

/-! ### The run to the result -/

/-- With an empty agenda the machine runs as with a schedule that writes the first pending pair each time. -/
theorem runSteps_agenda_nil (n : Nat) (s : State) :
    runSteps n (s.setAgenda []) = runSteps n (s.setAgenda ((List.replicate n 0).map Event.engine)) := by
  induction n generalizing s with
  | zero => rfl
  | succ n ih =>
    calc runSteps (n + 1) (s.setAgenda [])
      _ = runSteps n (engineStep 0 (s.setAgenda [])) := rfl
      _ = runSteps n ((engineStep 0 s).setAgenda ((List.replicate n 0).map Event.engine)) := by
        rw [engineStep_setAgenda, ih]
      _ = runSteps (n + 1) (s.setAgenda ((List.replicate (n + 1) 0).map Event.engine)) := by
        rw [← engineStep_setAgenda]
        rfl

/-- Where nothing is pending a byte stays as it is. -/
theorem afterCommand_of_not_mem {ws : List Host.Cell} {a : Nat} (m : Memory)
    (h : a ∉ ws.map fun cell => cell.1) : afterCommand ws m a = m.read a := by
  rw [afterCommand, finalValue_of_not_mem ws a h, Option.getD_none]

/-- Once its pending pairs are written, a running command's whole write set has its final values (R205). -/
theorem JobOk.afterCommand_pending {c : Config} {l : Descriptor} {mem : Memory} (h : JobOk c l mem job)
    {cell : Host.Cell} (hc : cell ∈ job.ws) : afterCommand job.pending mem cell.1 = cell.2 := by
  by_cases hpend : cell ∈ job.pending
  · rw [afterCommand, finalValue_of_mem job.pending h.pending_once cell hpend, Option.getD_some]
  · have hnot : cell.1 ∉ job.pending.map fun cell => cell.1 := fun hm => by
      obtain ⟨cell', hc', he⟩ := List.mem_map.1 hm
      exact hpend (cell_eq_of_address_eq h.once (h.position.subset hc') hc he ▸ hc')
    rw [afterCommand_of_not_mem mem hnot, h.newValue cell hc hpend]

/-- The pending pairs lie in the destination footprint (20_memory.md R73). -/
theorem JobOk.pending_inDest {c : Config} {l : Descriptor} {mem : Memory} (h : JobOk c l mem job) {a : Nat}
    (ha : a ∈ job.pending.map fun cell => cell.1) : a ∈ destFootprint c l := by
  obtain ⟨cell, hc, rfl⟩ := List.mem_map.1 ha
  exact h.inDest cell (h.position.subset hc)

/-- Settles O32: the run is that of a schedule that writes all pending pairs and completes. -/
theorem anAcceptedCommandRunsToItsResult : Obligations.AnAcceptedCommandRunsToItsResult := by
  intro s job hinv hp ha
  obtain ⟨-, -, -, hok⟩ := hinv.running job hp
  obtain ⟨m, hrun, -, hread⟩ := runSteps_schedule (List.replicate (job.pending.length + 1) 0) s job hinv hp
    List.length_replicate
  have hagenda : s.setAgenda [] = s := by rw [State.setAgenda, ← ha]
  have hcompleted : s.completed m = { s with mem := m, phase := .idle, done := true, err := .ok } := by
    rw [State.completed, ← ha]
  have houtside : ∀ a : Nat, a ∉ job.pending.map (fun cell => cell.1) → m.read a = s.mem.read a := fun a hnot =>
    (hread a).trans (afterCommand_of_not_mem s.mem hnot)
  rw [List.length_replicate, ← runSteps_agenda_nil, hagenda, hcompleted] at hrun
  exact ⟨m, hrun, fun cell hc => (hread cell.1).trans (hok.afterCommand_pending hc), houtside,
    fun a hout => houtside a (mt hok.pending_inDest hout)⟩

end Sys2Proof.Machine
end

section
/-! PROOF. The two ends at acceptance (60_exceptions.md R221, R222), the end of a command (R226), and a bus error on a
running command (R223). -/

namespace Sys2Proof.Machine

variable {s : State}

/-! ### An end at acceptance -/

/-- In an IDLE engine a command that is rejected latches and ends at once; memory plays no part (43_command_control.md
R202). -/
theorem accept_rejectWith_idle (w : Word) (e : ErrCode) (hidle : s.phase = .idle) :
    accept w s (rejectWith e) =
      .next { s with latched := { s.desc with cmd := w }, done := true, err := e } := by
  rw [accept_idle w s hidle]
  exact congrArg Host.Outcome.next (terminate_of_idle (s := s.latch w) hidle e)

/-- STATUS in an IDLE engine after the end of a command: DONE and the error code (10_state.md R25). -/
theorem statusWord_of_ended {e : ErrCode} (hidle : s.phase = .idle) (hdone : s.done = true) (herr : s.err = e) :
    s.statusWord = placeField 1 (1 : BitVec 1) ||| placeField 4 e.code := by
  rw [State.statusWord, busy_idle s hidle, hdone, herr]
  exact congrArg (· ||| placeField 4 e.code) BitVec.zero_or

/-- The end at acceptance, with STATUS as the host then reads it. -/
theorem accept_rejectWith_ends (w : Word) (e : ErrCode) (hidle : s.phase = .idle) :
    ∃ t, accept w s (rejectWith e) = .next t ∧
      t = { s with latched := { s.desc with cmd := w }, done := true, err := e } ∧
      t.statusWord = placeField 1 (1 : BitVec 1) ||| placeField 4 e.code := by
  refine ⟨_, accept_rejectWith_idle w e hidle, rfl, ?_⟩
  exact statusWord_of_ended hidle rfl rfl

/-- Settles O23: the command is rejected at acceptance. -/
theorem unsupportedFormatEndsAtAcceptance : Obligations.UnsupportedFormatEndsAtAcceptance :=
  fun _ _ _ _ _ hidle => accept_rejectWith_ends _ .unsupportedFormat hidle

/-- A START right after a platform reset finds CMD 0, whose OP is illegal (60_exceptions.md R222). -/
theorem exec_start_after_reset (s : State) (l : Descriptor) (v : Word) (hv : v.getLsbD 0 = true) :
    ∃ t, exec (.wrCtrl v) (s.platformReset l) = .next t ∧ t.statusWord = 0x00000022 ∧ t.mem = s.mem := by
  rw [exec_wrCtrl_start _ v hv,
    start_rejected (s := (s.platformReset l).setIrqEn (v.getLsbD 1)) rfl (rowError_illegalOp (.inl rfl))]
  refine ⟨_, rfl, ?_, rfl⟩
  exact statusWord_of_ended (e := .illegalOp) rfl rfl rfl

/-- Settles O24: both rows are rejected at acceptance, and CMD holds OP 0 after a reset. -/
theorem illegalOpEndsAtAcceptance : Obligations.IllegalOpEndsAtAcceptance :=
  fun s _ _ _ _ hidle => ⟨accept_rejectWith_ends _ .illegalOp hidle, accept_rejectWith_ends _ .illegalOp hidle,
    exec_start_after_reset s⟩

/-! ### The end of a command -/

/-- Settles O35: the three fields it writes, and IRQ by DONE 1. -/
theorem terminateRecordsTheCodeAndNothingElse : Obligations.TerminateRecordsTheCodeAndNothingElse :=
  fun s code => ⟨rfl, busy_idle (s.terminate code) rfl, Bool.true_and s.irqEn⟩

/-! ### A bus error -/

/-- The step of a bus error on a running command: the end with BUS_ERROR, or the event is dropped. -/
theorem step_busError_running {job : Job} {rest : List Event} (ha : s.agenda = .busError :: rest)
    (hp : s.phase = .running job) :
    step s = .next (if s.cfg.busErrPossible = true ∧ makesAccesses s.cfg s.latched = true
      then (s.setAgenda rest).terminate .busError else s.setAgenda rest) := by
  rw [step_of_agenda_cons s _ rest ha, handle, busErrorStep_running (s.setAgenda rest) job hp]
  rfl

/-- Settles O36: a command makes accesses exactly where its region is not empty and it is no fill that mixes nothing. -/
theorem aBusErrorEndsTheCommandOrCannotHappen : Obligations.ABusErrorEndsTheCommandOrCannotHappen := by
  intro s rest ha
  refine ⟨fun hidle => ?_, fun job hp => ?_⟩
  · rw [step_of_agenda_cons s _ rest ha, handle, busErrorStep_idle (s.setAgenda rest) hidle]
    rfl
  · intro empty mixesNothing
    have hmakes : makesAccesses s.cfg s.latched = true ↔ ¬empty ∧ ¬mixesNothing := by
      rw [makesAccesses_iff, ← Bool.not_eq_true, fillsNothing_iff, not_or, and_assoc]
      rfl
    rw [step_busError_running ha hp]
    refine ⟨fun hpossible hne hmix => ?_, fun hnot => ?_⟩
    · rw [if_pos ⟨hpossible, hmakes.2 ⟨hne, hmix⟩⟩]
      rfl
    · have hcannot : ¬(s.cfg.busErrPossible = true ∧ makesAccesses s.cfg s.latched = true) := by
        rw [hmakes, ← Bool.not_eq_false]
        tauto
      rw [if_neg hcannot]
      rfl

end Sys2Proof.Machine
end

section
/-! PROOF. A register access other than a START always goes on and keeps ERR, and DONE but for the acknowledgement of a
STATUS write. So in an IDLE engine ERR lasts until the next START or reset (60_exceptions.md R230;
70_reset_and_hazards.md R249), and a step stops only for the reasons the model names (60_exceptions.md R224; 20_memory.md R80, R86). -/

namespace Sys2Proof.Machine

/-! ### Register accesses -/

theorem decodeRead_ne_command (offset : Nat) : instrKind (decodeRead offset) ≠ .command := by
  unfold decodeRead
  split <;> exact nofun

theorem decodeWrite_ne_command (offset : Nat) (v : Word) : instrKind (decodeWrite offset v) ≠ .command := by
  unfold decodeWrite
  split <;> exact nofun

/-- A host access decodes to no command instruction: a command is run by a START. -/
theorem decode_access_ne_command {regBase : Nat} {a : Access} {i : Instr}
    (h : decode regBase (.access a) = .ok i) : instrKind i ≠ .command := by
  simp only [decode, decodeAccess] at h
  split at h
  · cases h
  split at h
  · cases h
  split at h
  · cases h
  split at h <;> cases h
  · exact decodeRead_ne_command _
  · exact decodeWrite_ne_command _ _

/-- In every state the instruction goes on and keeps ERR, and DONE but where it is a STATUS write with bit 1 set. -/
def KeepsStatus (i : Instr) : Prop :=
  ∀ s : State, ∃ t, exec i s = .next t ∧ t.err = s.err ∧
    (t.done = s.done ∨ ∃ v, i = .wrStatus v ∧ v.getLsbD 1 = true)

/-- Of the register accesses only a CTRL write with START can stop or change ERR. -/
theorem start_or_keepsStatus (i : Instr) (hkind : instrKind i ≠ .command) :
    (∃ v, i = .wrCtrl v ∧ v.getLsbD 0 = true) ∨ KeepsStatus i := by
  cases i with
  | fill | imageUnsupported | illegalOp0 | illegalOp3
  | imageRgb565Normal | imageRgb565Add | imageRgb565Sub | imageRgb565Mul
  | imageRgb888Normal | imageRgb888Add | imageRgb888Sub | imageRgb888Mul
  | imageXrgb8888Normal | imageXrgb8888Add | imageXrgb8888Sub | imageXrgb8888Mul
  | imageArgb8888Normal | imageArgb8888Add | imageArgb8888Sub | imageArgb8888Mul => exact absurd rfl hkind
  | rdConfig | rdCtrl | rdStatus | rdCmd | rdDestAddr | rdDestSize | rdDestStride | rdColor | rdOpa
  | rdMaskAddr | rdMaskStride | rdSrcAddr | rdSrcStride | rdReserved
  | wrCmd | wrDestAddr | wrDestSize | wrDestStride | wrColor | wrOpa
  | wrMaskAddr | wrMaskStride | wrSrcAddr | wrSrcStride
  | wrConfig | wrReserved => exact .inr fun s => ⟨_, rfl, rfl, .inl rfl⟩
  | wrCtrl v =>
    cases hv : v.getLsbD 0 with
    | true => exact .inl ⟨v, rfl, hv⟩
    | false => exact .inr fun s => ⟨_, exec_wrCtrl_noStart s v hv, rfl, .inl rfl⟩
  | wrStatus v =>
    cases hv : v.getLsbD 1 with
    | true => exact .inr fun s => ⟨_, exec_wrStatus_clears s v hv, rfl, .inr ⟨v, rfl, hv⟩⟩
    | false => exact .inr fun s => ⟨s, exec_wrStatus_same s v hv, rfl, .inl rfl⟩

variable {s : State}

/-- The step of a host access that decodes is its instruction, run once the event is taken off. -/
theorem step_of_decoded {a : Access} {rest : List Event} {i : Instr} (ha : s.agenda = .reg a :: rest)
    (hi : decode s.cfg.regBase (.access a) = .ok i) : step s = exec i (s.setAgenda rest) := by
  rw [step_of_agenda_cons s _ rest ha, handle, hostAccess, setAgenda_cfg, hi]

/-- Settles O54: a host access is no START and keeps the status, and in an IDLE engine no other event but a reset
touches it. -/
theorem errIsKeptUntilTheNextAcceptance : Obligations.ErrIsKeptUntilTheNextAcceptance := by
  intro s t hidle hstep
  cases ha : s.agenda with
  | nil =>
    rw [step_of_agenda_nil s ha, engineStep_idle 0 s hidle] at hstep
    cases hstep
    exact .inr (.inr ⟨rfl, .inl rfl⟩)
  | cons e rest =>
    have hhandle := (step_of_agenda_cons s e rest ha).symm.trans hstep
    cases e with
    | reg a =>
      cases hi : decode s.cfg.regBase (.access a) with
      | error r =>
        rw [handle, hostAccess, setAgenda_cfg, hi] at hhandle
        cases hhandle
      | ok i =>
        rcases start_or_keepsStatus i (decode_access_ne_command hi) with ⟨v, rfl, hv⟩ | hkeeps
        · exact .inl ⟨a, rest, v, rfl, hi, hv⟩
        · obtain ⟨t', ht', herr, hdone⟩ := hkeeps (s.setAgenda rest)
          rw [step_of_decoded ha hi, ht'] at hstep
          cases hstep
          refine .inr (.inr ⟨herr, hdone.imp id ?_⟩)
          rintro ⟨v, rfl, hv⟩
          exact ⟨a, rest, v, rfl, hi, hv⟩
    | load a sawFinal =>
      obtain ⟨-, -, rfl⟩ := (hostLoad_next ..).1 hhandle
      exact .inr (.inr ⟨rfl, .inl rfl⟩)
    | store a v =>
      obtain ⟨-, -, -, rfl⟩ := (hostStore_next ..).1 hhandle
      exact .inr (.inr ⟨rfl, .inl rfl⟩)
    | engine k =>
      rw [handle, engineStep_idle k (s.setAgenda rest) hidle] at hhandle
      cases hhandle
      exact .inr (.inr ⟨rfl, .inl rfl⟩)
    | busError =>
      rw [handle, busErrorStep_idle (s.setAgenda rest) hidle] at hhandle
      cases hhandle
      exact .inr (.inr ⟨rfl, .inl rfl⟩)
    | reset l => exact .inr (.inl ⟨l, rest, rfl⟩)

/-! ### Stops -/

/-- A CTRL write with START stops only in an IDLE engine whose command violates a precondition (60_exceptions.md
R224). -/
theorem start_stops {v : Word} (hv : v.getLsbD 0 = true) (hstop : ¬∃ t, exec (.wrCtrl v) s = .next t) :
    s.phase = .idle ∧ violation s.cfg { s.desc with cmd := s.desc.cmd &&& cmdFieldMask } ≠ none := by
  cases hp : s.phase with
  | running job => exact absurd ⟨_, exec_wrCtrl_running v hp⟩ hstop
  | idle =>
    refine ⟨rfl, fun hnone => hstop ?_⟩
    have hidle : (s.setIrqEn (v.getLsbD 1)).phase = .idle := hp
    rw [exec_wrCtrl_start s v hv]
    cases herr : rowError (commandRow s.desc.cmd) with
    | some e => exact ⟨_, start_rejected hidle herr⟩
    | none =>
      rw [start_launched hidle herr]
      exact ⟨_, (launch_next ..).2 ⟨hnone, rfl⟩⟩

/-- An address is one the host may load and store, or not (assumption log 13). -/
theorem hostMemory_cases (c : Config) (a : Nat) :
    (2 ^ c.addrW ≤ a ∨ c.ordinary a = false) ∨ (a < c.space ∧ c.ordinary a = true) := by
  cases c.ordinary a with
  | false => exact .inl (.inr rfl)
  | true => exact (Nat.lt_or_ge a c.space).symm.imp .inl fun hlt => ⟨hlt, rfl⟩

/-- Settles O56: by the next event; the engine's step, a bus error and a reset always go on. -/
theorem aStepStopsOnlyForTheReasonsNamed : Obligations.AStepStopsOnlyForTheReasonsNamed := by
  intro s hstop
  cases ha : s.agenda with
  | nil => exact absurd ⟨_, step_of_agenda_nil s ha⟩ hstop
  | cons e rest =>
    have hhandle : ¬∃ t, handle e (s.setAgenda rest) = .next t := fun ⟨t, ht⟩ =>
      hstop ⟨t, (step_of_agenda_cons s e rest ha).trans ht⟩
    cases e with
    | reg a =>
      refine .inl ⟨a, rest, rfl, ?_⟩
      cases hi : decode s.cfg.regBase (.access a) with
      | error r => exact .inl fun i => nofun
      | ok i =>
        have hexec : ¬∃ t, exec i (s.setAgenda rest) = .next t := fun ⟨t, ht⟩ =>
          hstop ⟨t, (step_of_decoded ha hi).trans ht⟩
        rcases start_or_keepsStatus i (decode_access_ne_command hi) with ⟨v, rfl, hv⟩ | hkeeps
        · obtain ⟨hidle, hviolates⟩ := start_stops hv hexec
          exact .inr ⟨v, rfl, hv, hidle, hviolates⟩
        · obtain ⟨t, ht, -⟩ := hkeeps (s.setAgenda rest)
          exact absurd ⟨t, ht⟩ hexec
    | load a sawFinal =>
      rcases hostMemory_cases s.cfg a with hnone | ⟨hlt, hordinary⟩
      · exact .inr (.inl ⟨a, rest, .inl ⟨sawFinal, rfl⟩, hnone⟩)
      · exact absurd ⟨_, (hostLoad_next ..).2 ⟨hlt, hordinary, rfl⟩⟩ hhandle
    | store a v =>
      rcases hostMemory_cases s.cfg a with hnone | ⟨hlt, hordinary⟩
      · exact .inr (.inl ⟨a, rest, .inr ⟨v, rfl⟩, hnone⟩)
      · cases hkept : inRunningFootprint a s with
        | true => exact .inr (.inr ⟨a, v, rest, rfl, hkept⟩)
        | false => exact absurd ⟨_, (hostStore_next ..).2 ⟨hlt, hordinary, hkept, rfl⟩⟩ hhandle
    | engine k => exact absurd ⟨_, rfl⟩ hhandle
    | busError => exact absurd ⟨_, rfl⟩ hhandle
    | reset l => exact absurd ⟨_, rfl⟩ hhandle

end Sys2Proof.Machine
end

section
/-! PROOF. What an interrupted command leaves (60_exceptions.md R223; 70_reset_and_hazards.md R241). The engine may
write the pairs of any part of its pending pairs first; a reset or a bus error then strikes. -/

namespace Sys2Proof.Machine

/-- The engine's steps of a schedule, one after another. -/
def engineSteps : List Nat → State → State
  | [], s => s
  | k :: picks, s => engineSteps picks (engineStep k s)

/-- A run of a schedule of engine steps followed by other events is the steps, and then a run of the other events. -/
theorem runSteps_picks (picks : List Nat) (n : Nat) (s : State) (es : List Event) :
    runSteps (picks.length + n) (s.setAgenda (picks.map Event.engine ++ es)) =
      runSteps n ((engineSteps picks s).setAgenda es) := by
  induction picks generalizing s with
  | nil =>
    rw [List.length_nil, Nat.zero_add]
    rfl
  | cons k picks ih =>
    have hstep : step (s.setAgenda ((k :: picks).map Event.engine ++ es)) =
        .next ((engineStep k s).setAgenda (picks.map Event.engine ++ es)) :=
      congrArg Host.Outcome.next (engineStep_setAgenda k s _)
    rw [List.length_cons, Nat.add_right_comm, runSteps, hstep]
    exact ih (engineStep k s)

variable {s : State} {job : Job}

/-- The state of a running command with other memory and other pending pairs. -/
def State.partWay (s : State) (job : Job) (m : Memory) (rest : List Host.Cell) : State :=
  { s with mem := m, phase := .running { job with pending := rest } }

/-- The engine can write any part of its pending pairs, each pair once, and then still runs. -/
theorem exists_picks_of_part (part : List Host.Cell) (s : State) (job : Job) (hinv : s.Inv)
    (hp : s.phase = .running job) (hpart : part ⊆ job.pending) (honce : (part.map fun cell => cell.1).Nodup) :
    ∃ (picks : List Nat) (m : Memory) (rest : List Host.Cell),
      engineSteps picks s = s.partWay job m rest ∧
      ∀ a, m.read a = afterCommand part s.mem a := by
  induction part generalizing s job with
  | nil =>
    refine ⟨[], s.mem, job.pending, ?_, fun _ => rfl⟩
    rw [engineSteps, State.partWay, ← hp]
  | cons cell part ih =>
    obtain ⟨-, -, -, hok⟩ := hinv.running job hp
    obtain ⟨hcell, hsub⟩ := List.cons_subset.1 hpart
    obtain ⟨k, hk, hkcell⟩ := List.mem_iff_getElem.1 hcell
    have hport : s.cfg.port cell.1 = cell.1 := port_of_lt s.cfg _ (hok.pending_lt cell hcell)
    have hwrite := engineStep_pick k hp hk
    have hinv' := hinv.commit job hp k hk
    rw [hkcell] at hwrite hinv'
    have hrest : part ⊆ job.pending.eraseIdx k := fun other hother => by
      refine (mem_eraseIdx_iff hok.pending_once k hk other).2 ⟨?_, hsub hother⟩
      rintro rfl
      rw [hkcell] at hother
      exact (List.nodup_cons.1 honce).1 (List.mem_map_of_mem hother)
    obtain ⟨picks, m, rest, hrun, hread⟩ := ih _ _ hinv' rfl hrest (List.nodup_cons.1 honce).2
    refine ⟨k :: picks, m, rest, by rw [engineSteps, hwrite, hrun]; rfl, fun a => (hread a).trans ?_⟩
    rw [commit_mem, hport]
    exact afterCommand_eraseIdx (ws := cell :: part) honce hinv.memoryForm 0 (Nat.zero_lt_succ _) a

/-- Settles O34: a schedule writes the part, and then the reset or the bus error ends the command. -/
theorem anInterruptedCommandLeavesAnySubset : Obligations.AnInterruptedCommandLeavesAnySubset := by
  intro s job part hinv hp hall hpart
  obtain ⟨-, -, -, hok⟩ := hinv.running job hp
  have honce : (part.map fun cell => cell.1).Nodup := hok.once.sublist (hpart.map _)
  obtain ⟨picks, m, rest, hrun, hread⟩ := exists_picks_of_part part s job hinv hp (hall ▸ hpart.subset) honce
  have houtside : ∀ a : Nat, a ∉ part.map (fun cell => cell.1) → m.read a = s.mem.read a := fun a hnot =>
    (hread a).trans (afterCommand_of_not_mem s.mem hnot)
  refine ⟨picks, m, fun cell hc => ?_, houtside, fun l => ?_, fun hpossible hmakes => ?_⟩
  · split
    · next hin => rw [hread, afterCommand, finalValue_of_mem part honce cell hin, Option.getD_some]
    · next hout =>
      have hnot : cell.1 ∉ part.map fun cell => cell.1 := fun hm => by
        obtain ⟨cell', hc', he⟩ := List.mem_map.1 hm
        exact hout (cell_eq_of_address_eq hok.once (hpart.subset hc') hc he ▸ hc')
      rw [houtside _ hnot, hok.oldValue cell (hall ▸ hc)]
  · rw [runSteps_picks, hrun]
    rfl
  · have hstep := step_busError_running (s := (s.partWay job m rest).setAgenda [.busError]) (rest := []) rfl rfl
    rw [runSteps_picks, hrun, runSteps, hstep, if_pos ⟨hpossible, hmakes⟩]
    rfl

end Sys2Proof.Machine
end

section
/-! PROOF. An engine with nothing to run (70_reset_and_hazards.md R240). -/

namespace Sys2Proof.Machine

/-- Settles O57: with an empty agenda the step is the engine's own, and an IDLE engine's step changes nothing. -/
theorem anIdleEngineRunsNothing : Obligations.AnIdleEngineRunsNothing := by
  intro s hidle hempty
  rw [step_of_agenda_nil s hempty, engineStep_idle 0 s hidle]

end Sys2Proof.Machine
end

section
/-! PROOF. The encodings (30_encoding.md sections 1 and 4; 10_state.md R20, R21; 20_memory.md R86): decoding undoes the
encoding of a well-formed instruction, encoding a decoded word loses its reserved bits alone, and a host access is an
instruction exactly where the hardware defines it. -/

namespace Sys2Proof.Machine

/-! ### Instruction to words and back -/

open Sys2Proof.Laws.RoundTrip in
/-- Every instruction has its round trip, each by the law of its constructor. -/
theorem roundTrip : ∀ i : Instr, Statement i
  | .fill d m b f => fill d m b f
  | .imageRgb565Normal d m => imageRgb565Normal d m
  | .imageRgb565Add d m => imageRgb565Add d m
  | .imageRgb565Sub d m => imageRgb565Sub d m
  | .imageRgb565Mul d m => imageRgb565Mul d m
  | .imageRgb888Normal d m => imageRgb888Normal d m
  | .imageRgb888Add d m => imageRgb888Add d m
  | .imageRgb888Sub d m => imageRgb888Sub d m
  | .imageRgb888Mul d m => imageRgb888Mul d m
  | .imageXrgb8888Normal d m => imageXrgb8888Normal d m
  | .imageXrgb8888Add d m => imageXrgb8888Add d m
  | .imageXrgb8888Sub d m => imageXrgb8888Sub d m
  | .imageXrgb8888Mul d m => imageXrgb8888Mul d m
  | .imageArgb8888Normal d m => imageArgb8888Normal d m
  | .imageArgb8888Add d m => imageArgb8888Add d m
  | .imageArgb8888Sub d m => imageArgb8888Sub d m
  | .imageArgb8888Mul d m => imageArgb8888Mul d m
  | .imageUnsupported d m b f => imageUnsupported d m b f
  | .illegalOp0 d m b f => illegalOp0 d m b f
  | .illegalOp3 d m b f => illegalOp3 d m b f
  | .rdConfig => rdConfig
  | .rdCtrl => rdCtrl
  | .rdStatus => rdStatus
  | .rdCmd => rdCmd
  | .rdDestAddr => rdDestAddr
  | .rdDestSize => rdDestSize
  | .rdDestStride => rdDestStride
  | .rdColor => rdColor
  | .rdOpa => rdOpa
  | .rdMaskAddr => rdMaskAddr
  | .rdMaskStride => rdMaskStride
  | .rdSrcAddr => rdSrcAddr
  | .rdSrcStride => rdSrcStride
  | .wrConfig v => wrConfig v
  | .wrCtrl v => wrCtrl v
  | .wrStatus v => wrStatus v
  | .wrCmd v => wrCmd v
  | .wrDestAddr v => wrDestAddr v
  | .wrDestSize v => wrDestSize v
  | .wrDestStride v => wrDestStride v
  | .wrColor v => wrColor v
  | .wrOpa v => wrOpa v
  | .wrMaskAddr v => wrMaskAddr v
  | .wrMaskStride v => wrMaskStride v
  | .wrSrcAddr v => wrSrcAddr v
  | .wrSrcStride v => wrSrcStride v
  | .rdReserved offset => rdReserved offset
  | .wrReserved offset v => wrReserved offset v

/-- Settles O5: the round trip of each constructor. -/
theorem decodeOfEncodeIsTheInstruction : Obligations.DecodeOfEncodeIsTheInstruction :=
  fun i regBase hwf => roundTrip i hwf regBase

/-! ### Command word to instruction and back -/

/-- The encoder makes of a row's instruction the word the row latches. -/
theorem encode_instr (regBase : Nat) (r : CommandRow) (w : Word) :
    encode regBase (r.instr w) = .command (rowWord r w) := by
  cases r <;> rfl

/-- A word found to be IMAGE.UNSUPPORTED names none of the four encodings: with one of them it would be a row that runs
(30_encoding.md R96). -/
theorem unsupportedFormat_of_row {w : Word} (hrow : commandRow w = .imageUnsupported) :
    unsupportedFormat (cmdSrcFmt w) = true := by
  have hop : cmdOp w = 2 := (fits_iff_of_opMask (k := 2) rfl rfl w).1 (hrow ▸ commandRow_fits w)
  have herr : rowError (commandRow w) ≠ none := by
    rw [hrow]
    exact nofun
  have hfmt : cmdSrcFmt w ≠ 0x0F ∧ cmdSrcFmt w ≠ 0x10 ∧ cmdSrcFmt w ≠ 0x11 ∧ cmdSrcFmt w ≠ 0x12 := by
    by_contra hsupported
    exact herr (rowError_none (.inr ⟨hop, hsupported⟩))
  rw [unsupportedFormat, decide_eq_true_iff]
  tauto

/-- The only row whose instruction can fail to be well formed is IMAGE.UNSUPPORTED. -/
theorem wellFormed_instr {r : CommandRow} {w : Word}
    (h : r = .imageUnsupported → unsupportedFormat (cmdSrcFmt w) = true) : (r.instr w).wellFormed = true := by
  cases r
  case imageUnsupported => exact h rfl
  all_goals rfl

/-- Settles O7: the row found fits the word, so it latches the word without its reserved bits. -/
theorem encodeOfDecodeIsTheWordWithoutReservedBits : Obligations.EncodeOfDecodeIsTheWordWithoutReservedBits :=
  fun w regBase => ⟨wellFormed_instr unsupportedFormat_of_row, by
    rw [decodeCommand, encode_instr, rowWord_eq _ w (commandRow_fits w)]
    rfl⟩

/-- Settles O8: the decoder run on each word. -/
theorem sampleWordsDecodeToTheirInstructions : Obligations.SampleWordsDecodeToTheirInstructions := by
  unfold Obligations.SampleWordsDecodeToTheirInstructions
  decide

/-! ### Host accesses -/

/-- A word slot behind SRC_STRIDE is a reserved offset (10_state.md R21). -/
theorem reservedOffset_ofNat {k : Nat} (hlo : 0x34 ≤ k) (hhi : k < blockSize) (h4 : k % 4 = 0) :
    reservedOffset (BitVec.ofNat 8 k) = true := by
  have hk : (BitVec.ofNat 8 k).toNat = k := Nat.mod_eq_of_lt hhi
  simp [reservedOffset, hk, hlo, h4]

theorem wellFormed_decodeRead {k : Nat} (hhi : k < blockSize) (h4 : k % 4 = 0) :
    (decodeRead k).wellFormed = true := by
  unfold decodeRead
  split
  case h_14 => exact reservedOffset_ofNat (by grind) hhi h4
  all_goals rfl

theorem wellFormed_decodeWrite (v : Word) {k : Nat} (hhi : k < blockSize) (h4 : k % 4 = 0) :
    (decodeWrite k v).wellFormed = true := by
  unfold decodeWrite
  split
  case h_14 => exact reservedOffset_ofNat (by grind) hhi h4
  all_goals rfl

/-- An access that decodes is one the hardware defines: every other has its rejection (20_memory.md R86). -/
theorem defined_of_decodeAccess {regBase : Nat} {a : Access} {i : Instr} (h : decodeAccess regBase a = .ok i) :
    regBase ≤ a.addr ∧ a.addr < regBase + blockSize ∧ a.width = 4 ∧ (a.addr - regBase) % 4 = 0 := by
  unfold decodeAccess at h
  split at h
  · cases h
  next hin =>
  split at h
  · cases h
  next hwidth =>
  split at h
  · cases h
  next h4 =>
  obtain ⟨hlo, hhi⟩ := not_or.1 hin
  exact ⟨not_lt.1 hlo, not_le.1 hhi, not_not.1 hwidth, not_not.1 h4⟩

/-- An access the hardware defines decodes to a well-formed instruction. -/
theorem decodeAccess_of_defined {regBase : Nat} {a : Access} (h : regBase ≤ a.addr ∧ a.addr < regBase + blockSize ∧
    a.width = 4 ∧ (a.addr - regBase) % 4 = 0) : ∃ i, decodeAccess regBase a = .ok i ∧ i.wellFormed = true := by
  obtain ⟨hlo, hhi, hwidth, h4⟩ := h
  have hin : ¬(a.addr < regBase ∨ regBase + blockSize ≤ a.addr) := by omega
  have hk : a.addr - regBase < blockSize := by omega
  rw [decodeAccess, if_neg hin, if_neg (not_not.2 hwidth), if_neg (not_not.2 h4)]
  cases a.dir with
  | read => exact ⟨_, rfl, wellFormed_decodeRead hk h4⟩
  | write => exact ⟨_, rfl, wellFormed_decodeWrite a.data hk h4⟩

/-- Settles O9: an access decodes to something exactly where it is defined, and then to a well-formed instruction. -/
theorem registerAccessesDecodeExactlyWhereDefined : Obligations.RegisterAccessesDecodeExactlyWhereDefined := by
  intro regBase a
  refine ⟨⟨fun ⟨_, hi⟩ => defined_of_decodeAccess hi, fun h => ?_⟩, fun i hi => ?_⟩
  · obtain ⟨i, hi, -⟩ := decodeAccess_of_defined h
    exact ⟨i, hi⟩
  · obtain ⟨j, hj, hwf⟩ := decodeAccess_of_defined (defined_of_decodeAccess hi)
    cases hj.symm.trans hi
    exact hwf

end Sys2Proof.Machine
end

section
/-! PROOF. The words the host reads (10_state.md R22 to R35): the fields of CONFIG, CTRL and STATUS, a written register
read back, and the values after reset (R41). -/

namespace Sys2Proof.Machine

/-! ### CONFIG, CTRL and STATUS -/

section Fields

variable {k lo : Nat}

/-- A field placed inside the lowest `n` bits stays there. -/
theorem mul_field_lt {n : Nat} (h : lo + k ≤ n) (v : BitVec k) : 2 ^ lo * v.toNat < 2 ^ n := calc
  2 ^ lo * v.toNat < 2 ^ lo * 2 ^ k := Nat.mul_lt_mul_of_pos_left v.isLt (Nat.two_pow_pos lo)
  _ = 2 ^ (lo + k) := (Nat.pow_add 2 lo k).symm
  _ ≤ 2 ^ n := Nat.pow_le_pow_right (by decide) h

/-- A field that fits above bit `lo` weighs `2 ^ lo`. -/
theorem toNat_placeField (h : lo + k ≤ 32) (v : BitVec k) : (placeField lo v).toNat = 2 ^ lo * v.toNat := by
  rw [placeField, BitVec.toNat_shiftLeft, BitVec.toNat_setWidth_of_le (by omega), Nat.shiftLeft_eq, Nat.mul_comm,
    Nat.mod_eq_of_lt (mul_field_lt h v)]

variable {x : Word} (hx : x.toNat < 2 ^ lo)
include hx

/-- A field placed above every bit of a word adds its weight. -/
theorem toNat_or_placeField (h : lo + k ≤ 32) (v : BitVec k) :
    (x ||| placeField lo v).toNat = x.toNat + 2 ^ lo * v.toNat := by
  rw [BitVec.toNat_or, toNat_placeField h, Nat.or_comm, ← Nat.two_pow_add_eq_or_of_lt hx, Nat.add_comm]

theorem or_placeField_lt {n : Nat} (h : lo + k ≤ n) (hn : n ≤ 32) (v : BitVec k) :
    (x ||| placeField lo v).toNat < 2 ^ n := by
  rw [BitVec.toNat_or, toNat_placeField (by omega)]
  exact Nat.or_lt_two_pow (hx.trans_le (Nat.pow_le_pow_right (by decide) (by omega))) (mul_field_lt h v)

end Fields

/-- The fields of CONFIG (10_state.md R23). -/
theorem configWord_toNat (s : State) (h : s.cfg.addrW < 64) :
    s.configWord.toNat = s.cfg.opaMax.toNat + 2 ^ 8 * s.cfg.fillPad.toNat + 2 ^ 16 * s.cfg.addrW
      + 2 ^ 24 * s.cfg.nonnormalSwap.toNat := by
  have haddrW : (BitVec.ofNat 6 s.cfg.addrW).toNat = s.cfg.addrW := Nat.mod_eq_of_lt h
  have hopa : (placeField 0 s.cfg.opaMax).toNat = s.cfg.opaMax.toNat := by
    rw [toNat_placeField (by decide), Nat.pow_zero, Nat.one_mul]
  have h8 : (placeField 0 s.cfg.opaMax).toNat < 2 ^ 8 := hopa ▸ s.cfg.opaMax.isLt
  have h16 := or_placeField_lt (n := 16) h8 (by decide) (by decide) s.cfg.fillPad
  have h24 := or_placeField_lt (n := 24) h16 (by decide) (by decide) (BitVec.ofNat 6 s.cfg.addrW)
  rw [State.configWord, toNat_or_placeField h24 (by decide), toNat_or_placeField h16 (by decide),
    toNat_or_placeField h8 (by decide), hopa, haddrW, BitVec.toNat_ofBool]

/-- The field of CTRL (10_state.md R24). -/
theorem ctrlWord_toNat (s : State) : s.ctrlWord.toNat = 2 * s.irqEn.toNat := by
  rw [State.ctrlWord, toNat_placeField (by decide), BitVec.toNat_ofBool, Nat.pow_one]

/-- The fields of STATUS (10_state.md R25). -/
theorem statusWord_toNat (s : State) :
    s.statusWord.toNat = s.busy.toNat + 2 * s.done.toNat + 16 * s.err.code.toNat := by
  have hbusy : (placeField 0 (BitVec.ofBool s.busy)).toNat = s.busy.toNat := by
    rw [toNat_placeField (by decide), Nat.pow_zero, Nat.one_mul, BitVec.toNat_ofBool]
  have h1 : (placeField 0 (BitVec.ofBool s.busy)).toNat < 2 ^ 1 := hbusy ▸ s.busy.toNat_lt
  have h4 := or_placeField_lt (n := 4) h1 (by decide) (by decide) (BitVec.ofBool s.done)
  rw [State.statusWord, toNat_or_placeField h4 (by decide), toNat_or_placeField h1 (by decide), hbusy,
    BitVec.toNat_ofBool, Nat.pow_one]
  rfl

/-- Settles O15: each word is the sum of its fields, which do not overlap. -/
theorem configCtrlAndStatusWordsHoldTheirFields : Obligations.ConfigCtrlAndStatusWordsHoldTheirFields :=
  fun s haddrW => ⟨configWord_toNat s haddrW, ctrlWord_toNat s, statusWord_toNat s⟩

/-! ### Descriptor registers -/

/-- Settles O17: the write is `setReg`, and the read is `readReg` in the state it leaves. -/
theorem aWrittenRegisterReadsBackAndOthersDoNotChange : Obligations.AWrittenRegisterReadsBackAndOthersDoNotChange := by
  intro s r q v
  refine ⟨s.setReg r v, _, exec_writeInstr s r v, exec_readInstr _ q, ?_⟩
  rw [setHostData_hostData]
  split
  case isTrue h => rw [h, setReg_readReg]
  case isFalse h => exact setReg_readReg_other s r q v h

/-! ### After reset -/

/-- Settles O1: CONFIG holds the reference parameters, and everything else is 0. -/
theorem resetStateReadsItsResetValues : Obligations.ResetStateReadsItsResetValues :=
  ⟨rfl, ctrlWord_eq_zero State.reset rfl, statusWord_eq_zero State.reset rfl rfl rfl,
    platformReset_readReg State.reset Descriptor.zero, rfl, rfl⟩

/-- Settles O3: nothing runs, memory lists nothing, and the registers are 0. -/
theorem resetStateMeetsTheInvariant : Obligations.ResetStateMeetsTheInvariant :=
  .of_idle rfl rfl rfl nofun (fieldsOnly_zero Config.reference)

end Sys2Proof.Machine
end

section
/-! PROOF. One step of the machine: it runs the decoded register access or the word placed for it (43_command_control.md
R200 to R202), and no step changes the parameters (10_state.md R23). -/

namespace Sys2Proof.Machine

/-! ### The instruction run -/

/-- Settles O11: the access is the next event. -/
theorem aStepRunsTheDecodedRegisterAccess : Obligations.AStepRunsTheDecodedRegisterAccess :=
  fun _ _ _ _ => step_of_decoded

/-- The CTRL word that `placeCommand` writes has START 1. -/
theorem startWord_bit_zero (b : Bool) : ((1 : Word) ||| placeField 1 (BitVec.ofBool b)).getLsbD 0 = true := by
  cases b <;> rfl

/-- The CTRL word that `placeCommand` writes keeps IRQ_EN. -/
theorem startWord_bit_one (b : Bool) : ((1 : Word) ||| placeField 1 (BitVec.ofBool b)).getLsbD 1 = b := by
  cases b <;> rfl

/-- The step after a placed command word runs its instruction. -/
theorem step_placeCommand (s : State) (w : Word) :
    step (placeCommand s w) =
      exec (decodeCommand w) { s with desc := { s.desc with cmd := w &&& cmdFieldMask }, phase := .idle } := by
  have hdecode := Laws.RoundTrip.wrCtrl (1 ||| placeField 1 (BitVec.ofBool s.irqEn)) rfl s.cfg.regBase
  rw [aStartRunsTheCommandThatCmdDecodesTo (placeCommand s w) _ s.agenda _ rfl hdecode (startWord_bit_zero s.irqEn),
    startWord_bit_one]
  exact congrArg (exec · _) (decodeCommand_and_fields w)

/-- Settles O13: a table word of up to 32 bits is placed as a command word. -/
theorem aPlacedWordIsTheNextInstructionRun : Obligations.APlacedWordIsTheNextInstructionRun := by
  intro s nbits w hbits
  have hplaced : s.withFetchWord nbits w = placeCommand s (BitVec.ofNat 32 w) := by
    rw [State.withFetchWord, packetOfTableWord, if_pos hbits, placePacket]
  rw [hplaced, step_placeCommand]
  rfl

/-! ### The parameters -/

theorem engineStep_cfg (pick : Nat) (s : State) : (engineStep pick s).cfg = s.cfg := by
  unfold engineStep
  split
  · rfl
  · split <;> rfl

theorem busErrorStep_cfg (s : State) : (busErrorStep s).cfg = s.cfg := by
  rcases busErrorStep_cases s with h | h <;> rw [h]
  exact terminate_cfg s .busError

theorem hostAccess_cfg {a : Access} {s t : State} (h : hostAccess a s = .next t) : t.cfg = s.cfg := by
  unfold hostAccess at h
  split at h
  · obtain ⟨-, hcfg, -⟩ := (exec_effect _ s t h).keeps
    exact hcfg
  · cases h

theorem handle_cfg {e : Event} {s t : State} (h : handle e s = .next t) : t.cfg = s.cfg := by
  cases e with
  | reg a => exact hostAccess_cfg h
  | load a sawFinal =>
    obtain ⟨-, -, rfl⟩ := (hostLoad_next ..).1 h
    rfl
  | store a v =>
    obtain ⟨-, -, -, rfl⟩ := (hostStore_next ..).1 h
    rfl
  | engine pick => cases h; exact engineStep_cfg pick s
  | busError => cases h; exact busErrorStep_cfg s
  | reset latched => cases h; rfl

theorem step_cfg {s t : State} (h : step s = .next t) : t.cfg = s.cfg := by
  cases ha : s.agenda with
  | nil =>
    rw [step_of_agenda_nil s ha] at h
    cases h
    exact engineStep_cfg 0 s
  | cons e rest =>
    rw [step_of_agenda_cons s e rest ha] at h
    exact handle_cfg (s := s.setAgenda rest) h

/-- Settles O55: no event changes the parameters, and CONFIG is assembled from them alone. -/
theorem configIsTheSameForEver : Obligations.ConfigIsTheSameForEver := by
  intro s t hstep
  have hcfg := step_cfg hstep
  refine ⟨hcfg, ?_⟩
  rw [State.configWord, hcfg]
  rfl

end Sys2Proof.Machine
end
